-- ==== Sys2Proof/Word.lean ====
section
/-! DEFINITION. The word types of the three blocks (spec/00_scope.md R10): bytes, 16-bit and 32-bit quantities, all unsigned. -/

namespace Sys2Proof

/-- A byte: 8 bits, bit 7 the most significant (R10). -/
abbrev Byte := BitVec 8

/-- A 16-bit quantity: a store offset or a mailbox command code. -/
abbrev Word16 := BitVec 16

/-- A 32-bit quantity: the memory-size result, the register of the check loop. -/
abbrev Word32 := BitVec 32

/-- The byte of a natural number, modulo 256. -/
abbrev byteOf (n : Nat) : Byte := BitVec.ofNat 8 n

end Sys2Proof
end

