-- ==== Sys2Proof/Config.lean ====
section
/-! DEFINITION. The configuration record `Cfg` of spec/00_scope.md R9: its plain-data fields as a structure that `State`
carries (so that a statement about every state quantifies over every configuration, as R9 asks), its legality (U12), its
default, and its OPEN parameters as constants without a body. -/

namespace Sys2Proof

/-- `Profile.storage_medium` (R45). -/
inductive StorageMedium where
  | opticalDisc
  | flashStorage
  deriving DecidableEq, Repr, Inhabited

/-- `BIT_ORDER` (R9, R147). -/
inductive BitOrder where
  | msbFirst
  | lsbFirst
  deriving DecidableEq, Repr, Inhabited

/-- `JVS_HDR_ORDER` (R9, R112). -/
inductive HdrOrder where
  | lenNode
  | nodeLen
  deriving DecidableEq, Repr, Inhabited

/-- `MB_ENDIAN` (R9, R76). -/
inductive Endian where
  | little
  | big
  deriving DecidableEq, Repr, Inhabited

/-- The plain-data fields of `GameProfile` (R45). `title` and the members of `quirks` are enumerations whose values are not
in the source; a natural number stands for each (log entry 3). -/
structure Profile where
  title : Nat
  storageMedium : StorageMedium
  quirks : List Nat
  boardId : List Byte
  cmdRev : Byte
  jvRev : Byte
  commRev : Byte
  deriving DecidableEq, Repr, Inhabited

/-- The `PadStatus` sample (R46). Its fields are not in the source; a natural number stands for whatever the pad
abstraction samples (DESIGN CHOICE, log entry 11). -/
structure PadStatus where
  code : Nat
  deriving DecidableEq, Repr, Inhabited

/-- The field `CheckByte` of `Cfg` (R9, U2) as plain data: the reduction loop of R139, which is the default, or any other
function of three bytes, written as the table of its values at `b0 * 65536 + b1 * 256 + b2` (DESIGN CHOICE, log entry 12). -/
inductive CheckFn where
  | reduction
  | table (values : List Byte)
  deriving DecidableEq, Repr, Inhabited

/-- The BMSC fields of `Cfg` (R9). -/
structure BmCfg where
  opOffsetSet : Byte
  opWrite : Byte
  opRead : Byte
  opDmaSet : Byte
  opIsrRead : Byte
  opIsrWrite : Byte
  opImrRead : Byte
  opImrWrite : Byte
  opLancntWrite : Byte
  serialId : Vector Byte 4
  idleByte : Byte
  ackByte : Byte
  unhandledByte : Byte
  checkFn : CheckFn
  backupSize : Nat
  irqPollLimit : Nat
  lancntAssert : Byte × Byte
  lancntClear : Byte × Byte
  isrLan : Byte
  bitOrder : BitOrder
  deriving DecidableEq, Repr

/-- The fifteen JVS opcode values `JOP_*` of `Cfg` (R9, R117). -/
structure JopCfg where
  boardID : Byte
  commandRev : Byte
  jvRev : Byte
  commRev : Byte
  capabilities : Byte
  switchInput : Byte
  coinInput : Byte
  analogInput : Byte
  positionInput : Byte
  coinSub : Byte
  driverOutput : Byte
  coinAdd : Byte
  namco : Byte
  reset : Byte
  setAddress : Byte
  deriving DecidableEq, Repr

/-- The JVSC fields of `Cfg` (R9). -/
structure JvCfg where
  siOpReset : Byte
  siOpCommand : Byte
  deviceId : Vector Byte 4
  chJvs : Byte
  chCard : Byte
  chICCard : Byte
  sync : Byte
  mark : Byte
  hdrOrder : HdrOrder
  hostNode : Byte
  statusOk : Byte
  reportOk : Byte
  jop : JopCfg
  coinSlots : Nat
  coinMax : Nat
  deriving DecidableEq, Repr

/-- The sixteen mailbox command codes `MBC_*` of `Cfg` (R9, R121). -/
structure MbcCfg where
  getDIMMSize : Word16
  getStatus : Word16
  accept : Word16
  bind : Word16
  connect : Word16
  inetAddr : Word16
  listen : Word16
  recv : Word16
  send : Word16
  socket : Word16
  select : Word16
  setSockOpt : Word16
  setTimeOuts : Word16
  getLastError : Word16
  modifyMyIPaddr : Word16
  serialInit : Word16
  deriving DecidableEq, Repr

/-- The MBMP fields of `Cfg` (R9). R9 types `INT_LEGACY` and `INT_REVISED` as "flag values" and gives them no width; they are
bytes here, and so is every entry of `int_out` (DESIGN CHOICE, log entry 31). -/
structure MbCfg where
  legacyBase : Nat
  revisedBase : Nat
  cmdOff : Nat
  endian : Endian
  doneOff : Nat
  doneMask : Byte
  intLegacy : Byte
  intRevised : Byte
  mbc : MbcCfg
  deriving DecidableEq, Repr

/-- The configuration record (R9), less its function-valued fields. -/
structure Cfg where
  bm : BmCfg
  jv : JvCfg
  mb : MbCfg
  profile : Profile
  deriving DecidableEq, Repr

/-! ## Values the source fixes (R8) -/

/-- The size of the mailbox record (R8, R50). -/
def mailboxSize : Nat := 0x300

/-- The size of an inbound or outbound region (R8, R51). -/
def regionSize : Nat := 0x20

/-- The size of the IC-card page memory, 2 KiB (R8, R48, R70). -/
def iccSize : Nat := 2048

/-- The size of the magnetic-card buffer (R8, R47). -/
def cardBufferSize : Nat := 0xD0

/-- The argument `J.Reset` asks for (R246). -/
def resetMagic : Byte := 0xD9

/-! ## OPEN parameters: constants without a body (log entry 3) -/

/-- `SERIAL_ID` (D3, OPEN). -/
opaque Config.serialId : Vector Byte 4

/-- `JVS_DEVICE_ID` (D21, OPEN). -/
opaque Config.deviceId : Vector Byte 4

/-- `Profile` (D30, OPEN), its plain-data fields. -/
opaque Config.profile : Profile

/-- `BACKUP_INIT` (D9, OPEN): what a byte of the backup store that nothing has written holds (U4). -/
opaque Config.backupInit : Nat → Byte

/-- The magnetic-card image as loaded from its store, which is keyed by title (R47, R49, R255): title, address. -/
opaque Config.cardInit : Nat → Nat → Byte

/-- The IC-card page memory as loaded from its store, which is keyed by title (R49, R255): title, address. -/
opaque Config.iccInit : Nat → Nat → Byte

/-- `Profile.capabilities` (R45, R235). -/
opaque Config.capabilities : Profile → Bool → List Byte

/-- `Profile.switch_report` (R45, R237): pad, players, bytes per player. -/
opaque Config.switchReport : Profile → PadStatus → Byte → Byte → List Byte

/-- `Profile.analog_report` (R45, R241). -/
opaque Config.analogReport : Profile → PadStatus → Byte → List Byte

/-- `Profile.position_report` (R45, R242). -/
opaque Config.positionReport : Profile → PadStatus → Byte → List Byte

/-- `Profile.coin_trigger` (R45, R239). -/
opaque Config.coinTrigger : Profile → PadStatus → Nat → Bool

/-- `Profile.namco` (R45, R244): `none` is "consumed = truncated", what a profile without the function answers. -/
opaque Config.namco : Profile → List Byte → Option (Nat × List Byte)

/-- `DIMM_SIZE` (D40, OPEN). -/
opaque Config.dimmSize : StorageMedium → Word32

/-- `MbResult` (D41, OPEN): code, inbound region, profile. -/
opaque Config.mbResult : Word16 → List Byte → Profile → Vector Byte 28

/-! ## Legality (U12) and the default -/

/-- The nine BMSC opcode values, in the order of R103. -/
def BmCfg.opcodes (c : BmCfg) : List Byte :=
  [c.opOffsetSet, c.opWrite, c.opRead, c.opDmaSet, c.opIsrRead, c.opIsrWrite, c.opImrRead, c.opImrWrite, c.opLancntWrite]

/-- The fifteen JVS opcode values, in the order of the opcode table. -/
def JopCfg.opcodes (j : JopCfg) : List Byte :=
  [j.boardID, j.commandRev, j.jvRev, j.commRev, j.capabilities, j.switchInput, j.coinInput, j.analogInput, j.positionInput,
    j.coinSub, j.driverOutput, j.coinAdd, j.namco, j.reset, j.setAddress]

/-- The sixteen mailbox command codes, in the order of R121. -/
def MbcCfg.codes (m : MbcCfg) : List Word16 :=
  [m.getDIMMSize, m.getStatus, m.accept, m.bind, m.connect, m.inetAddr, m.listen, m.recv, m.send, m.socket, m.select,
    m.setSockOpt, m.setTimeOuts, m.getLastError, m.modifyMyIPaddr, m.serialInit]

/-- The BMSC side conditions of U12: `BACKUP_SIZE` in 1..65536, opcodes pairwise distinct and none 0x00 (R104), the two
LAN-control patterns different (R185 d). -/
def BmCfg.legal (c : BmCfg) : Bool :=
  decide (0 < c.backupSize) && decide (c.backupSize ≤ 65536) && decide c.opcodes.Nodup && decide ((0 : Byte) ∉ c.opcodes)
    && decide (c.lancntAssert ≠ c.lancntClear)

/-- The MBMP side conditions: windows disjoint and inside the record (R288), and the code and completion byte inside their
regions (R9 "offset in the inbound region", "offset in the outbound region"; DEDUCED, log entry 19). -/
def MbCfg.legal (c : MbCfg) : Bool :=
  decide (c.legacyBase ≤ 0x2C0) && decide (c.revisedBase ≤ 0x2C0)
    && decide (c.legacyBase + 0x40 ≤ c.revisedBase ∨ c.revisedBase + 0x40 ≤ c.legacyBase)
    && decide (c.cmdOff + 2 ≤ regionSize) && decide (c.doneOff < regionSize)

/-- A legal configuration (U12). -/
def Cfg.legal (c : Cfg) : Bool :=
  c.bm.legal && c.mb.legal && decide (c.jv.coinMax ≤ 0x3FFF)

/-- The opcode values of each JVSC and MBMP map are pairwise distinct. The spec asks this of the BMSC opcodes only (R104);
where two values of another map are equal the earlier row of the map is taken, as R202 tests them in order (log entry 19). -/
def Cfg.codesDistinct (c : Cfg) : Bool :=
  decide (c.jv.siOpReset ≠ c.jv.siOpCommand) && decide ([c.jv.chJvs, c.jv.chCard, c.jv.chICCard].Nodup)
    && decide c.jv.jop.opcodes.Nodup && decide c.mb.mbc.codes.Nodup

/-- The two framing bytes can be told apart on the wire: the sync byte is not the escape prefix, nor what follows it in an
escape (R206, R207). The spec asks it of no configuration; its values 0xE0 and 0xD0 meet it, and the statements about whole
frames name it as a premise (log entry 30). -/
def JvCfg.framingSound (v : JvCfg) : Bool := decide (v.sync ≠ v.mark) && decide (v.sync ≠ v.mark - 1)

/-- The default configuration (R9, R103, R110, R111, R117, R121). The OPEN bytes are the opaque constants; the OPEN chunk
opcodes and mailbox codes stand at the values of spec/opcode_table.json (PRESUMED, log entry 4). -/
def Cfg.default : Cfg where
  bm :=
    { opOffsetSet := 0x01, opWrite := 0x02, opRead := 0x03, opDmaSet := 0x05, opIsrRead := 0x82, opIsrWrite := 0x83,
      opImrRead := 0x86, opImrWrite := 0x87, opLancntWrite := 0xFF, serialId := Config.serialId, idleByte := 0xFF,
      ackByte := 0x01, unhandledByte := 0xFF, checkFn := .reduction, backupSize := 65536, irqPollLimit := 12,
      lancntAssert := (0x00, 0x00), lancntClear := (0x02, 0x01), isrLan := 0x02, bitOrder := .msbFirst }
  jv :=
    { siOpReset := 0x00, siOpCommand := 0x70, deviceId := Config.deviceId, chJvs := 0x40, chCard := 0x31, chICCard := 0x32,
      sync := 0xE0, mark := 0xD0, hdrOrder := .lenNode, hostNode := 0x00, statusOk := 0x01, reportOk := 0x01,
      jop :=
        { boardID := 0x10, commandRev := 0x11, jvRev := 0x12, commRev := 0x13, capabilities := 0x14, switchInput := 0x20,
          coinInput := 0x21, analogInput := 0x22, positionInput := 0x25, coinSub := 0x30, driverOutput := 0x32,
          coinAdd := 0x35, namco := 0x70, reset := 0xF0, setAddress := 0xF1 },
      coinSlots := 2, coinMax := 0x3FFF }
  mb :=
    { legacyBase := 0x000, revisedBase := 0x200, cmdOff := 0x02, endian := .little, doneOff := 0x03, doneMask := 0x80,
      intLegacy := 0x10, intRevised := 0x04,
      mbc :=
        { getDIMMSize := 0x0001, getStatus := 0x0100, accept := 0x0401, bind := 0x0402, connect := 0x0404,
          inetAddr := 0x0406, listen := 0x0408, recv := 0x0409, send := 0x040A, socket := 0x040B, select := 0x040C,
          setSockOpt := 0x040E, setTimeOuts := 0x0410, getLastError := 0x0411, modifyMyIPaddr := 0x0415,
          serialInit := 0x0601 } }
  profile := Config.profile

end Sys2Proof
end

