-- ==== Sys2Proof/Syntax.lean ====
section
/-! DEFINITION. The instructions: one constructor of `Instr` per row of spec/opcode_table.json (R3: an instruction is a
command of a block's protocol or a bus-level operation), and `Request`, the form in which an outside agent presents one. -/

namespace Sys2Proof

/-- The two mailbox windows (R51). -/
inductive Window where
  | legacy
  | revised
  deriving DecidableEq, Repr

/-- The three blocks; the operand of `reset(block)` (R330). -/
inductive Block where
  | bmsc
  | jvsc
  | mbmp
  deriving DecidableEq, Repr

/-- The two forms of the bus operation `transferByte`: a whole byte slot (R132), or one clock period of its bit-serial form
(R105, R146). -/
inductive SlotInput where
  | byte (b : Byte)
  | bit (sdi : Bool)
  deriving DecidableEq, Repr

/-- The BMSC command kinds of R103. -/
inductive BmOp where
  | offsetSet
  | write
  | read
  | dmaSet
  | isrRead
  | isrWrite
  | imrRead
  | imrWrite
  | lancntWrite
  deriving DecidableEq, Repr

/-- The chunk kinds of R111. -/
inductive ChOp where
  | jvs
  | card
  | icCard
  deriving DecidableEq, Repr

/-- The JVS opcode kinds of R117. -/
inductive Jop where
  | boardID
  | commandRev
  | jvRev
  | commRev
  | capabilities
  | switchInput
  | coinInput
  | analogInput
  | positionInput
  | coinSub
  | driverOutput
  | coinAdd
  | namco
  | reset
  | setAddress
  deriving DecidableEq, Repr

/-- The mailbox command kinds of R121. -/
inductive MbOp where
  | getDIMMSize
  | getStatus
  | accept
  | bind
  | connect
  | inetAddr
  | listen
  | recv
  | send
  | socket
  | select
  | setSockOpt
  | setTimeOuts
  | getLastError
  | modifyMyIPaddr
  | serialInit
  deriving DecidableEq, Repr

/-- The instructions. In a BMSC command, `chk` is the byte of slot 3, the `u` operands are the parameter bytes the command
ignores, and `stream` is the number of slots clocked after slot 4 (R124). In a JVS opcode, `node` is the node byte of the
frame that carries it. In a mailbox command, `rest` is the inbound region without the two bytes of the command code. -/
inductive Instr where
  -- BMSC command frames (R103)
  | backupOffsetSet (off16 : Word16) (chk : Byte) (stream : Nat)
  | backupWrite (d u2 chk : Byte) (stream : Nat)
  | backupRead (u1 u2 chk : Byte) (stream : Nat)
  | dmaOffsetLengthSet (off16 : Word16) (len8 : Byte) (stream : Nat)
  | readISR (u1 u2 chk : Byte) (stream : Nat)
  | writeISR (v u2 chk : Byte) (stream : Nat)
  | readIMR (u1 u2 chk : Byte) (stream : Nat)
  | writeIMR (v u2 chk : Byte) (stream : Nat)
  | writeLANCNT (a b chk : Byte) (stream : Nat)
  | serialID (u2 u3 : Byte) (stream : Nat)
  | bmUnhandled (op p1 p2 chk : Byte) (stream : Nat)
  -- bus operations
  | setChipSelect (level : Bool)
  | transferByte (io : SlotInput)
  | dmaWrite (addr len : Nat) (gm : List Host.Cell)
  | dmaRead (addr len : Nat) (gm : List Host.Cell)
  | pollInterrupt
  | reset (block : Block)
  | runBuffer (bytes : List Byte) (pad : PadStatus)
  -- serial-bus opcodes (R110)
  | siReset (rest : List Byte)
  | siCommand (chunks : List Byte) (pad : PadStatus)
  | siUnhandled (op : Byte) (rest : List Byte)
  -- chunk opcodes (R111)
  | chJVS (d : List Byte) (pad : PadStatus)
  | chCard (d : List Byte)
  | chICCard (d : List Byte)
  | chUnhandled (cop : Byte) (d : List Byte)
  -- JVS opcodes (R117)
  | jBoardID (node : Byte)
  | jCommandRev (node : Byte)
  | jJVRev (node : Byte)
  | jCommRev (node : Byte)
  | jCapabilities (node : Byte)
  | jSwitchInput (node players bpp : Byte) (pad : PadStatus)
  | jCoinInput (node slots : Byte) (pad : PadStatus)
  | jAnalogInput (node ch : Byte) (pad : PadStatus)
  | jPositionInput (node ch : Byte) (pad : PadStatus)
  | jCoinSub (node slot hi lo : Byte)
  | jDriverOutput (node : Byte) (d : List Byte)
  | jCoinAdd (node slot hi lo : Byte)
  | jNAMCO (node : Byte) (tail : List Byte)
  | jReset (node magic : Byte)
  | jSetAddress (node addr : Byte)
  | jUnhandled (node jop : Byte) (tail : List Byte)
  -- mailbox operations and commands (R270, R121)
  | mbWrite (w : Window) (off : Nat) (bytes : List Byte)
  | mbRead (w : Window) (off n : Nat)
  | mbExecute (w : Window) (sock : Option (Vector Byte 28))
  | mbGetDIMMSize (w : Window) (rest : List Byte)
  | mbGetStatus (w : Window) (rest : List Byte)
  | mbAccept (w : Window) (rest : List Byte) (sock : Option (Vector Byte 28))
  | mbBind (w : Window) (rest : List Byte) (sock : Option (Vector Byte 28))
  | mbConnect (w : Window) (rest : List Byte) (sock : Option (Vector Byte 28))
  | mbInetAddr (w : Window) (rest : List Byte) (sock : Option (Vector Byte 28))
  | mbListen (w : Window) (rest : List Byte) (sock : Option (Vector Byte 28))
  | mbRecv (w : Window) (rest : List Byte) (sock : Option (Vector Byte 28))
  | mbSend (w : Window) (rest : List Byte) (sock : Option (Vector Byte 28))
  | mbSocket (w : Window) (rest : List Byte) (sock : Option (Vector Byte 28))
  | mbSelect (w : Window) (rest : List Byte) (sock : Option (Vector Byte 28))
  | mbSetSockOpt (w : Window) (rest : List Byte) (sock : Option (Vector Byte 28))
  | mbSetTimeOuts (w : Window) (rest : List Byte) (sock : Option (Vector Byte 28))
  | mbGetLastError (w : Window) (rest : List Byte) (sock : Option (Vector Byte 28))
  | mbModifyMyIPaddr (w : Window) (rest : List Byte) (sock : Option (Vector Byte 28))
  | mbSerialInit (w : Window) (rest : List Byte)
  | mbUnhandled (w : Window) (code : Word16) (rest : List Byte)
  deriving DecidableEq, Repr

/-- What an outside agent presents to the machine: a bus-level operation with its operands (they have no opcode, R130), or
the bytes of one command in one of the formats of spec/30_encoding.md (log entries 1 and 5). -/
inductive Request where
  | setChipSelect (level : Bool)
  | transferByte (io : SlotInput)
  | dmaWrite (addr len : Nat) (gm : List Host.Cell)
  | dmaRead (addr len : Nat) (gm : List Host.Cell)
  | pollInterrupt
  | reset (block : Block)
  | runBuffer (bytes : List Byte) (pad : PadStatus)
  | mbWrite (w : Window) (off : Nat) (bytes : List Byte)
  | mbRead (w : Window) (off n : Nat)
  | mbExecute (w : Window) (sock : Option (Vector Byte 28))
  /-- F-BM: the `in` bytes of one transaction (R100). -/
  | frame (bytes : List Byte)
  /-- F-SI: one serial-bus buffer (R110). -/
  | serial (bytes : List Byte) (pad : PadStatus)
  /-- F-CH: one chunk of an SI.Command (R111). -/
  | chunk (bytes : List Byte) (pad : PadStatus)
  /-- F-JP: one opcode group of a frame's payload, with the frame's node (R115). -/
  | payload (node : Byte) (bytes : List Byte) (pad : PadStatus)
  /-- F-MI: the inbound region of a window (R120). -/
  | inbound (w : Window) (bytes : List Byte) (sock : Option (Vector Byte 28))
  deriving DecidableEq, Repr

end Sys2Proof
end

