-- ==== Sys2Proof/Decode.lean ====
section
/-! DEFINITION. Decoding and encoding (spec/30_encoding.md): the opcode maps, the byte-order and byte-stuffing helpers, the
decoder from a request to an instruction, total and rejecting by name, and the encoder after it. -/

namespace Sys2Proof

/-! ## Byte order -/

/-- `a : b`, the high byte first (R10, R75). -/
def hiLo (hi lo : Byte) : Word16 := hi ++ lo

/-- The high byte of a 16-bit quantity. -/
def hiByte (v : Word16) : Byte := v.extractLsb' 8 8

/-- The low byte of a 16-bit quantity. -/
def loByte (v : Word16) : Byte := v.extractLsb' 0 8

/-- The 16-bit field whose bytes at ascending offsets are `b0`, `b1` (R76, R289). -/
def word16 (e : Endian) (b0 b1 : Byte) : Word16 :=
  match e with
  | .little => hiLo b1 b0
  | .big => hiLo b0 b1

/-- The bytes of a 16-bit field at ascending offsets (R76, R289). -/
def bytes16 (e : Endian) (v : Word16) : List Byte :=
  match e with
  | .little => [loByte v, hiByte v]
  | .big => [hiByte v, loByte v]

/-- The 32-bit field whose bytes at ascending offsets are `b0` to `b3` (R76, R289). -/
def word32 (e : Endian) (b0 b1 b2 b3 : Byte) : Word32 :=
  match e with
  | .little => b3 ++ b2 ++ b1 ++ b0
  | .big => b0 ++ b1 ++ b2 ++ b3

/-- The bytes of a 32-bit field at ascending offsets (R76, R281, R289). -/
def bytes32 (e : Endian) (v : Word32) : List Byte :=
  match e with
  | .little => [v.extractLsb' 0 8, v.extractLsb' 8 8, v.extractLsb' 16 8, v.extractLsb' 24 8]
  | .big => [v.extractLsb' 24 8, v.extractLsb' 16 8, v.extractLsb' 8 8, v.extractLsb' 0 8]

/-! ## Opcode maps -/

/-- The BMSC opcode map (R103). -/
def bmTable (c : Cfg) : List (Byte × BmOp) :=
  [(c.bm.opOffsetSet, .offsetSet), (c.bm.opWrite, .write), (c.bm.opRead, .read), (c.bm.opDmaSet, .dmaSet),
    (c.bm.opIsrRead, .isrRead), (c.bm.opIsrWrite, .isrWrite), (c.bm.opImrRead, .imrRead), (c.bm.opImrWrite, .imrWrite),
    (c.bm.opLancntWrite, .lancntWrite)]

/-- The command an opcode byte selects, outside ID mode (R104). -/
def bmOpOf (c : Cfg) (b : Byte) : Option BmOp := (bmTable c).lookup b

/-- The chunk opcode map, in the order R202 tests it (R111). -/
def chTable (c : Cfg) : List (Byte × ChOp) :=
  [(c.jv.chJvs, .jvs), (c.jv.chCard, .card), (c.jv.chICCard, .icCard)]

/-- The chunk kind a chunk opcode selects (R111). -/
def chOpOf (c : Cfg) (b : Byte) : Option ChOp := (chTable c).lookup b

/-- The JVS opcode map (R117). -/
def jopTable (c : Cfg) : List (Byte × Jop) :=
  [(c.jv.jop.boardID, .boardID), (c.jv.jop.commandRev, .commandRev), (c.jv.jop.jvRev, .jvRev), (c.jv.jop.commRev, .commRev),
    (c.jv.jop.capabilities, .capabilities), (c.jv.jop.switchInput, .switchInput), (c.jv.jop.coinInput, .coinInput),
    (c.jv.jop.analogInput, .analogInput), (c.jv.jop.positionInput, .positionInput), (c.jv.jop.coinSub, .coinSub),
    (c.jv.jop.driverOutput, .driverOutput), (c.jv.jop.coinAdd, .coinAdd), (c.jv.jop.namco, .namco), (c.jv.jop.reset, .reset),
    (c.jv.jop.setAddress, .setAddress)]

/-- The JVS opcode a payload byte selects (R117). -/
def jopOf (c : Cfg) (b : Byte) : Option Jop := (jopTable c).lookup b

/-- The mailbox command map (R121). -/
def mbTable (c : Cfg) : List (Word16 × MbOp) :=
  [(c.mb.mbc.getDIMMSize, .getDIMMSize), (c.mb.mbc.getStatus, .getStatus), (c.mb.mbc.accept, .accept), (c.mb.mbc.bind, .bind),
    (c.mb.mbc.connect, .connect), (c.mb.mbc.inetAddr, .inetAddr), (c.mb.mbc.listen, .listen), (c.mb.mbc.recv, .recv),
    (c.mb.mbc.send, .send), (c.mb.mbc.socket, .socket), (c.mb.mbc.select, .select), (c.mb.mbc.setSockOpt, .setSockOpt),
    (c.mb.mbc.setTimeOuts, .setTimeOuts), (c.mb.mbc.getLastError, .getLastError),
    (c.mb.mbc.modifyMyIPaddr, .modifyMyIPaddr), (c.mb.mbc.serialInit, .serialInit)]

/-- The mailbox command a code selects (R121). R280 and R284 say of 0x0000 that it is not in the map, and no side condition keeps
a configuration from giving it to a command: there the map's row wins (DESIGN CHOICE, log entry 29). -/
def mbOpOf (c : Cfg) (code : Word16) : Option MbOp := (mbTable c).lookup code

/-! ## Byte stuffing and command frames -/

/-- The wire form of one byte after the sync byte (R114). The rules that write 0xE0 and 0xD0 here (R114, R212, R215, R216) give
the values of `JVS_SYNC` and `JVS_MARK`; the model reads them as those fields (DEDUCED, log entry 30). Where such a field is
0x00, "value minus 1" is taken modulo 256, 0xFF, the inverse of R207's "plus 1" (DESIGN CHOICE, log entry 30). -/
def stuffByte (v : JvCfg) (b : Byte) : List Byte := if b = v.sync ∨ b = v.mark then [v.mark, b - 1] else [b]

/-- `Stuff` (R212). -/
def stuff (v : JvCfg) (u : List Byte) : List Byte := u.flatMap (stuffByte v)

/-- `Destuff` from a given escape state: after a mark the next byte stands for its value plus 1 modulo 256 (R207, R212). -/
def destuffFrom (v : JvCfg) (esc : Bool) : List Byte → List Byte
  | [] => []
  | b :: w =>
    if esc then (b + 1) :: destuffFrom v false w
    else if b = v.mark then destuffFrom v true w
    else b :: destuffFrom v false w

/-- `Destuff` (R212). -/
def destuff (v : JvCfg) (w : List Byte) : List Byte := destuffFrom v false w

/-- The JVS checksum: `len`, `node` and the payload summed modulo 256 (R113). -/
def jvsSum (len node : Byte) (p : List Byte) : Byte := p.foldl (· + ·) (len + node)

/-- The two header bytes after the sync byte, in the order `JVS_HDR_ORDER` (R112). -/
def jvsHeader (o : HdrOrder) (len node : Byte) : List Byte :=
  match o with
  | .lenNode => [len, node]
  | .nodeLen => [node, len]

/-- The wire bytes of a command frame: every byte after the sync byte is stuffed, the header included (R112 to R114). -/
def jvsFrame (v : JvCfg) (node : Byte) (p : List Byte) : List Byte :=
  let len := byteOf (p.length + 1)
  v.sync :: stuff v (jvsHeader v.hdrOrder len node ++ p ++ [jvsSum len node p])

/-- A payload that one frame can carry (`len` is one byte, R112) in one chunk (`n` is one byte, R111). -/
def jvsFits (v : JvCfg) (node : Byte) (p : List Byte) : Bool :=
  decide (p.length + 1 ≤ 255) && decide ((jvsFrame v node p).length ≤ 255)

/-- A chunk `[cop, n, d[0], ..., d[n-1]]` (R111). -/
def chunkBytes (cop : Byte) (d : List Byte) : List Byte := cop :: byteOf d.length :: d

/-! ## Opcode groups of a JVS payload -/

/-- `ArgCount` (R236) of an opcode whose following payload bytes are `tail`; `none` is "truncated". -/
def argCount (c : Cfg) (op : Jop) (tail : List Byte) : Option Nat :=
  match op with
  | .boardID => some 0
  | .commandRev => some 0
  | .jvRev => some 0
  | .commRev => some 0
  | .capabilities => some 0
  | .switchInput => some 2
  | .coinInput => some 1
  | .analogInput => some 1
  | .positionInput => some 1
  | .coinSub => some 3
  | .driverOutput => tail.head?.map fun n => 1 + n.toNat
  | .coinAdd => some 3
  | .namco => (Config.namco c.profile tail).map (·.1)
  | .reset => some 1
  | .setAddress => some 1

/-- The instruction of an opcode whose arguments are `args`; `tail` is everything after the opcode byte, which is what the
vendor opcode hands to the profile (R244). -/
def jopInstr (op : Jop) (node : Byte) (args tail : List Byte) (pad : PadStatus) : Instr :=
  match op with
  | .boardID => .jBoardID node
  | .commandRev => .jCommandRev node
  | .jvRev => .jJVRev node
  | .commRev => .jCommRev node
  | .capabilities => .jCapabilities node
  | .switchInput => .jSwitchInput node (args.getD 0 0) (args.getD 1 0) pad
  | .coinInput => .jCoinInput node (args.getD 0 0) pad
  | .analogInput => .jAnalogInput node (args.getD 0 0) pad
  | .positionInput => .jPositionInput node (args.getD 0 0) pad
  | .coinSub => .jCoinSub node (args.getD 0 0) (args.getD 1 0) (args.getD 2 0)
  | .driverOutput => .jDriverOutput node (args.drop 1)
  | .coinAdd => .jCoinAdd node (args.getD 0 0) (args.getD 1 0) (args.getD 2 0)
  | .namco => .jNAMCO node tail
  | .reset => .jReset node (args.getD 0 0)
  | .setAddress => .jSetAddress node (args.getD 0 0)

/-- What stands at the head of a JVS payload (R230). -/
inductive Group where
  /-- An opcode outside the map; the rest cannot be parsed (R248). -/
  | unhandled (i : Instr)
  /-- An opcode of the map with fewer argument bytes than it asks for (R236). -/
  | truncated (jop : Byte)
  /-- An opcode with its arguments, and the payload after them. -/
  | op (i : Instr) (rest : List Byte)
  deriving DecidableEq, Repr

/-- The opcode group whose opcode byte is `jop`, `tail` the payload after it (R230, R236, R248). -/
def decodeGroup (c : Cfg) (node : Byte) (pad : PadStatus) (jop : Byte) (tail : List Byte) : Group :=
  match jopOf c jop with
  | none => .unhandled (.jUnhandled node jop tail)
  | some op =>
    match argCount c op tail with
    | none => .truncated jop
    | some need =>
      if tail.length < need then .truncated jop else .op (jopInstr op node (tail.take need) tail pad) (tail.drop need)

/-! ## The decoder -/

/-- Why a request is no instruction. -/
inductive DecodeError where
  /-- A transaction of fewer than five byte slots executes no command (R143, R340). -/
  | shortFrame
  /-- A serial-bus buffer with no opcode byte. -/
  | emptyBuffer
  /-- A chunk without its opcode or its count. -/
  | shortChunk
  /-- A chunk whose count is not the number of its data bytes. -/
  | chunkLength
  /-- A JVS payload with no opcode byte. -/
  | emptyPayload
  /-- A JVS opcode with fewer argument bytes than it asks for. -/
  | argsTruncated (jop : Byte)
  /-- Bytes after the one opcode group of the request. -/
  | trailingBytes
  /-- A payload that one frame in one chunk cannot carry. -/
  | frameTooLong
  /-- An inbound region that is not 0x20 bytes. -/
  | inboundSize
  deriving DecidableEq, Repr

/-- The command of a frame, decoded in the order of R104: ID mode, the nine opcodes, otherwise unhandled. -/
def decodeFrame (c : Cfg) (b0 b1 b2 b3 : Byte) (stream : Nat) : Instr :=
  if b0 = 0 ∧ b1 = 0 then .serialID b2 b3 stream
  else
    match bmOpOf c b0 with
    | some .offsetSet => .backupOffsetSet (hiLo b1 b2) b3 stream
    | some .write => .backupWrite b1 b2 b3 stream
    | some .read => .backupRead b1 b2 b3 stream
    | some .dmaSet => .dmaOffsetLengthSet (hiLo b1 b2) b3 stream
    | some .isrRead => .readISR b1 b2 b3 stream
    | some .isrWrite => .writeISR b1 b2 b3 stream
    | some .imrRead => .readIMR b1 b2 b3 stream
    | some .imrWrite => .writeIMR b1 b2 b3 stream
    | some .lancntWrite => .writeLANCNT b1 b2 b3 stream
    | none => .bmUnhandled b0 b1 b2 b3 stream

/-- The serial-bus opcode of a buffer (R110, R200). -/
def decodeSerial (c : Cfg) (op : Byte) (rest : List Byte) (pad : PadStatus) : Instr :=
  if op = c.jv.siOpReset then .siReset rest
  else if op = c.jv.siOpCommand then .siCommand rest pad
  else .siUnhandled op rest

/-- The chunk opcode of a chunk (R111, R202). -/
def decodeChunk (c : Cfg) (cop : Byte) (d : List Byte) (pad : PadStatus) : Instr :=
  match chOpOf c cop with
  | some .jvs => .chJVS d pad
  | some .card => .chCard d
  | some .icCard => .chICCard d
  | none => .chUnhandled cop d

/-- The one opcode group of a payload request. -/
def decodePayload (c : Cfg) (node jop : Byte) (tail : List Byte) (pad : PadStatus) : Except DecodeError Instr :=
  match decodeGroup c node pad jop tail with
  | .unhandled i => .ok i
  | .truncated _ => if jopOf c jop = some .namco then .ok (.jNAMCO node tail) else .error (.argsTruncated jop)
  | .op i rest => if rest = [] then .ok i else .error .trailingBytes

/-- The command code of an inbound region (R120, R275). -/
def codeOf (c : Cfg) (inb : List Byte) : Word16 :=
  word16 c.mb.endian (inb.getD c.mb.cmdOff 0) (inb.getD (c.mb.cmdOff + 1) 0)

/-- An inbound region without the bytes of its command code. -/
def withoutCode (c : Cfg) (inb : List Byte) : List Byte := inb.take c.mb.cmdOff ++ inb.drop (c.mb.cmdOff + 2)

/-- The mailbox command of a code (R121, R284). -/
def decodeMailbox (c : Cfg) (w : Window) (code : Word16) (rest : List Byte) (sock : Option (Vector Byte 28)) : Instr :=
  match mbOpOf c code with
  | some .getDIMMSize => .mbGetDIMMSize w rest
  | some .getStatus => .mbGetStatus w rest
  | some .accept => .mbAccept w rest sock
  | some .bind => .mbBind w rest sock
  | some .connect => .mbConnect w rest sock
  | some .inetAddr => .mbInetAddr w rest sock
  | some .listen => .mbListen w rest sock
  | some .recv => .mbRecv w rest sock
  | some .send => .mbSend w rest sock
  | some .socket => .mbSocket w rest sock
  | some .select => .mbSelect w rest sock
  | some .setSockOpt => .mbSetSockOpt w rest sock
  | some .setTimeOuts => .mbSetTimeOuts w rest sock
  | some .getLastError => .mbGetLastError w rest sock
  | some .modifyMyIPaddr => .mbModifyMyIPaddr w rest sock
  | some .serialInit => .mbSerialInit w rest
  | none => .mbUnhandled w code rest

/-- The instruction of a request; total, and rejecting by name what is none. -/
def decode (c : Cfg) (r : Request) : Except DecodeError Instr :=
  match r with
  | .setChipSelect level => .ok (.setChipSelect level)
  | .transferByte io => .ok (.transferByte io)
  | .dmaWrite addr len gm => .ok (.dmaWrite addr len gm)
  | .dmaRead addr len gm => .ok (.dmaRead addr len gm)
  | .pollInterrupt => .ok .pollInterrupt
  | .reset block => .ok (.reset block)
  | .runBuffer bytes pad => .ok (.runBuffer bytes pad)
  | .mbWrite w off bytes => .ok (.mbWrite w off bytes)
  | .mbRead w off n => .ok (.mbRead w off n)
  | .mbExecute w sock => .ok (.mbExecute w sock)
  | .frame (b0 :: b1 :: b2 :: b3 :: _ :: more) => .ok (decodeFrame c b0 b1 b2 b3 more.length)
  | .frame _ => .error .shortFrame
  | .serial (op :: rest) pad => .ok (decodeSerial c op rest pad)
  | .serial [] _ => .error .emptyBuffer
  | .chunk (cop :: n :: d) pad => if d.length = n.toNat then .ok (decodeChunk c cop d pad) else .error .chunkLength
  | .chunk _ _ => .error .shortChunk
  | .payload node (jop :: tail) pad =>
    if jvsFits c.jv node (jop :: tail) then decodePayload c node jop tail pad else .error .frameTooLong
  | .payload _ [] _ => .error .emptyPayload
  | .inbound w bytes sock =>
    if bytes.length = regionSize then .ok (decodeMailbox c w (codeOf c bytes) (withoutCode c bytes) sock)
    else .error .inboundSize

/-! ## The encoder -/

/-- The sample named by a request whose instruction reads none. -/
def noPad : PadStatus := ⟨0⟩

/-- The dummy bytes of slots 4 and on that a mnemonic sends (R124, D44). -/
def dummySlots (stream : Nat) : List Byte := List.replicate (stream + 1) 0

/-- The four frame bytes and the dummy slots of a transaction (R100, R124). -/
def frameBytes (b0 b1 b2 b3 : Byte) (stream : Nat) : List Byte := b0 :: b1 :: b2 :: b3 :: dummySlots stream

/-- The inbound region whose command code is `code` and whose other bytes are `rest` (R120). -/
def inboundBytes (c : Cfg) (code : Word16) (rest : List Byte) : List Byte :=
  rest.take c.mb.cmdOff ++ bytes16 c.mb.endian code ++ rest.drop c.mb.cmdOff

/-- The opcode group of a JVS instruction (F-JP, R115, R117); nothing for the instructions of other formats. -/
def payloadBytes (c : Cfg) (i : Instr) : List Byte :=
  match i with
  | .jBoardID _ => [c.jv.jop.boardID]
  | .jCommandRev _ => [c.jv.jop.commandRev]
  | .jJVRev _ => [c.jv.jop.jvRev]
  | .jCommRev _ => [c.jv.jop.commRev]
  | .jCapabilities _ => [c.jv.jop.capabilities]
  | .jSwitchInput _ players bpp _ => [c.jv.jop.switchInput, players, bpp]
  | .jCoinInput _ slots _ => [c.jv.jop.coinInput, slots]
  | .jAnalogInput _ ch _ => [c.jv.jop.analogInput, ch]
  | .jPositionInput _ ch _ => [c.jv.jop.positionInput, ch]
  | .jCoinSub _ slot hi lo => [c.jv.jop.coinSub, slot, hi, lo]
  | .jDriverOutput _ d => c.jv.jop.driverOutput :: byteOf d.length :: d
  | .jCoinAdd _ slot hi lo => [c.jv.jop.coinAdd, slot, hi, lo]
  | .jNAMCO _ tail => c.jv.jop.namco :: tail
  | .jReset _ magic => [c.jv.jop.reset, magic]
  | .jSetAddress _ addr => [c.jv.jop.setAddress, addr]
  | .jUnhandled _ jop tail => jop :: tail
  | _ => []

/-- The request that presents an instruction, written from the same formats. -/
def encode (c : Cfg) (i : Instr) : Request :=
  match i with
  | .backupOffsetSet off16 chk stream => .frame (frameBytes c.bm.opOffsetSet (hiByte off16) (loByte off16) chk stream)
  | .backupWrite d u2 chk stream => .frame (frameBytes c.bm.opWrite d u2 chk stream)
  | .backupRead u1 u2 chk stream => .frame (frameBytes c.bm.opRead u1 u2 chk stream)
  | .dmaOffsetLengthSet off16 len8 stream => .frame (frameBytes c.bm.opDmaSet (hiByte off16) (loByte off16) len8 stream)
  | .readISR u1 u2 chk stream => .frame (frameBytes c.bm.opIsrRead u1 u2 chk stream)
  | .writeISR v u2 chk stream => .frame (frameBytes c.bm.opIsrWrite v u2 chk stream)
  | .readIMR u1 u2 chk stream => .frame (frameBytes c.bm.opImrRead u1 u2 chk stream)
  | .writeIMR v u2 chk stream => .frame (frameBytes c.bm.opImrWrite v u2 chk stream)
  | .writeLANCNT a b chk stream => .frame (frameBytes c.bm.opLancntWrite a b chk stream)
  | .serialID u2 u3 stream => .frame (frameBytes 0 0 u2 u3 stream)
  | .bmUnhandled op p1 p2 chk stream => .frame (frameBytes op p1 p2 chk stream)
  | .setChipSelect level => .setChipSelect level
  | .transferByte io => .transferByte io
  | .dmaWrite addr len gm => .dmaWrite addr len gm
  | .dmaRead addr len gm => .dmaRead addr len gm
  | .pollInterrupt => .pollInterrupt
  | .reset block => .reset block
  | .runBuffer bytes pad => .runBuffer bytes pad
  | .siReset rest => .serial (c.jv.siOpReset :: rest) noPad
  | .siCommand chunks pad => .serial (c.jv.siOpCommand :: chunks) pad
  | .siUnhandled op rest => .serial (op :: rest) noPad
  | .chJVS d pad => .chunk (chunkBytes c.jv.chJvs d) pad
  | .chCard d => .chunk (chunkBytes c.jv.chCard d) noPad
  | .chICCard d => .chunk (chunkBytes c.jv.chICCard d) noPad
  | .chUnhandled cop d => .chunk (chunkBytes cop d) noPad
  | .jBoardID node => .payload node (payloadBytes c (.jBoardID node)) noPad
  | .jCommandRev node => .payload node (payloadBytes c (.jCommandRev node)) noPad
  | .jJVRev node => .payload node (payloadBytes c (.jJVRev node)) noPad
  | .jCommRev node => .payload node (payloadBytes c (.jCommRev node)) noPad
  | .jCapabilities node => .payload node (payloadBytes c (.jCapabilities node)) noPad
  | .jSwitchInput node players bpp pad => .payload node (payloadBytes c (.jSwitchInput node players bpp pad)) pad
  | .jCoinInput node slots pad => .payload node (payloadBytes c (.jCoinInput node slots pad)) pad
  | .jAnalogInput node ch pad => .payload node (payloadBytes c (.jAnalogInput node ch pad)) pad
  | .jPositionInput node ch pad => .payload node (payloadBytes c (.jPositionInput node ch pad)) pad
  | .jCoinSub node slot hi lo => .payload node (payloadBytes c (.jCoinSub node slot hi lo)) noPad
  | .jDriverOutput node d => .payload node (payloadBytes c (.jDriverOutput node d)) noPad
  | .jCoinAdd node slot hi lo => .payload node (payloadBytes c (.jCoinAdd node slot hi lo)) noPad
  | .jNAMCO node tail => .payload node (payloadBytes c (.jNAMCO node tail)) noPad
  | .jReset node magic => .payload node (payloadBytes c (.jReset node magic)) noPad
  | .jSetAddress node addr => .payload node (payloadBytes c (.jSetAddress node addr)) noPad
  | .jUnhandled node jop tail => .payload node (payloadBytes c (.jUnhandled node jop tail)) noPad
  | .mbWrite w off bytes => .mbWrite w off bytes
  | .mbRead w off n => .mbRead w off n
  | .mbExecute w sock => .mbExecute w sock
  | .mbGetDIMMSize w rest => .inbound w (inboundBytes c c.mb.mbc.getDIMMSize rest) none
  | .mbGetStatus w rest => .inbound w (inboundBytes c c.mb.mbc.getStatus rest) none
  | .mbAccept w rest sock => .inbound w (inboundBytes c c.mb.mbc.accept rest) sock
  | .mbBind w rest sock => .inbound w (inboundBytes c c.mb.mbc.bind rest) sock
  | .mbConnect w rest sock => .inbound w (inboundBytes c c.mb.mbc.connect rest) sock
  | .mbInetAddr w rest sock => .inbound w (inboundBytes c c.mb.mbc.inetAddr rest) sock
  | .mbListen w rest sock => .inbound w (inboundBytes c c.mb.mbc.listen rest) sock
  | .mbRecv w rest sock => .inbound w (inboundBytes c c.mb.mbc.recv rest) sock
  | .mbSend w rest sock => .inbound w (inboundBytes c c.mb.mbc.send rest) sock
  | .mbSocket w rest sock => .inbound w (inboundBytes c c.mb.mbc.socket rest) sock
  | .mbSelect w rest sock => .inbound w (inboundBytes c c.mb.mbc.select rest) sock
  | .mbSetSockOpt w rest sock => .inbound w (inboundBytes c c.mb.mbc.setSockOpt rest) sock
  | .mbSetTimeOuts w rest sock => .inbound w (inboundBytes c c.mb.mbc.setTimeOuts rest) sock
  | .mbGetLastError w rest sock => .inbound w (inboundBytes c c.mb.mbc.getLastError rest) sock
  | .mbModifyMyIPaddr w rest sock => .inbound w (inboundBytes c c.mb.mbc.modifyMyIPaddr rest) sock
  | .mbSerialInit w rest => .inbound w (inboundBytes c c.mb.mbc.serialInit rest) none
  | .mbUnhandled w code rest => .inbound w (inboundBytes c code rest) none

/-! ## The opcode table's words -/

/-- Byte `k` of a table word, byte 0 its least significant. -/
def tableByte (w k : Nat) : Byte := byteOf (w / 256 ^ k)

/-- The zero argument bytes that follow an opcode of the JVS map in a table word's request. -/
def zeroArgs (op : Jop) : List Byte :=
  match op with
  | .switchInput => [0, 0]
  | .coinInput => [0]
  | .analogInput => [0]
  | .positionInput => [0]
  | .coinSub => [0, 0, 0]
  | .driverOutput => [0]
  | .coinAdd => [0, 0, 0]
  | .reset => [0]
  | .setAddress => [0]
  | .boardID => []
  | .commandRev => []
  | .jvRev => []
  | .commRev => []
  | .capabilities => []
  | .namco => []

/-- The request that a word of spec/opcode_table.json stands for, every further byte 0. A table word does not say its
format: a 16-bit word is a mailbox code, but 0x0000, which is the SerialID row; an 8-bit word is taken in the first format
whose map holds it, F-BM, F-SI, F-JP, F-CH (0x70 and 0x32 stand in two maps: log entry 15); any other width is the bytes of
a BMSC frame. -/
def tableRequest (c : Cfg) (nbits w : Nat) : Request :=
  let b0 := tableByte w 0
  if nbits = 16 then
    if w = 0 then .frame (frameBytes 0 0 0 0 0)
    else .inbound .legacy (inboundBytes c (hiLo (tableByte w 1) b0) (List.replicate 30 0)) none
  else if nbits = 8 then
    match bmOpOf c b0 with
    | some _ => .frame (frameBytes b0 0 0 0 0)
    | none =>
      if b0 = c.jv.siOpReset ∨ b0 = c.jv.siOpCommand then .serial [b0] noPad
      else
        match jopOf c b0 with
        | some op => .payload 0 (b0 :: zeroArgs op) noPad
        | none =>
          match chOpOf c b0 with
          | some _ => .chunk [b0, 0] noPad
          | none => .frame (frameBytes b0 0 0 0 0)
  else .frame (frameBytes b0 (tableByte w 1) (tableByte w 2) (tableByte w 3) 0)

/-- The instruction the decoder reads from a table word, under the configuration after reset. -/
def decodeTableWord (nbits w : Nat) : Option Instr :=
  match decode Cfg.default (tableRequest Cfg.default nbits w) with
  | .ok i => some i
  | .error _ => none

end Sys2Proof
end

