-- ==== Sys2Proof/Machine/State.lean ====
section
/-! DEFINITION. The state of the three blocks (spec/10_state.md), their diagnostic events (spec/60_exceptions.md R302 to
R304), the outcomes' reasons, and the state after reset (R35, R49, R53). Plain data throughout. -/

namespace Sys2Proof.Machine

open Sys2Proof

/-- A byte memory: cells with strictly rising addresses, none equal to what an unlisted address reads as (`Memory.wf`). -/
structure Memory where
  cells : List Host.Cell
  deriving DecidableEq, Repr

/-- The addresses of a cell list strictly rise. -/
def cellsRise : List Host.Cell → Bool
  | [] => true
  | [_] => true
  | (a, _) :: (b, v) :: rest => decide (a < b) && cellsRise ((b, v) :: rest)

/-- The canonical form. `dflt` is what an unlisted address reads as: `some 0` for the mailbox (R50), `none` for the
persistent stores, whose unlisted bytes have no value in the state (log entry 7). -/
def Memory.wf (dflt : Option Byte) (m : Memory) : Bool :=
  cellsRise m.cells && m.cells.all fun x => decide (some x.2 ≠ dflt)

/-! ## Diagnostic events -/

/-- BMSC events (R302). -/
inductive BmEvent where
  | crcMismatch (b0 b1 b2 got want : Byte)
  | bmUnhandled (op : Byte)
  deriving DecidableEq, Repr

/-- `rx_state` (R41). -/
inductive RxState where
  | waitSync
  | hdr0
  | hdr1
  | payload
  | sum
  deriving DecidableEq, Repr

/-- JVSC events (R303). -/
inductive JvEvent where
  | siUnhandled (op : Byte)
  | chunkUnhandled (cop : Byte)
  | chunkTruncated (cop : Byte) (n present : Nat)
  | jvsFrameAborted (st : RxState)
  | jvsFrameTruncated (st : RxState)
  | jvsBadLength
  | jvsSumMismatch (got want : Byte)
  | jvsReplyTooLong (cnt : Nat)
  | replyChunkOverflow (cop : Byte) (size : Nat)
  | jvsUnhandled (jop : Byte)
  | jvsArgsTruncated (jop : Byte)
  | jvsBadSlot (slot : Byte)
  | jvsBadResetMagic (m : Byte)
  | cardRefused (d : List Byte)
  | icCardRefused (d : List Byte)
  deriving DecidableEq, Repr

/-- MBMP events (R304). -/
inductive MbEvent where
  | mbBounds (w : Window) (off n : Nat)
  | mbUnhandled (code : Word16)
  | mbSocketStub (code : Word16)
  deriving DecidableEq, Repr

/-! ## The blocks -/

/-- The BMSC record (R20 to R34). -/
structure Bmsc where
  cs : Bool
  pos : Nat
  x0 : Byte
  x1 : Byte
  x2 : Byte
  x3 : Byte
  cursor : Word16
  dmaOff : Word16
  dmaLen : Byte
  isr : Byte
  imr : Byte
  irqPending : Bool
  irqCount : Nat
  rxSr : Byte
  txSr : Byte
  bitcnt : BitVec 3
  bk : Memory
  log : List BmEvent
  /-- The calls `GM.write` made, oldest first (log entry 8). -/
  guestOut : List Host.Cell
  deriving DecidableEq, Repr

/-- The receiver's working state (R41, R205). -/
structure Rx where
  state : RxState
  esc : Bool
  h0 : Byte
  h1 : Byte
  len : Byte
  node : Byte
  sum : Byte
  buf : List Byte
  left : Nat
  deriving DecidableEq, Repr

/-- The receiver at the start of a chunk (R41, R204). -/
def Rx.start : Rx where
  state := .waitSync
  esc := false
  h0 := 0
  h1 := 0
  len := 0
  node := 0
  sum := 0
  buf := []
  left := 0

/-- The encoder's working state (R214). -/
structure Enc where
  out : List Byte
  sum : Byte
  cnt : Nat
  lenIdx : Nat
  deriving DecidableEq, Repr

/-- The three stages of the magnetic-card receive state (R250, R252). -/
inductive CardStage where
  | accumulate
  | recognise
  | execute
  deriving DecidableEq, Repr

/-- `card : CardState` (R47). -/
structure CardState where
  buf : Vector Byte cardBufferSize
  rdOff : Nat
  wrOff : Nat
  shutter : Bool
  flags : Nat
  stage : CardStage
  acc : List Byte
  image : Memory
  deriving DecidableEq, Repr

/-- `iccard : ICCardState` (R48). -/
structure ICCardState where
  inserted : Bool
  sessionId : Nat
  useCount : Nat
  pages : Memory
  pwBuf : List Byte
  pwNeed : Nat
  deriving DecidableEq, Repr

/-- The JVSC record (R40 to R48), with its working state (R41, R202, R214, R230). -/
structure Jvsc where
  prevReply : List Byte
  coinCount : List Nat
  coinPrev : List Bool
  dipSwitch : Bool
  jvsAddr : Byte
  rx : Rx
  enc : Enc
  rp : List Byte
  cur : List Byte
  card : CardState
  iccard : ICCardState
  log : List JvEvent
  /-- The calls `Profile.driver_output(d)` made, oldest first (R243, log entry 17). -/
  driverOut : List (List Byte)
  deriving DecidableEq, Repr

/-- The MBMP record (R50, R32). That an interrupt flag in `intOut` is a byte is the model's choice (log entry 31). -/
structure Mbmp where
  mb : Memory
  intOut : List Byte
  log : List MbEvent
  deriving DecidableEq, Repr

/-- The value an operation returns (R12). -/
inductive Result where
  | none
  /-- The byte of a byte slot (R132). -/
  | byte (b : Byte)
  /-- The bit of a clock period (R146), or the answer of a poll (R306). -/
  | bit (b : Bool)
  /-- The bytes of a transaction's slots (R124), or of a mailbox read (R273). -/
  | bytes (l : List Byte)
  /-- The reply of `runBuffer` and its count (R200). -/
  | reply (l : List Byte) (count : Nat)
  deriving DecidableEq, Repr

/-- The whole machine: the three disjoint records (R318), the configuration they run under (R9), the value the last
operation returned (R12) and the requests not served yet, oldest first (log entry 1). -/
structure State where
  cfg : Cfg
  bmsc : Bmsc
  jvsc : Jvsc
  mbmp : Mbmp
  result : Result
  pending : List Request
  deriving DecidableEq, Repr

/-- Faults: none. "No behaviour of this spec is `fault` or `stuck`" (93_implementation_defined.md); no operation aborts,
traps or faults (R300). -/
inductive Fault where
  deriving DecidableEq, Repr

/-- Refusals. -/
inductive Refusal where
  /-- Raised by `exec` for an instruction that has no meaning yet; none is left. Safe. -/
  | notModelled (mnemonic : String)
  /-- Raised by the two DMA operations where the guest does not back the range (U6: the spec gives the run no meaning).
  Safe. -/
  | guestRangeNotBacked
  /-- Raised by `step` under a configuration that breaks a side condition (U12). Safe. -/
  | illegalConfig
  /-- Raised by `step` for a request whose bytes are no instruction (log entry 20). Safe. -/
  | malformedRequest (e : DecodeError)
  deriving DecidableEq, Repr

/-- What `exec` and `step` answer. -/
abbrev Answer := Host.Outcome State Fault Refusal

/-! ## Reset -/

/-- The BMSC reset table (R35), with nothing stored in `BK`. -/
def Bmsc.reset (c : Cfg) : Bmsc where
  cs := false
  pos := 0
  x0 := 0
  x1 := 0
  x2 := 0
  x3 := 0
  cursor := 0
  dmaOff := 0
  dmaLen := 0
  isr := 0
  imr := 0
  irqPending := false
  irqCount := 0
  rxSr := 0
  txSr := c.bm.idleByte
  bitcnt := 0
  bk := ⟨[]⟩
  log := []
  guestOut := []

/-- The encoder before its first `start`: nothing emitted (log entry 6). -/
def Enc.idle : Enc where
  out := []
  sum := 0
  cnt := 0
  lenIdx := 0

/-- The card state's fields zero, nothing listed in its image (R49). -/
def CardState.reset : CardState where
  buf := Vector.replicate cardBufferSize 0
  rdOff := 0
  wrOff := 0
  shutter := false
  flags := 0
  stage := .accumulate
  acc := []
  image := ⟨[]⟩

/-- The IC-card state's fields zero, nothing listed in its pages (R49). -/
def ICCardState.reset : ICCardState where
  inserted := false
  sessionId := 0
  useCount := 0
  pages := ⟨[]⟩
  pwBuf := []
  pwNeed := 0

/-- The JVSC reset table (R49). -/
def Jvsc.reset (c : Cfg) : Jvsc where
  prevReply := []
  coinCount := List.replicate c.jv.coinSlots 0
  coinPrev := List.replicate c.jv.coinSlots false
  dipSwitch := false
  jvsAddr := 0
  rx := Rx.start
  enc := Enc.idle
  rp := []
  cur := []
  card := CardState.reset
  iccard := ICCardState.reset
  log := []
  driverOut := []

/-- The MBMP reset table (R53). -/
def Mbmp.reset : Mbmp where
  mb := ⟨[]⟩
  intOut := []
  log := []

/-- The machine right after power-on and reset: every block at its reset table, under the default configuration, nothing
requested. -/
def State.reset : State where
  cfg := Cfg.default
  bmsc := Bmsc.reset Cfg.default
  jvsc := Jvsc.reset Cfg.default
  mbmp := Mbmp.reset
  result := .none
  pending := []

end Sys2Proof.Machine
end

