-- ==== Sys2Proof/Machine/Ops.lean ====
section
/-! DEFINITION. The named operations over memories and registers: cells, the backup store and its cursor (R77 to R79), the
mailbox record (R83, R289), events and interrupts (R11, R300, R285). There is no trap entry and no return from one (R313,
R314): raising an event is the one shared operation, one per block, and it changes the block's log alone. -/

namespace Sys2Proof.Machine

open Sys2Proof

/-! ## Cells -/

/-- The byte listed at an address. -/
def cellsLookup (a : Nat) : List Host.Cell → Option Byte
  | [] => none
  | (b, v) :: rest => if b = a then some v else cellsLookup a rest

/-- List a byte at an address, keeping the addresses rising. -/
def cellsInsert (a : Nat) (v : Byte) : List Host.Cell → List Host.Cell
  | [] => [(a, v)]
  | (b, w) :: rest =>
    if a < b then (a, v) :: (b, w) :: rest else if b = a then (a, v) :: rest else (b, w) :: cellsInsert a v rest

/-- List nothing at an address. -/
def cellsErase (a : Nat) : List Host.Cell → List Host.Cell
  | [] => []
  | (b, w) :: rest => if b = a then rest else (b, w) :: cellsErase a rest

/-- The byte a memory holds at an address, `dflt` where nothing is listed. -/
def Memory.read (dflt : Option Byte) (m : Memory) (a : Nat) : Option Byte :=
  match cellsLookup a m.cells with
  | some v => some v
  | none => dflt

/-- Store a byte, keeping the canonical form. -/
def Memory.write (dflt : Option Byte) (m : Memory) (a : Nat) (v : Byte) : Memory :=
  if some v = dflt then ⟨cellsErase a m.cells⟩ else ⟨cellsInsert a v m.cells⟩

/-! ## The backup store `BK` (R31, R77 to R79) -/

/-- An offset into `BK`, modulo its size (R11). -/
def bkOffset (c : Cfg) (a : Nat) : Nat := a % c.bm.backupSize

/-- `MemRead(BK:a, 1)` (R11); a byte nothing has written holds `BACKUP_INIT` (R31). -/
def Bmsc.bkRead (c : Cfg) (b : Bmsc) (a : Nat) : Byte :=
  (b.bk.read none (bkOffset c a)).getD (Config.backupInit (bkOffset c a))

/-- `MemWrite(BK:a, 1, [v])`, persistent at once (R11, R79). -/
def Bmsc.bkWrite (c : Cfg) (b : Bmsc) (a : Nat) (v : Byte) : Bmsc :=
  { b with bk := b.bk.write none (bkOffset c a) v }

/-- `seek(o)` (R78): the cursor at `o mod BACKUP_SIZE` (R160). -/
def Bmsc.seek (c : Cfg) (b : Bmsc) (o : Word16) : Bmsc :=
  { b with cursor := BitVec.ofNat 16 (o.toNat % c.bm.backupSize) }

/-- The cursor advanced by one, modulo `BACKUP_SIZE` (R24, R150 b). -/
def Bmsc.advance (c : Cfg) (b : Bmsc) : Bmsc :=
  { b with cursor := BitVec.ofNat 16 ((b.cursor.toNat + 1) % c.bm.backupSize) }

/-- The byte at the cursor. -/
def Bmsc.cursorByte (c : Cfg) (b : Bmsc) : Byte := b.bkRead c b.cursor.toNat

/-- `writeBytes(v)` (R78): store at the cursor, then advance it. -/
def Bmsc.writeByte (c : Cfg) (b : Bmsc) (v : Byte) : Bmsc := (b.bkWrite c b.cursor.toNat v).advance c

/-! ## The card images `CARD` and `ICC` (R47, R48, R70)

Their store is keyed by title (R255), the `title` of the configured profile (log entry 7). No operation of the spec writes
them (U9); reset leaves them as they are (R331). -/

/-- `MemRead(CARD:a, 1)`; a byte nothing has written is as loaded from its store (R49). The source gives `CARD` no size (log
entry 7). -/
def CardState.imageByte (c : Cfg) (k : CardState) (a : Nat) : Byte :=
  (k.image.read none a).getD (Config.cardInit c.profile.title a)

/-- `MemRead(ICC:a, 1)`, a byte of the 2048 (R48, R70); a byte nothing has written is as loaded from its store (R49). -/
def ICCardState.pageByte (c : Cfg) (k : ICCardState) (a : Fin iccSize) : Byte :=
  (k.pages.read none a).getD (Config.iccInit c.profile.title a)

/-! ## Guest memory `GM` through the accessor (R11, R82) -/

/-- `GM.read(a, n)` over the bytes the accessor answers; `none` where it does not back the range (U6). -/
def guestRead (gm : List Host.Cell) (a : Nat) : Nat → Option (List Byte)
  | 0 => some []
  | n + 1 =>
    match cellsLookup a gm, guestRead gm (a + 1) n with
    | some v, some vs => some (v :: vs)
    | _, _ => none

/-- `GM.write(a, [v])`, recorded (R166). -/
def Bmsc.guestWrite (b : Bmsc) (a : Nat) (v : Byte) : Bmsc := { b with guestOut := b.guestOut ++ [(a, v)] }

/-! ## The mailbox record `MB` (R50, R83, R289) -/

/-- `MemRead(MB:a, 1)`. -/
def mbByte (m : Memory) (a : Nat) : Byte := (m.read (some 0) a).getD 0

/-- `MemWrite(MB:a, 1, [v])`. -/
def mbSetByte (m : Memory) (a : Nat) (v : Byte) : Memory := m.write (some 0) a v

/-- `MemRead(MB:a, n)`, in ascending order (R83). -/
def mbReadBytes (m : Memory) (a : Nat) : Nat → List Byte
  | 0 => []
  | n + 1 => mbByte m a :: mbReadBytes m (a + 1) n

/-- `MemWrite(MB:a, |v|, v)`, in ascending order (R83). -/
def mbWriteBytes (m : Memory) (a : Nat) : List Byte → Memory
  | [] => m
  | v :: vs => mbWriteBytes (mbSetByte m a v) (a + 1) vs

/-- `Get16(a)` (R289). -/
def get16 (e : Endian) (m : Memory) (a : Nat) : Word16 := word16 e (mbByte m a) (mbByte m (a + 1))

/-- `Set16(a, v)` (R289). -/
def set16 (e : Endian) (m : Memory) (a : Nat) (v : Word16) : Memory := mbWriteBytes m a (bytes16 e v)

/-- `Get32(a)` (R289). -/
def get32 (e : Endian) (m : Memory) (a : Nat) : Word32 :=
  word32 e (mbByte m a) (mbByte m (a + 1)) (mbByte m (a + 2)) (mbByte m (a + 3))

/-- `Set32(a, v)` (R289). -/
def set32 (e : Endian) (m : Memory) (a : Nat) (v : Word32) : Memory := mbWriteBytes m a (bytes32 e v)

/-- `Base(w)` (R270). -/
def windowBase (c : Cfg) (w : Window) : Nat :=
  match w with
  | .legacy => c.mb.legacyBase
  | .revised => c.mb.revisedBase

/-- The record offset of `IN(w)` (R270). -/
def inBase (c : Cfg) (w : Window) : Nat := windowBase c w

/-- The record offset of `OUT(w)` (R270). -/
def outBase (c : Cfg) (w : Window) : Nat := windowBase c w + regionSize

/-- The interrupt flag of a window's execute step (R285). -/
def windowInterrupt (c : Cfg) (w : Window) : Byte :=
  match w with
  | .legacy => c.mb.intLegacy
  | .revised => c.mb.intRevised

/-! ## Events and interrupts -/

/-- `raise E` in the BMSC (R11). -/
def Bmsc.raise (b : Bmsc) (e : BmEvent) : Bmsc := { b with log := b.log ++ [e] }

/-- `raise E` in the JVSC (R11). -/
def Jvsc.raise (j : Jvsc) (e : JvEvent) : Jvsc := { j with log := j.log ++ [e] }

/-- `raise E` in the MBMP (R11). -/
def Mbmp.raise (m : Mbmp) (e : MbEvent) : Mbmp := { m with log := m.log ++ [e] }

/-- `raiseInterrupt(f)` (R11, R285). -/
def Mbmp.raiseInterrupt (m : Mbmp) (f : Byte) : Mbmp := { m with intOut := m.intOut ++ [f] }

/-! ## The next state of an operation on one block -/

/-- A BMSC operation's next state and returned value (R12). -/
def State.withBmsc (s : State) (b : Bmsc) (r : Result) : State := { s with bmsc := b, result := r }

/-- A JVSC operation's next state and returned value (R12). -/
def State.withJvsc (s : State) (j : Jvsc) (r : Result) : State := { s with jvsc := j, result := r }

/-- An MBMP operation's next state and returned value (R12). -/
def State.withMbmp (s : State) (m : Mbmp) (r : Result) : State := { s with mbmp := m, result := r }

end Sys2Proof.Machine
end

