-- ==== Sys2Proof/Machine/Operands.lean ====
section
/-! DEFINITION. The operand forms: the fields of a latched BMSC frame (R101), the serial-ID byte of a slot (R136), the
latch of slots 0 to 3 (R133), and the slot and amount of the coin opcodes (R240). -/

namespace Sys2Proof.Machine

open Sys2Proof

/-- `off16 = x[1] : x[2]` (R101). -/
def Bmsc.off16 (b : Bmsc) : Word16 := hiLo b.x1 b.x2

/-- `len8 = x[3]` (R101, R163). -/
def Bmsc.len8 (b : Bmsc) : Byte := b.x3

/-- The two LAN-control parameter bytes (R185). -/
def Bmsc.lanParams (b : Bmsc) : Byte × Byte := (b.x1, b.x2)

/-- `x[i] <- in` for the slots 0 to 3; nothing in later slots (R133). -/
def Bmsc.latch (b : Bmsc) (inb : Byte) : Bmsc :=
  match b.pos with
  | 0 => { b with x0 := inb }
  | 1 => { b with x1 := inb }
  | 2 => { b with x2 := inb }
  | 3 => { b with x3 := inb }
  | _ => b

/-- `SERIAL_ID[k mod 4]` (R136). -/
def serialIdByte (c : Cfg) (k : Nat) : Byte := c.bm.serialId[k % 4]'(Nat.mod_lt k (by decide))

/-- `amount = hi * 256 + lo` (R240). -/
def coinAmount (hi lo : Byte) : Nat := hi.toNat * 256 + lo.toNat

/-- The counter's two report bytes `c[13:8]`, `c[7:0]` (R239). -/
def coinBytes (n : Nat) : List Byte := [byteOf (n / 256 % 64), byteOf (n % 256)]

end Sys2Proof.Machine
end

