-- ==== Sys2Proof/Machine/Flags.lean ====
section
/-! DEFINITION. The derived flags and the checks: ID mode (R23), the interrupt line (R33), the check byte (R139), the
completion bit (R52). -/

namespace Sys2Proof.Machine

open Sys2Proof

/-- `id_mode` (R23): both test bytes zero, once both are received. -/
def Bmsc.idMode (b : Bmsc) : Bool := decide (2 ≤ b.pos) && decide (b.x0 = 0) && decide (b.x1 = 0)

/-- `irq_line` (R33); `imr` does not gate it. -/
def Bmsc.irqLine (b : Bmsc) : Bool := b.irqPending

/-- The generator of the check loop: `x^8+x^4+x^3+x+1` aligned at bit 31 (R139). -/
def checkGenerator : Word32 := 0x8D800000

/-- One pass of the check loop at bit `k` (R139). -/
def checkStep (r : Word32) (k : Nat) : Word32 := if r.getLsbD k then r ^^^ (checkGenerator >>> (31 - k)) else r

/-- The default of `CheckByte`, the polynomial-reduction loop over bits 31 down to 8 (R139; PRESUMED by the spec, log entry
12). -/
def checkReduction (b0 b1 b2 : Byte) : Byte :=
  (((List.range 24).foldl (fun r i => checkStep r (31 - i)) (b0 ++ b1 ++ b2 ++ (0 : Byte))).extractLsb' 0 8)

/-- `CheckByte(b0, b1, b2)`, the function the configuration names (R9, U2); a table's missing entries are 0. -/
def checkByte (c : Cfg) (b0 b1 b2 : Byte) : Byte :=
  match c.bm.checkFn with
  | .reduction => checkReduction b0 b1 b2
  | .table values => values.getD (b0.toNat * 65536 + b1.toNat * 256 + b2.toNat) 0

/-- The check value of the latched frame (R138). -/
def Bmsc.checkValue (c : Cfg) (b : Bmsc) : Byte := checkByte c b.x0 b.x1 b.x2

/-- The completion bit of a window (R52). R52 speaks of one bit and R9 gives the mask no side condition: for a mask of several
bits the model calls the bit 1 when all of them are set, and for a mask of none it is always 1 (DESIGN CHOICE, log entry
28). -/
def Mbmp.completionBit (c : Cfg) (m : Mbmp) (w : Window) : Bool :=
  decide (mbByte m.mb (outBase c w + c.mb.doneOff) &&& c.mb.doneMask = c.mb.doneMask)

end Sys2Proof.Machine
end

