-- ==== Sys2Proof/Machine/BackupSlots.lean ====
section
/-! DEFINITION. What the backup-store commands do in one byte slot (spec/41_bmsc_backup.md): `…Out` is the byte the slot
returns, `…Next` the state change besides `pos`, both from the state before the slot. Slot 4 is `pos = 4`, the stream every
later slot (R140, R142). -/

namespace Sys2Proof.Machine

open Sys2Proof

/-- R160, R164. -/
def backupOffsetSetOut (c : Cfg) (_b : Bmsc) : Byte := c.bm.ackByte

/-- R160: `cursor <- (x[1] : x[2]) mod BACKUP_SIZE` in slot 4; R164: nothing later. -/
def backupOffsetSetNext (c : Cfg) (b : Bmsc) : Bmsc := if b.pos = 4 then b.seek c b.off16 else b

/-- R161, R164. -/
def backupWriteOut (c : Cfg) (_b : Bmsc) : Byte := c.bm.ackByte

/-- R161: one byte stored at the cursor in slot 4, and the cursor advanced; R164: nothing later. -/
def backupWriteNext (c : Cfg) (b : Bmsc) : Bmsc := if b.pos = 4 then b.writeByte c b.x1 else b

/-- R162: the byte at the cursor, in slot 4 and in every later slot. -/
def backupReadOut (c : Cfg) (b : Bmsc) : Byte := b.cursorByte c

/-- R162: the cursor advanced, in slot 4 and in every later slot. -/
def backupReadNext (c : Cfg) (b : Bmsc) : Bmsc := b.advance c

/-- R163, R164. -/
def dmaOffsetLengthSetOut (c : Cfg) (_b : Bmsc) : Byte := c.bm.ackByte

/-- R163: `dma_off <- (x[1] : x[2]) mod BACKUP_SIZE; dma_len <- x[3]` in slot 4; R164: nothing later. -/
def dmaOffsetLengthSetNext (c : Cfg) (b : Bmsc) : Bmsc :=
  if b.pos = 4 then { b with dmaOff := BitVec.ofNat 16 (b.off16.toNat % c.bm.backupSize), dmaLen := b.len8 } else b

end Sys2Proof.Machine
end

