-- ==== Sys2Proof/Machine/InterruptSlots.lean ====
section
/-! DEFINITION. What the interrupt commands do in one byte slot (spec/42_bmsc_interrupt.md): `…Out` is the byte the slot
returns, `…Next` the state change besides `pos`, both from the state before the slot. -/

namespace Sys2Proof.Machine

open Sys2Proof

/-- R180, R181: the status byte, in slot 4 and in every later slot. -/
def readISROut (_c : Cfg) (b : Bmsc) : Byte := b.isr

/-- R180: nothing in slot 4; R181: the status and the pending flag cleared in every later slot. -/
def readISRNext (_c : Cfg) (b : Bmsc) : Bmsc := if b.pos = 4 then b else { b with isr := 0, irqPending := false }

/-- R182, R186. -/
def writeISROut (c : Cfg) (_b : Bmsc) : Byte := c.bm.ackByte

/-- R182: `isr <- x[1]` in slot 4; R186: nothing later. -/
def writeISRNext (_c : Cfg) (b : Bmsc) : Bmsc := if b.pos = 4 then { b with isr := b.x1 } else b

/-- R183: the mask byte, in slot 4 and in every later slot. -/
def readIMROut (_c : Cfg) (b : Bmsc) : Byte := b.imr

/-- R183: no state change. -/
def readIMRNext (_c : Cfg) (b : Bmsc) : Bmsc := b

/-- R184, R186. -/
def writeIMROut (c : Cfg) (_b : Bmsc) : Byte := c.bm.ackByte

/-- R184: `imr <- x[1]` in slot 4; R186: nothing later. -/
def writeIMRNext (_c : Cfg) (b : Bmsc) : Bmsc := if b.pos = 4 then { b with imr := b.x1 } else b

/-- R185, R186. -/
def writeLANCNTOut (c : Cfg) (_b : Bmsc) : Byte := c.bm.ackByte

/-- The LAN-control write's state change (R185): assert, clear, or nothing. -/
def Bmsc.lanControl (c : Cfg) (b : Bmsc) : Bmsc :=
  if b.lanParams = c.bm.lancntAssert then { b with irqPending := true, irqCount := 0, isr := b.isr ||| c.bm.isrLan }
  else if b.lanParams = c.bm.lancntClear then { b with irqPending := false, isr := 0 }
  else b

/-- R185 in slot 4; R186: nothing later. -/
def writeLANCNTNext (c : Cfg) (b : Bmsc) : Bmsc := if b.pos = 4 then b.lanControl c else b

/-- R141: `UNHANDLED_BYTE` in slot 4 and in every later slot. -/
def bmUnhandledOut (c : Cfg) (_b : Bmsc) : Byte := c.bm.unhandledByte

/-- R141: the event in slot 4 only; no register changes. -/
def bmUnhandledNext (_c : Cfg) (b : Bmsc) : Bmsc := if b.pos = 4 then b.raise (.bmUnhandled b.x0) else b

end Sys2Proof.Machine
end

