-- ==== Sys2Proof/Machine/Transfer.lean ====
section
/-! DEFINITION. The BMSC's bus operations (spec/40_bmsc_transfer.md): chip-select, the byte slot in its two parts `Out` and
`Next` (R132, R144), the bit-serial form of a slot (R146), and the transaction a mnemonic stands for (R124). -/

namespace Sys2Proof.Machine

open Sys2Proof

/-- `setChipSelect(level)` (R130). -/
def Bmsc.chipSelect (b : Bmsc) (level : Bool) : Bmsc :=
  if level then { b with cs := true, pos := 0, bitcnt := 0 } else { b with cs := false, bitcnt := 0 }

/-- `CmdOut(x[0], p)`: the byte of the selected command's slot (R140 to R142). -/
def cmdOut (c : Cfg) (b : Bmsc) : Byte :=
  match bmOpOf c b.x0 with
  | some .offsetSet => backupOffsetSetOut c b
  | some .write => backupWriteOut c b
  | some .read => backupReadOut c b
  | some .dmaSet => dmaOffsetLengthSetOut c b
  | some .isrRead => readISROut c b
  | some .isrWrite => writeISROut c b
  | some .imrRead => readIMROut c b
  | some .imrWrite => writeIMROut c b
  | some .lancntWrite => writeLANCNTOut c b
  | none => bmUnhandledOut c b

/-- `CmdNext(x[0], p)`: the state change of the selected command's slot (R140 to R142). -/
def cmdNext (c : Cfg) (b : Bmsc) : Bmsc :=
  match bmOpOf c b.x0 with
  | some .offsetSet => backupOffsetSetNext c b
  | some .write => backupWriteNext c b
  | some .read => backupReadNext c b
  | some .dmaSet => dmaOffsetLengthSetNext c b
  | some .isrRead => readISRNext c b
  | some .isrWrite => writeISRNext c b
  | some .imrRead => readIMRNext c b
  | some .imrWrite => writeIMRNext c b
  | some .lancntWrite => writeLANCNTNext c b
  | none => bmUnhandledNext c b

/-- `Out(state)` of a selected slot: a function of the state before the slot (R132, R144). -/
def Bmsc.slotOut (c : Cfg) (b : Bmsc) : Byte :=
  if b.pos < 2 then c.bm.idleByte
  else if b.idMode then serialIdByte c (b.pos - 2)
  else if b.pos < 4 then c.bm.idleByte
  else cmdOut c b

/-- The check of slot 3, outside ID mode (R138); `inb` is the byte received in the slot. -/
def Bmsc.checkSlot (c : Cfg) (b : Bmsc) (inb : Byte) : Bmsc :=
  if b.pos = 3 ∧ b.idMode = false ∧ inb ≠ b.checkValue c then
    b.raise (.crcMismatch b.x0 b.x1 b.x2 inb (b.checkValue c))
  else b

/-- The command's part of a slot: nothing before slot 4 and in ID mode (R137, R140). -/
def Bmsc.commandSlot (c : Cfg) (b : Bmsc) : Bmsc := if 4 ≤ b.pos ∧ b.idMode = false then cmdNext c b else b

/-- `Next(state, in)` of a selected slot (R132, R144): latch, check, command, then `pos <- pos + 1` (R135). -/
def Bmsc.slotNext (c : Cfg) (b : Bmsc) (inb : Byte) : Bmsc :=
  let b' := ((b.latch inb).checkSlot c inb).commandSlot c
  { b' with pos := b.pos + 1 }

/-- `transferByte(in)`: the byte returned and the state after (R131, R144). -/
def Bmsc.transferByte (c : Cfg) (b : Bmsc) (inb : Byte) : Byte × Bmsc :=
  if b.cs then (b.slotOut c, b.slotNext c inb) else (c.bm.idleByte, b)

/-- The bit of `tx_sr` that is driven, and `tx_sr` shifted (R146, R147). -/
def shiftOut (o : BitOrder) (t : Byte) : Bool × Byte :=
  match o with
  | .msbFirst => (t.getLsbD 7, t <<< 1)
  | .lsbFirst => (t.getLsbD 0, t >>> 1)

/-- `rx_sr` with one more bit received (R146, R147). -/
def shiftIn (o : BitOrder) (r : Byte) (sdi : Bool) : Byte :=
  match o with
  | .msbFirst => (r <<< 1) ||| (BitVec.ofBool sdi).setWidth 8
  | .lsbFirst => (r >>> 1) ||| ((BitVec.ofBool sdi).setWidth 8 <<< 7)

/-- One clock period `shiftBit(sdi)`: the bit driven and the state after (R146). While `cs = 0` the clock is ignored and the
line reads as 1. -/
def Bmsc.shiftBit (c : Cfg) (b : Bmsc) (sdi : Bool) : Bool × Bmsc :=
  if b.cs then
    let t := if b.bitcnt = 0 then b.slotOut c else b.txSr
    let (sdo, t') := shiftOut c.bm.bitOrder t
    let r := shiftIn c.bm.bitOrder b.rxSr sdi
    let b' := { b with txSr := t', rxSr := r }
    if b.bitcnt = 7 then (sdo, { b' with bitcnt := 0 }.slotNext c r) else (sdo, { b' with bitcnt := b.bitcnt + 1 })
  else (true, b)

/-- Byte slots one after another: the bytes returned and the state after. -/
def Bmsc.transferBytes (c : Cfg) (b : Bmsc) : List Byte → List Byte × Bmsc
  | [] => ([], b)
  | v :: vs =>
    let (out, b') := b.transferByte c v
    let (outs, b'') := b'.transferBytes c vs
    (out :: outs, b'')

/-- The transaction a mnemonic stands for: assert, the `in` bytes, deassert (R124). -/
def Bmsc.transaction (c : Cfg) (b : Bmsc) (ins : List Byte) : List Byte × Bmsc :=
  let (outs, b') := (b.chipSelect true).transferBytes c ins
  (outs, b'.chipSelect false)

/-- A BMSC mnemonic: its transaction, with the slots' bytes as the value returned (R124). -/
def runTransaction (ins : List Byte) (s : State) : Answer :=
  let (outs, b) := s.bmsc.transaction s.cfg ins
  .next (s.withBmsc b (.bytes outs))

/-- `setChipSelect(level)` (R130). -/
def execSetChipSelect (level : Bool) (s : State) : Answer := .next (s.withBmsc (s.bmsc.chipSelect level) .none)

/-- `transferByte`: the byte slot (R131 to R144), or one clock period of its bit-serial form (R146). -/
def execTransferByte (io : SlotInput) (s : State) : Answer :=
  match io with
  | .byte inb =>
    let (out, b) := s.bmsc.transferByte s.cfg inb
    .next (s.withBmsc b (.byte out))
  | .bit sdi =>
    let (sdo, b) := s.bmsc.shiftBit s.cfg sdi
    .next (s.withBmsc b (.bit sdo))

end Sys2Proof.Machine
end

