-- ==== Sys2Proof/Machine/BackupCommands.lean ====
section
/-! DEFINITION. The backup-store commands as instructions, and the two DMA operations (spec/41_bmsc_backup.md). -/

namespace Sys2Proof.Machine

open Sys2Proof

/-- `BackupOffsetSet off16` (R160). -/
def execBackupOffsetSet (off16 : Word16) (chk : Byte) (stream : Nat) (s : State) : Answer :=
  runTransaction (frameBytes s.cfg.bm.opOffsetSet (hiByte off16) (loByte off16) chk stream) s

/-- `BackupWrite d` (R161). -/
def execBackupWrite (d u2 chk : Byte) (stream : Nat) (s : State) : Answer :=
  runTransaction (frameBytes s.cfg.bm.opWrite d u2 chk stream) s

/-- `BackupRead` (R162). -/
def execBackupRead (u1 u2 chk : Byte) (stream : Nat) (s : State) : Answer :=
  runTransaction (frameBytes s.cfg.bm.opRead u1 u2 chk stream) s

/-- `DMAOffsetLengthSet off16, len8` (R163). -/
def execDmaOffsetLengthSet (off16 : Word16) (len8 : Byte) (stream : Nat) (s : State) : Answer :=
  runTransaction (frameBytes s.cfg.bm.opDmaSet (hiByte off16) (loByte off16) len8 stream) s

/-- `SerialID`, ID mode (R136, R137). -/
def execSerialID (u2 u3 : Byte) (stream : Nat) (s : State) : Answer := runTransaction (frameBytes 0 0 u2 u3 stream) s

/-- A frame whose opcode is in no map (R141). -/
def execBmUnhandled (op p1 p2 chk : Byte) (stream : Nat) (s : State) : Answer :=
  runTransaction (frameBytes op p1 p2 chk stream) s

/-- The writes of `dmaWrite`, one byte after another from the cursor (R165). -/
def Bmsc.storeAll (c : Cfg) (b : Bmsc) : List Byte → Bmsc
  | [] => b
  | v :: vs => (b.writeByte c v).storeAll c vs

/-- The reads of `dmaRead`, one byte after another from the cursor to `GM` addresses from `addr` (R166). -/
def Bmsc.loadAll (c : Cfg) (b : Bmsc) (addr : Nat) : Nat → Bmsc
  | 0 => b
  | n + 1 => ((b.guestWrite addr (b.cursorByte c)).advance c).loadAll c (addr + 1) n

/-- `cursor <- dma_off` (R165, R166). -/
def Bmsc.seekDma (b : Bmsc) : Bmsc := { b with cursor := b.dmaOff }

/-- `dmaWrite(addr, len)`: guest memory to backup store (R165). `gm` is what the accessor answers during the operation (R80);
a range it does not back is refused (U6). -/
def execDmaWrite (addr len : Nat) (gm : List Host.Cell) (s : State) : Answer :=
  match guestRead gm addr len with
  | some vs => .next (s.withBmsc (s.bmsc.seekDma.storeAll s.cfg vs) .none)
  | none => .refused .guestRangeNotBacked

/-- `dmaRead(addr, len)`: backup store to guest memory (R166). `gm` lists the addresses the accessor backs; a range it does
not back is refused (U6). -/
def execDmaRead (addr len : Nat) (gm : List Host.Cell) (s : State) : Answer :=
  match guestRead gm addr len with
  | some _ => .next (s.withBmsc (s.bmsc.seekDma.loadAll s.cfg addr len) .none)
  | none => .refused .guestRangeNotBacked

end Sys2Proof.Machine
end

