-- ==== Sys2Proof/Machine/InterruptCommands.lean ====
section
/-! DEFINITION. The interrupt commands as instructions (spec/42_bmsc_interrupt.md), and the poll (spec/60_exceptions.md R306). -/

namespace Sys2Proof.Machine

open Sys2Proof

/-- `ReadISR` (R180, R181). -/
def execReadISR (u1 u2 chk : Byte) (stream : Nat) (s : State) : Answer :=
  runTransaction (frameBytes s.cfg.bm.opIsrRead u1 u2 chk stream) s

/-- `WriteISR v` (R182). -/
def execWriteISR (v u2 chk : Byte) (stream : Nat) (s : State) : Answer :=
  runTransaction (frameBytes s.cfg.bm.opIsrWrite v u2 chk stream) s

/-- `ReadIMR` (R183). -/
def execReadIMR (u1 u2 chk : Byte) (stream : Nat) (s : State) : Answer :=
  runTransaction (frameBytes s.cfg.bm.opImrRead u1 u2 chk stream) s

/-- `WriteIMR v` (R184). -/
def execWriteIMR (v u2 chk : Byte) (stream : Nat) (s : State) : Answer :=
  runTransaction (frameBytes s.cfg.bm.opImrWrite v u2 chk stream) s

/-- `WriteLANCNT a, b` (R185). -/
def execWriteLANCNT (a b chk : Byte) (stream : Nat) (s : State) : Answer :=
  runTransaction (frameBytes s.cfg.bm.opLancntWrite a b chk stream) s

/-- One poll: the answer and the state after (R306). -/
def Bmsc.poll (c : Cfg) (b : Bmsc) : Bool × Bmsc :=
  if b.irqPending then
    (true, { b with irqCount := b.irqCount + 1, irqPending := decide (b.irqCount + 1 ≤ c.bm.irqPollLimit) })
  else (false, b)

/-- `pollInterrupt()` (R306). -/
def execPollInterrupt (s : State) : Answer :=
  let (answer, b) := s.bmsc.poll s.cfg
  .next (s.withBmsc b (.bit answer))

end Sys2Proof.Machine
end

