-- ==== Sys2Proof/Machine/JvsReports.lean ====
section
/-! DEFINITION. The JVS opcodes' rules (spec/44_jvs_commands.md R231 to R248): what each does to the JVSC and to the reply
payload under construction when the dispatcher reaches it. -/

namespace Sys2Proof.Machine

open Sys2Proof

/-- `rp <- rp ++ [JVS_REPORT_OK] ++ data` (R230). -/
def Jvsc.report (c : Cfg) (j : Jvsc) (data : List Byte) : Jvsc := { j with rp := j.rp ++ c.jv.reportOk :: data }

/-- R231. -/
def ruleBoardID (c : Cfg) (j : Jvsc) : Jvsc := j.report c c.profile.boardId

/-- R232. -/
def ruleCommandRev (c : Cfg) (j : Jvsc) : Jvsc := j.report c [c.profile.cmdRev]

/-- R233. -/
def ruleJVRev (c : Cfg) (j : Jvsc) : Jvsc := j.report c [c.profile.jvRev]

/-- R234. -/
def ruleCommRev (c : Cfg) (j : Jvsc) : Jvsc := j.report c [c.profile.commRev]

/-- R235. -/
def ruleCapabilities (c : Cfg) (j : Jvsc) : Jvsc := j.report c (Config.capabilities c.profile j.dipSwitch)

/-- R237. -/
def ruleSwitchInput (c : Cfg) (players bpp : Byte) (pad : PadStatus) (j : Jvsc) : Jvsc :=
  j.report c (Config.switchReport c.profile pad players bpp)

/-- Slot `s`'s counter after a poll (R239): one more on a rising edge, up to `COIN_MAX`. -/
def coinAfter (c : Cfg) (pad : PadStatus) (j : Jvsc) (s : Nat) : Nat :=
  let n := j.coinCount.getD s 0
  if Config.coinTrigger c.profile pad s = true ∧ j.coinPrev.getD s false = false ∧ n < c.jv.coinMax then n + 1 else n

/-- Every slot sampled (R239). -/
def Jvsc.sampleCoins (c : Cfg) (pad : PadStatus) (j : Jvsc) : Jvsc :=
  { j with
    coinCount := (List.range c.jv.coinSlots).map (coinAfter c pad j)
    coinPrev := (List.range c.jv.coinSlots).map (Config.coinTrigger c.profile pad) }

/-- The report of the first `k` slots; a slot past the last reads 0 (R239). -/
def Jvsc.coinReport (c : Cfg) (j : Jvsc) (k : Nat) : List Byte :=
  (List.range k).flatMap fun s => coinBytes (if s < c.jv.coinSlots then j.coinCount.getD s 0 else 0)

/-- R239. -/
def ruleCoinInput (c : Cfg) (slots : Byte) (pad : PadStatus) (j : Jvsc) : Jvsc :=
  let j' := j.sampleCoins c pad
  j'.report c (j'.coinReport c slots.toNat)

/-- R241. -/
def ruleAnalogInput (c : Cfg) (ch : Byte) (pad : PadStatus) (j : Jvsc) : Jvsc :=
  j.report c (Config.analogReport c.profile pad ch)

/-- R242. -/
def rulePositionInput (c : Cfg) (ch : Byte) (pad : PadStatus) (j : Jvsc) : Jvsc :=
  j.report c (Config.positionReport c.profile pad ch)

/-- A coin slot's counter replaced, for the 1-based slots that exist; otherwise `JvsBadSlot` (R240). -/
def Jvsc.coinUpdate (c : Cfg) (j : Jvsc) (slot : Byte) (f : Nat → Nat) : Jvsc :=
  if slot = 0 ∨ c.jv.coinSlots < slot.toNat then j.raise (.jvsBadSlot slot)
  else { j with coinCount := j.coinCount.modify (slot.toNat - 1) f }

/-- R240, subtraction saturating at 0. -/
def ruleCoinSub (c : Cfg) (slot hi lo : Byte) (j : Jvsc) : Jvsc :=
  (j.coinUpdate c slot fun n => n - coinAmount hi lo).report c []

/-- R240, addition saturating at `COIN_MAX`. -/
def ruleCoinAdd (c : Cfg) (slot hi lo : Byte) (j : Jvsc) : Jvsc :=
  (j.coinUpdate c slot fun n => min c.jv.coinMax (n + coinAmount hi lo)).report c []

/-- R243: `Profile.driver_output(d)`, recorded (log entry 17). -/
def ruleDriverOutput (c : Cfg) (d : List Byte) (j : Jvsc) : Jvsc :=
  { j with driverOut := j.driverOut ++ [d] }.report c []

/-- R244: the profile's reply; where the profile refuses, or asks for more bytes than remain, the opcode is truncated
(R236). -/
def ruleNAMCO (c : Cfg) (tail : List Byte) (j : Jvsc) : Jvsc :=
  match Config.namco c.profile tail with
  | some (consumed, reply) =>
    if tail.length < consumed then j.raise (.jvsArgsTruncated c.jv.jop.namco) else j.report c reply
  | none => j.raise (.jvsArgsTruncated c.jv.jop.namco)

/-- R246. -/
def ruleReset (c : Cfg) (magic : Byte) (j : Jvsc) : Jvsc :=
  (if magic = resetMagic then { j with dipSwitch := true, jvsAddr := 0 } else j.raise (.jvsBadResetMagic magic)).report c []

/-- R247. -/
def ruleSetAddress (c : Cfg) (addr : Byte) (j : Jvsc) : Jvsc :=
  { j with jvsAddr := addr, dipSwitch := false }.report c []

/-- R248: the event; the rest of the payload is not parsed. -/
def ruleUnhandled (jop : Byte) (j : Jvsc) : Jvsc := j.raise (.jvsUnhandled jop)

end Sys2Proof.Machine
end

