-- ==== Sys2Proof/Machine/JvsDispatch.lean ====
section
/-! DEFINITION. The JVS dispatcher (spec/44_jvs_commands.md R230): the opcode groups of a frame's payload, executed in order. -/

namespace Sys2Proof.Machine

open Sys2Proof

/-- The rule of one decoded opcode; an instruction of another format never stands in a payload and does nothing here. -/
def runGroup (c : Cfg) (i : Instr) (j : Jvsc) : Jvsc :=
  match i with
  | .jBoardID _ => ruleBoardID c j
  | .jCommandRev _ => ruleCommandRev c j
  | .jJVRev _ => ruleJVRev c j
  | .jCommRev _ => ruleCommRev c j
  | .jCapabilities _ => ruleCapabilities c j
  | .jSwitchInput _ players bpp pad => ruleSwitchInput c players bpp pad j
  | .jCoinInput _ slots pad => ruleCoinInput c slots pad j
  | .jAnalogInput _ ch pad => ruleAnalogInput c ch pad j
  | .jPositionInput _ ch pad => rulePositionInput c ch pad j
  | .jCoinSub _ slot hi lo => ruleCoinSub c slot hi lo j
  | .jDriverOutput _ d => ruleDriverOutput c d j
  | .jCoinAdd _ slot hi lo => ruleCoinAdd c slot hi lo j
  | .jNAMCO _ tail => ruleNAMCO c tail j
  | .jReset _ magic => ruleReset c magic j
  | .jSetAddress _ addr => ruleSetAddress c addr j
  | .jUnhandled _ jop _ => ruleUnhandled jop j
  | _ => j

/-- The dispatcher's loop (R230). Every group takes at least its opcode byte, so the payload's length bounds the rounds. -/
def dispatchLoop (c : Cfg) (node : Byte) (pad : PadStatus) : Nat → List Byte → Jvsc → Jvsc
  | 0, _, j => j
  | _ + 1, [], j => j
  | n + 1, jop :: tail, j =>
    match decodeGroup c node pad jop tail with
    | .unhandled i => runGroup c i j
    | .truncated op => j.raise (.jvsArgsTruncated op)
    | .op i rest => dispatchLoop c node pad n rest (runGroup c i j)

/-- `Dispatch(node, buf, pad)`: afterwards `rp` is the reply payload (R230). -/
def Jvsc.dispatch (c : Cfg) (node : Byte) (buf : List Byte) (pad : PadStatus) (j : Jvsc) : Jvsc :=
  dispatchLoop c node pad buf.length buf { j with rp := [c.jv.statusOk] }

end Sys2Proof.Machine
end

