-- ==== Sys2Proof/Machine/JvsFraming.lean ====
section
/-! DEFINITION. JVS framing (spec/43_jvs_framing.md): the reply encoder (R214 to R218) and the frame receiver (R204 to R211). -/

namespace Sys2Proof.Machine

open Sys2Proof

/-! ## The encoder -/

/-- `start(node)` (R214). -/
def encStart (v : JvCfg) (node : Byte) : Enc :=
  match v.hdrOrder with
  | .lenNode => { out := [v.sync, 0, node], sum := node, cnt := 0, lenIdx := 1 }
  | .nodeLen => { out := [v.sync, node, 0], sum := node, cnt := 0, lenIdx := 2 }

/-- `addData(b)` (R215). -/
def encAdd (v : JvCfg) (e : Enc) (b : Byte) : Enc :=
  { e with out := e.out ++ stuffByte v b, sum := e.sum + b, cnt := e.cnt + 1 }

/-- `end()` for a length that fits: the length patched, the checksum appended (R216). -/
def encEnd (v : JvCfg) (e : Enc) : Enc :=
  let len := byteOf (e.cnt + 1)
  { e with out := e.out.set e.lenIdx len ++ stuffByte v (e.sum + len) }

/-- `Encode(node, p)` (R218): the frame and the encoder's and log's new state; a length of 0xD0 or more is refused with no
frame (R216). -/
def Jvsc.encode (c : Cfg) (j : Jvsc) (node : Byte) (p : List Byte) : List Byte × Jvsc :=
  let e := p.foldl (encAdd c.jv) (encStart c.jv node)
  if 0xD0 ≤ e.cnt + 1 then ([], { j with enc := e }.raise (.jvsReplyTooLong e.cnt))
  else ((encEnd c.jv e).out, { j with enc := encEnd c.jv e })

/-! ## The receiver -/

/-- A complete frame: the checksum test, which rejects nothing, the dispatch, and the reply frame (R205 `Sum`, R210). -/
def Jvsc.frameDone (c : Cfg) (pad : PadStatus) (j : Jvsc) (v : Byte) : List Byte × Jvsc :=
  let j1 := if v = j.rx.sum then j else j.raise (.jvsSumMismatch v j.rx.sum)
  let j2 := { j1 with rx := { j1.rx with state := .waitSync } }.dispatch c j.rx.node j.rx.buf pad
  j2.encode c c.jv.hostNode j2.rp

/-- The second header byte (R205 `Hdr1`, R208). -/
def rxHeader (o : HdrOrder) (x : Rx) (v : Byte) : Rx :=
  let (len, node) := match o with
    | .lenNode => (x.h0, v)
    | .nodeLen => (v, x.h0)
  { x with h1 := v, sum := x.sum + v, len := len, node := node }

/-- One de-stuffed byte of a frame (R205, the cases on `rx_state`). -/
def Jvsc.rxValue (c : Cfg) (pad : PadStatus) (j : Jvsc) (v : Byte) : List Byte × Jvsc :=
  match j.rx.state with
  | .waitSync => ([], j)
  | .hdr0 => ([], { j with rx := { j.rx with h0 := v, sum := v, state := .hdr1 } })
  | .hdr1 =>
    let x := rxHeader c.jv.hdrOrder j.rx v
    if x.len = 0 then ([], { j with rx := { x with state := .waitSync } }.raise .jvsBadLength)
    else ([], { j with rx := { x with left := x.len.toNat, state := if x.len = 1 then .sum else .payload } })
  | .payload =>
    let left := j.rx.left - 1
    ([], { j with rx := { j.rx with buf := j.rx.buf ++ [v], sum := j.rx.sum + v, left := left,
                                    state := if left = 1 then .sum else .payload } })
  | .sum => j.frameDone c pad v

/-- `rxByte(r)`: one raw byte; the reply frame it completes, if any, and the state after (R205 to R207). -/
def Jvsc.rxByte (c : Cfg) (pad : PadStatus) (j : Jvsc) (r : Byte) : List Byte × Jvsc :=
  if r = c.jv.sync then
    let j' := if j.rx.state = .waitSync then j else j.raise (.jvsFrameAborted j.rx.state)
    ([], { j' with rx := { j'.rx with state := .hdr0, esc := false, sum := 0, buf := [] } })
  else if j.rx.state = .waitSync then ([], j)
  else if j.rx.esc = false ∧ r = c.jv.mark then ([], { j with rx := { j.rx with esc := true } })
  else { j with rx := { j.rx with esc := false } }.rxValue c pad (if j.rx.esc then r + 1 else r)

/-- The raw bytes of a chunk, one after another: the reply frames in order and the state after (R204). -/
def Jvsc.rxBytes (c : Cfg) (pad : PadStatus) (j : Jvsc) : List Byte → List Byte × Jvsc
  | [] => ([], j)
  | r :: rs =>
    let (out, j') := j.rxByte c pad r
    let (outs, j'') := j'.rxBytes c pad rs
    (out ++ outs, j'')

/-- A `CH.JVS` chunk: the receiver rebuilt, the bytes received, a frame cut short dropped (R204, R211). -/
def Jvsc.rxChunk (c : Cfg) (pad : PadStatus) (j : Jvsc) (d : List Byte) : List Byte × Jvsc :=
  let (out, j') := { j with rx := Rx.start }.rxBytes c pad d
  if j'.rx.state = .waitSync then (out, j') else (out, j'.raise (.jvsFrameTruncated j'.rx.state))

end Sys2Proof.Machine
end

