-- ==== Sys2Proof/Machine/SerialBus.lean ====
section
/-! DEFINITION. The JVSC's entry point and its serial-bus and chunk opcodes (spec/43_jvs_framing.md R200 to R204, R219,
R221; spec/44_jvs_commands.md R250, R251). -/

namespace Sys2Proof.Machine

open Sys2Proof

/-- The reply chunk of a chunk opcode, appended to the reply under construction (R219). -/
def Jvsc.appendChunk (j : Jvsc) (cop : Byte) (r : List Byte) : Jvsc :=
  if 255 < r.length then j.raise (.replyChunkOverflow cop r.length) else { j with cur := j.cur ++ chunkBytes cop r }

/-- R204, R219. -/
def ruleChJVS (c : Cfg) (cop : Byte) (d : List Byte) (pad : PadStatus) (j : Jvsc) : Jvsc :=
  let (out, j') := j.rxChunk c pad d
  j'.appendChunk cop out

/-- R250: refused by its event, no state of `card` changes, empty reply data (log entry 13). -/
def ruleChCard (cop : Byte) (d : List Byte) (j : Jvsc) : Jvsc := (j.raise (.cardRefused d)).appendChunk cop []

/-- R251: refused by its event, no state of `iccard` changes, empty reply data (log entry 13). -/
def ruleChICCard (cop : Byte) (d : List Byte) (j : Jvsc) : Jvsc := (j.raise (.icCardRefused d)).appendChunk cop []

/-- R203: the event; the chunk contributes nothing. -/
def ruleChUnhandled (cop : Byte) (j : Jvsc) : Jvsc := j.raise (.chunkUnhandled cop)

/-- One chunk of the stream (R202, the loop's body). -/
def runChunk (c : Cfg) (pad : PadStatus) (cop : Byte) (d : List Byte) (j : Jvsc) : Jvsc :=
  match chOpOf c cop with
  | some .jvs => ruleChJVS c cop d pad j
  | some .card => ruleChCard cop d j
  | some .icCard => ruleChICCard cop d j
  | none => ruleChUnhandled cop j

/-- The chunk stream (R202). Every chunk takes at least two bytes, so the stream's length bounds the rounds. -/
def chunkLoop (c : Cfg) (pad : PadStatus) : Nat → List Byte → Jvsc → Jvsc
  | 0, _, j => j
  | _ + 1, [], j => j
  | _ + 1, [cop], j => j.raise (.chunkTruncated cop 0 0)
  | k + 1, cop :: n :: rest, j =>
    if rest.length < n.toNat then j.raise (.chunkTruncated cop n.toNat rest.length)
    else chunkLoop c pad k (rest.drop n.toNat) (runChunk c pad cop (rest.take n.toNat) j)

/-- The delayed reply: the reply of the previous call is returned, the reply just built is held (R221). -/
def Jvsc.delayReply (j : Jvsc) : List Byte × Jvsc := (j.prevReply, { j with prevReply := j.cur })

/-- `SI.Command` (R202, R221). -/
def Jvsc.siCommand (c : Cfg) (pad : PadStatus) (j : Jvsc) (chunks : List Byte) : List Byte × Jvsc :=
  (chunkLoop c pad chunks.length chunks { j with cur := [] }).delayReply

/-- `runBuffer(bytes, length, pad)`: the reply and the state after (R200 to R203). -/
def Jvsc.runBuffer (c : Cfg) (pad : PadStatus) (j : Jvsc) (bytes : List Byte) : List Byte × Jvsc :=
  match bytes with
  | [] => ([], j)
  | op :: rest =>
    if op = c.jv.siOpReset then (c.jv.deviceId.toList, j)
    else if op = c.jv.siOpCommand then j.siCommand c pad rest
    else ([], j.raise (.siUnhandled op))

/-- The call with its reply and count as the value returned (R200, R222). -/
def serialCall (bytes : List Byte) (pad : PadStatus) (s : State) : Answer :=
  let (reply, j) := s.jvsc.runBuffer s.cfg pad bytes
  .next (s.withJvsc j (.reply reply reply.length))

/-- The `SI.Command` call that carries one chunk (log entry 5). -/
def chunkCall (cop : Byte) (d : List Byte) (pad : PadStatus) (s : State) : Answer :=
  serialCall (s.cfg.jv.siOpCommand :: chunkBytes cop d) pad s

/-- `runBuffer` (R200). -/
def execRunBuffer (bytes : List Byte) (pad : PadStatus) (s : State) : Answer := serialCall bytes pad s

/-- `SI.Reset` (R201). -/
def execSiReset (rest : List Byte) (s : State) : Answer := serialCall (s.cfg.jv.siOpReset :: rest) noPad s

/-- `SI.Command` (R202). -/
def execSiCommand (chunks : List Byte) (pad : PadStatus) (s : State) : Answer :=
  serialCall (s.cfg.jv.siOpCommand :: chunks) pad s

/-- A serial-bus opcode that is neither (R203). -/
def execSiUnhandled (op : Byte) (rest : List Byte) (s : State) : Answer := serialCall (op :: rest) noPad s

/-- `CH.JVS` (R204). -/
def execChJVS (d : List Byte) (pad : PadStatus) (s : State) : Answer := chunkCall s.cfg.jv.chJvs d pad s

/-- `CH.Card` (R250). -/
def execChCard (d : List Byte) (s : State) : Answer := chunkCall s.cfg.jv.chCard d noPad s

/-- `CH.ICCard` (R251). -/
def execChICCard (d : List Byte) (s : State) : Answer := chunkCall s.cfg.jv.chICCard d noPad s

/-- A chunk opcode outside the map (R203). -/
def execChUnhandled (cop : Byte) (d : List Byte) (s : State) : Answer := chunkCall cop d noPad s

end Sys2Proof.Machine
end

