-- ==== Sys2Proof/Machine/JvsCommands.lean ====
section
/-! DEFINITION. The JVS opcodes as instructions: the `SI.Command` call that carries one `CH.JVS` chunk with one frame with the
one opcode, as programs P5 and P6 of spec/95_test_vectors.md use them (log entry 5). What each opcode does when the
dispatcher reaches it is its rule in Machine/JvsReports.lean. -/

namespace Sys2Proof.Machine

open Sys2Proof

/-- The call that carries one command frame (R202, R204, R112). -/
def frameCall (node : Byte) (p : List Byte) (pad : PadStatus) (s : State) : Answer :=
  chunkCall s.cfg.jv.chJvs (jvsFrame s.cfg.jv node p) pad s

/-- `J.BoardID` (R231). -/
def execJBoardID (node : Byte) (s : State) : Answer :=
  frameCall node (payloadBytes s.cfg (.jBoardID node)) noPad s

/-- `J.CommandRev` (R232). -/
def execJCommandRev (node : Byte) (s : State) : Answer :=
  frameCall node (payloadBytes s.cfg (.jCommandRev node)) noPad s

/-- `J.JVRev` (R233). -/
def execJJVRev (node : Byte) (s : State) : Answer :=
  frameCall node (payloadBytes s.cfg (.jJVRev node)) noPad s

/-- `J.CommRev` (R234). -/
def execJCommRev (node : Byte) (s : State) : Answer :=
  frameCall node (payloadBytes s.cfg (.jCommRev node)) noPad s

/-- `J.Capabilities` (R235). -/
def execJCapabilities (node : Byte) (s : State) : Answer :=
  frameCall node (payloadBytes s.cfg (.jCapabilities node)) noPad s

/-- `J.SwitchInput` (R237). -/
def execJSwitchInput (node players bpp : Byte) (pad : PadStatus) (s : State) : Answer :=
  frameCall node (payloadBytes s.cfg (.jSwitchInput node players bpp pad)) pad s

/-- `J.CoinInput` (R239). -/
def execJCoinInput (node slots : Byte) (pad : PadStatus) (s : State) : Answer :=
  frameCall node (payloadBytes s.cfg (.jCoinInput node slots pad)) pad s

/-- `J.AnalogInput` (R241). -/
def execJAnalogInput (node ch : Byte) (pad : PadStatus) (s : State) : Answer :=
  frameCall node (payloadBytes s.cfg (.jAnalogInput node ch pad)) pad s

/-- `J.PositionInput` (R242). -/
def execJPositionInput (node ch : Byte) (pad : PadStatus) (s : State) : Answer :=
  frameCall node (payloadBytes s.cfg (.jPositionInput node ch pad)) pad s

/-- `J.CoinSub` (R240). -/
def execJCoinSub (node slot hi lo : Byte) (s : State) : Answer :=
  frameCall node (payloadBytes s.cfg (.jCoinSub node slot hi lo)) noPad s

/-- `J.CoinAdd` (R240). -/
def execJCoinAdd (node slot hi lo : Byte) (s : State) : Answer :=
  frameCall node (payloadBytes s.cfg (.jCoinAdd node slot hi lo)) noPad s

/-- `J.Reset` (R246). -/
def execJReset (node magic : Byte) (s : State) : Answer :=
  frameCall node (payloadBytes s.cfg (.jReset node magic)) noPad s

/-- `J.SetAddress` (R247). -/
def execJSetAddress (node addr : Byte) (s : State) : Answer :=
  frameCall node (payloadBytes s.cfg (.jSetAddress node addr)) noPad s

/-- `J.DriverOutput` (R243). -/
def execJDriverOutput (node : Byte) (d : List Byte) (s : State) : Answer :=
  frameCall node (payloadBytes s.cfg (.jDriverOutput node d)) noPad s

/-- `J.NAMCO` (R244). -/
def execJNAMCO (node : Byte) (tail : List Byte) (s : State) : Answer :=
  frameCall node (payloadBytes s.cfg (.jNAMCO node tail)) noPad s

/-- A JVS opcode outside the map (R248). -/
def execJUnhandled (node jop : Byte) (tail : List Byte) (s : State) : Answer :=
  frameCall node (payloadBytes s.cfg (.jUnhandled node jop tail)) noPad s

end Sys2Proof.Machine
end

