-- ==== Sys2Proof/Machine/Mailbox.lean ====
section
/-! DEFINITION. The mailbox operations (spec/45_mailbox.md): write, read and the execute step. -/

namespace Sys2Proof.Machine

open Sys2Proof

/-- An access of `n` bytes at relative offset `off` of a window passes the end of the record (R272). -/
def passesEnd (c : Cfg) (w : Window) (off n : Nat) : Bool := decide (mailboxSize < windowBase c w + off + n)

/-- `mbWrite(w, off, bytes)` (R271, R272). -/
def Mbmp.write (c : Cfg) (m : Mbmp) (w : Window) (off : Nat) (bytes : List Byte) : Mbmp :=
  if passesEnd c w off bytes.length then m.raise (.mbBounds w off bytes.length)
  else { m with mb := mbWriteBytes m.mb (windowBase c w + off) bytes }

/-- `mbRead(w, off, n)`: the bytes returned and the state after (R272, R273). -/
def Mbmp.read (c : Cfg) (m : Mbmp) (w : Window) (off n : Nat) : List Byte × Mbmp :=
  if passesEnd c w off n then (List.replicate n 0, m.raise (.mbBounds w off n))
  else (mbReadBytes m.mb (windowBase c w + off) n, m)

/-- 28 zero bytes. -/
def zeroResult : List Byte := List.replicate 28 0

/-- `MB.GetDIMMSize`: the memory size of the profile's storage medium, in the record's byte order, the rest zero (R281). -/
def dimmSizeResult (c : Cfg) : List Byte :=
  bytes32 c.mb.endian (Config.dimmSize c.profile.storageMedium) ++ List.replicate 24 0

/-- `MB.GetStatus` and `MB.SerialInit`: what `MbResult` answers (R282). -/
def openResult (c : Cfg) (code : Word16) (inb : List Byte) : List Byte := (Config.mbResult code inb c.profile).toList

/-- A socket command: the oracle's answer, or 28 zero bytes where there is no oracle (R283). -/
def socketResult (sock : Option (Vector Byte 28)) : List Byte :=
  match sock with
  | some r => r.toList
  | none => zeroResult

/-- The event of a socket command run with no oracle (R283). -/
def socketEvent (code : Word16) (sock : Option (Vector Byte 28)) : List MbEvent :=
  match sock with
  | some _ => []
  | none => [.mbSocketStub code]

/-- `Result(code, in)` and the events it raises (R278). -/
def mbResultOf (c : Cfg) (code : Word16) (inb : List Byte) (sock : Option (Vector Byte 28)) : List Byte × List MbEvent :=
  match mbOpOf c code with
  | some .getDIMMSize => (dimmSizeResult c, [])
  | some .getStatus => (openResult c code inb, [])
  | some .accept => (socketResult sock, socketEvent code sock)
  | some .bind => (socketResult sock, socketEvent code sock)
  | some .connect => (socketResult sock, socketEvent code sock)
  | some .inetAddr => (socketResult sock, socketEvent code sock)
  | some .listen => (socketResult sock, socketEvent code sock)
  | some .recv => (socketResult sock, socketEvent code sock)
  | some .send => (socketResult sock, socketEvent code sock)
  | some .socket => (socketResult sock, socketEvent code sock)
  | some .select => (socketResult sock, socketEvent code sock)
  | some .setSockOpt => (socketResult sock, socketEvent code sock)
  | some .setTimeOuts => (socketResult sock, socketEvent code sock)
  | some .getLastError => (socketResult sock, socketEvent code sock)
  | some .modifyMyIPaddr => (socketResult sock, socketEvent code sock)
  | some .serialInit => (openResult c code inb, [])
  | none => (zeroResult, [.mbUnhandled code])

/-- `out[MB_DONE_OFF] <- out[MB_DONE_OFF] | MB_DONE_MASK` (R279). -/
def setDone (c : Cfg) (out : List Byte) : List Byte := out.modify c.mb.doneOff (· ||| c.mb.doneMask)

/-- The outbound region an execute step writes: the echo of inbound bytes 0 to 3, the result, the completion bit (R276 to
R279). -/
def outboundBytes (c : Cfg) (inb result : List Byte) : List Byte := setDone c (inb.take 4 ++ result)

/-- `mbExecute(w)` (R274): snapshot `IN`, read the code, write `OUT`, clear `IN`, raise the interrupt. -/
def Mbmp.execute (c : Cfg) (m : Mbmp) (w : Window) (sock : Option (Vector Byte 28)) : Mbmp :=
  let inb := mbReadBytes m.mb (inBase c w) regionSize
  let code := codeOf c inb
  let (result, events) := mbResultOf c code inb sock
  let m1 := { m with log := m.log ++ events }
  let m2 := { m1 with mb := mbWriteBytes m1.mb (outBase c w) (outboundBytes c inb result) }
  let m3 := { m2 with mb := mbWriteBytes m2.mb (inBase c w) (List.replicate regionSize 0) }
  m3.raiseInterrupt (windowInterrupt c w)

/-- `mbWrite` (R271). -/
def execMbWrite (w : Window) (off : Nat) (bytes : List Byte) (s : State) : Answer :=
  .next (s.withMbmp (s.mbmp.write s.cfg w off bytes) .none)

/-- `mbRead` (R273). -/
def execMbRead (w : Window) (off n : Nat) (s : State) : Answer :=
  let (bytes, m) := s.mbmp.read s.cfg w off n
  .next (s.withMbmp m (.bytes bytes))

/-- `mbExecute` (R274). -/
def execMbExecute (w : Window) (sock : Option (Vector Byte 28)) (s : State) : Answer :=
  .next (s.withMbmp (s.mbmp.execute s.cfg w sock) .none)

end Sys2Proof.Machine
end

