-- ==== Sys2Proof/Machine/MailboxCommands.lean ====
section
/-! DEFINITION. The mailbox commands as instructions: the write of the inbound region of a window and the execute step of
that window, the sequence of R287 (log entry 5). What each command answers is its case of `mbResultOf`. -/

namespace Sys2Proof.Machine

open Sys2Proof

/-- The write of an inbound region, then the execute step (R287). -/
def mailboxCall (w : Window) (code : Word16) (rest : List Byte) (sock : Option (Vector Byte 28)) (s : State) : Answer :=
  .next (s.withMbmp ((s.mbmp.write s.cfg w 0 (inboundBytes s.cfg code rest)).execute s.cfg w sock) .none)

/-- `MB.GetDIMMSize` (R281). -/
def execMbGetDIMMSize (w : Window) (rest : List Byte) (s : State) : Answer :=
  mailboxCall w s.cfg.mb.mbc.getDIMMSize rest none s

/-- `MB.GetStatus` (R282). -/
def execMbGetStatus (w : Window) (rest : List Byte) (s : State) : Answer :=
  mailboxCall w s.cfg.mb.mbc.getStatus rest none s

/-- `MB.SerialInit` (R282). -/
def execMbSerialInit (w : Window) (rest : List Byte) (s : State) : Answer :=
  mailboxCall w s.cfg.mb.mbc.serialInit rest none s

/-- `MB.Accept` (R283). -/
def execMbAccept (w : Window) (rest : List Byte) (sock : Option (Vector Byte 28)) (s : State) : Answer :=
  mailboxCall w s.cfg.mb.mbc.accept rest sock s

/-- `MB.Bind` (R283). -/
def execMbBind (w : Window) (rest : List Byte) (sock : Option (Vector Byte 28)) (s : State) : Answer :=
  mailboxCall w s.cfg.mb.mbc.bind rest sock s

/-- `MB.Connect` (R283). -/
def execMbConnect (w : Window) (rest : List Byte) (sock : Option (Vector Byte 28)) (s : State) : Answer :=
  mailboxCall w s.cfg.mb.mbc.connect rest sock s

/-- `MB.InetAddr` (R283). -/
def execMbInetAddr (w : Window) (rest : List Byte) (sock : Option (Vector Byte 28)) (s : State) : Answer :=
  mailboxCall w s.cfg.mb.mbc.inetAddr rest sock s

/-- `MB.Listen` (R283). -/
def execMbListen (w : Window) (rest : List Byte) (sock : Option (Vector Byte 28)) (s : State) : Answer :=
  mailboxCall w s.cfg.mb.mbc.listen rest sock s

/-- `MB.Recv` (R283). -/
def execMbRecv (w : Window) (rest : List Byte) (sock : Option (Vector Byte 28)) (s : State) : Answer :=
  mailboxCall w s.cfg.mb.mbc.recv rest sock s

/-- `MB.Send` (R283). -/
def execMbSend (w : Window) (rest : List Byte) (sock : Option (Vector Byte 28)) (s : State) : Answer :=
  mailboxCall w s.cfg.mb.mbc.send rest sock s

/-- `MB.Socket` (R283). -/
def execMbSocket (w : Window) (rest : List Byte) (sock : Option (Vector Byte 28)) (s : State) : Answer :=
  mailboxCall w s.cfg.mb.mbc.socket rest sock s

/-- `MB.Select` (R283). -/
def execMbSelect (w : Window) (rest : List Byte) (sock : Option (Vector Byte 28)) (s : State) : Answer :=
  mailboxCall w s.cfg.mb.mbc.select rest sock s

/-- `MB.SetSockOpt` (R283). -/
def execMbSetSockOpt (w : Window) (rest : List Byte) (sock : Option (Vector Byte 28)) (s : State) : Answer :=
  mailboxCall w s.cfg.mb.mbc.setSockOpt rest sock s

/-- `MB.SetTimeOuts` (R283). -/
def execMbSetTimeOuts (w : Window) (rest : List Byte) (sock : Option (Vector Byte 28)) (s : State) : Answer :=
  mailboxCall w s.cfg.mb.mbc.setTimeOuts rest sock s

/-- `MB.GetLastError` (R283). -/
def execMbGetLastError (w : Window) (rest : List Byte) (sock : Option (Vector Byte 28)) (s : State) : Answer :=
  mailboxCall w s.cfg.mb.mbc.getLastError rest sock s

/-- `MB.ModifyMyIPaddr` (R283). -/
def execMbModifyMyIPaddr (w : Window) (rest : List Byte) (sock : Option (Vector Byte 28)) (s : State) : Answer :=
  mailboxCall w s.cfg.mb.mbc.modifyMyIPaddr rest sock s

/-- A code outside the map (R284). -/
def execMbUnhandled (w : Window) (code : Word16) (rest : List Byte) (s : State) : Answer := mailboxCall w code rest none s

end Sys2Proof.Machine
end

