-- ==== Sys2Proof/Machine/ResetOps.lean ====
section
/-! DEFINITION. The `reset` operation of one block (spec/70_reset_and_hazards.md R330, R331). -/

namespace Sys2Proof.Machine

open Sys2Proof

/-- Reset of the BMSC: the table of R35; `BK` keeps its contents (R331). -/
def Bmsc.resetBlock (c : Cfg) (b : Bmsc) : Bmsc := { Bmsc.reset c with bk := b.bk }

/-- Reset of the JVSC: the table of R49; the images `CARD` and `ICC` keep their contents (R331). -/
def Jvsc.resetBlock (c : Cfg) (j : Jvsc) : Jvsc :=
  { Jvsc.reset c with
    card := { CardState.reset with image := j.card.image }
    iccard := { ICCardState.reset with pages := j.iccard.pages } }

/-- `reset(block)` (R330). -/
def execReset (block : Block) (s : State) : Answer :=
  match block with
  | .bmsc => .next (s.withBmsc (s.bmsc.resetBlock s.cfg) .none)
  | .jvsc => .next (s.withJvsc (s.jvsc.resetBlock s.cfg) .none)
  | .mbmp => .next (s.withMbmp Mbmp.reset .none)

end Sys2Proof.Machine
end

