-- ==== Sys2Proof/Machine/Dispatch.lean ====
section
/-! DEFINITION. One arm per instruction, each one direct call of its meaning. -/

namespace Sys2Proof.Machine

open Sys2Proof

/-- The meaning of an instruction. -/
def exec (i : Instr) (s : State) : Host.Outcome State Fault Refusal :=
  match i with
  | .backupOffsetSet off16 chk stream => Sys2Proof.Machine.execBackupOffsetSet off16 chk stream s
  | .backupWrite d u2 chk stream => Sys2Proof.Machine.execBackupWrite d u2 chk stream s
  | .backupRead u1 u2 chk stream => Sys2Proof.Machine.execBackupRead u1 u2 chk stream s
  | .dmaOffsetLengthSet off16 len8 stream => Sys2Proof.Machine.execDmaOffsetLengthSet off16 len8 stream s
  | .readISR u1 u2 chk stream => Sys2Proof.Machine.execReadISR u1 u2 chk stream s
  | .writeISR v u2 chk stream => Sys2Proof.Machine.execWriteISR v u2 chk stream s
  | .readIMR u1 u2 chk stream => Sys2Proof.Machine.execReadIMR u1 u2 chk stream s
  | .writeIMR v u2 chk stream => Sys2Proof.Machine.execWriteIMR v u2 chk stream s
  | .writeLANCNT a b chk stream => Sys2Proof.Machine.execWriteLANCNT a b chk stream s
  | .serialID u2 u3 stream => Sys2Proof.Machine.execSerialID u2 u3 stream s
  | .bmUnhandled op p1 p2 chk stream => Sys2Proof.Machine.execBmUnhandled op p1 p2 chk stream s
  | .setChipSelect level => Sys2Proof.Machine.execSetChipSelect level s
  | .transferByte io => Sys2Proof.Machine.execTransferByte io s
  | .dmaWrite addr len gm => Sys2Proof.Machine.execDmaWrite addr len gm s
  | .dmaRead addr len gm => Sys2Proof.Machine.execDmaRead addr len gm s
  | .pollInterrupt => Sys2Proof.Machine.execPollInterrupt s
  | .reset block => Sys2Proof.Machine.execReset block s
  | .runBuffer bytes pad => Sys2Proof.Machine.execRunBuffer bytes pad s
  | .siReset rest => Sys2Proof.Machine.execSiReset rest s
  | .siCommand chunks pad => Sys2Proof.Machine.execSiCommand chunks pad s
  | .siUnhandled op rest => Sys2Proof.Machine.execSiUnhandled op rest s
  | .chJVS d pad => Sys2Proof.Machine.execChJVS d pad s
  | .chCard d => Sys2Proof.Machine.execChCard d s
  | .chICCard d => Sys2Proof.Machine.execChICCard d s
  | .chUnhandled cop d => Sys2Proof.Machine.execChUnhandled cop d s
  | .jBoardID node => Sys2Proof.Machine.execJBoardID node s
  | .jCommandRev node => Sys2Proof.Machine.execJCommandRev node s
  | .jJVRev node => Sys2Proof.Machine.execJJVRev node s
  | .jCommRev node => Sys2Proof.Machine.execJCommRev node s
  | .jCapabilities node => Sys2Proof.Machine.execJCapabilities node s
  | .jSwitchInput node players bpp pad => Sys2Proof.Machine.execJSwitchInput node players bpp pad s
  | .jCoinInput node slots pad => Sys2Proof.Machine.execJCoinInput node slots pad s
  | .jAnalogInput node ch pad => Sys2Proof.Machine.execJAnalogInput node ch pad s
  | .jPositionInput node ch pad => Sys2Proof.Machine.execJPositionInput node ch pad s
  | .jCoinSub node slot hi lo => Sys2Proof.Machine.execJCoinSub node slot hi lo s
  | .jDriverOutput node d => Sys2Proof.Machine.execJDriverOutput node d s
  | .jCoinAdd node slot hi lo => Sys2Proof.Machine.execJCoinAdd node slot hi lo s
  | .jNAMCO node tail => Sys2Proof.Machine.execJNAMCO node tail s
  | .jReset node magic => Sys2Proof.Machine.execJReset node magic s
  | .jSetAddress node addr => Sys2Proof.Machine.execJSetAddress node addr s
  | .jUnhandled node jop tail => Sys2Proof.Machine.execJUnhandled node jop tail s
  | .mbWrite w off bytes => Sys2Proof.Machine.execMbWrite w off bytes s
  | .mbRead w off n => Sys2Proof.Machine.execMbRead w off n s
  | .mbExecute w sock => Sys2Proof.Machine.execMbExecute w sock s
  | .mbGetDIMMSize w rest => Sys2Proof.Machine.execMbGetDIMMSize w rest s
  | .mbGetStatus w rest => Sys2Proof.Machine.execMbGetStatus w rest s
  | .mbAccept w rest sock => Sys2Proof.Machine.execMbAccept w rest sock s
  | .mbBind w rest sock => Sys2Proof.Machine.execMbBind w rest sock s
  | .mbConnect w rest sock => Sys2Proof.Machine.execMbConnect w rest sock s
  | .mbInetAddr w rest sock => Sys2Proof.Machine.execMbInetAddr w rest sock s
  | .mbListen w rest sock => Sys2Proof.Machine.execMbListen w rest sock s
  | .mbRecv w rest sock => Sys2Proof.Machine.execMbRecv w rest sock s
  | .mbSend w rest sock => Sys2Proof.Machine.execMbSend w rest sock s
  | .mbSocket w rest sock => Sys2Proof.Machine.execMbSocket w rest sock s
  | .mbSelect w rest sock => Sys2Proof.Machine.execMbSelect w rest sock s
  | .mbSetSockOpt w rest sock => Sys2Proof.Machine.execMbSetSockOpt w rest sock s
  | .mbSetTimeOuts w rest sock => Sys2Proof.Machine.execMbSetTimeOuts w rest sock s
  | .mbGetLastError w rest sock => Sys2Proof.Machine.execMbGetLastError w rest sock s
  | .mbModifyMyIPaddr w rest sock => Sys2Proof.Machine.execMbModifyMyIPaddr w rest sock s
  | .mbSerialInit w rest => Sys2Proof.Machine.execMbSerialInit w rest s
  | .mbUnhandled w code rest => Sys2Proof.Machine.execMbUnhandled w code rest s

end Sys2Proof.Machine
end

