-- ==== Sys2Proof/Machine/Step.lean ====
section
/-! DEFINITION. One step of the machine: the oldest pending request is decoded and its instruction run to its end (R12, R80).
With nothing pending the blocks do nothing (R317). Log entry 1 says how a program comes to run. -/

namespace Sys2Proof.Machine

open Sys2Proof

/-- One step. A configuration that breaks a side condition is refused (U12), and so is a request whose bytes are no
instruction. -/
def step (s : State) : Host.Outcome State Fault Refusal :=
  match s.pending with
  | [] => if s.cfg.legal then .next s else .refused .illegalConfig
  | r :: rest =>
    if s.cfg.legal then
      match decode s.cfg r with
      | .ok i => exec i { s with pending := rest }
      | .error e => .refused (.malformedRequest e)
    else .refused .illegalConfig

/-- The instruction of a table word, presented as the only pending request. -/
def State.withFetchWord (s : State) (nbits w : Nat) : State := { s with pending := [tableRequest s.cfg nbits w] }

end Sys2Proof.Machine
end

