-- ==== Sys2Proof/Safety.lean ====
section
/-! DEFINITION. The terms the statements use: the invariant of the three blocks, the block an instruction acts on, several
operations one after another, and the closed forms of what a BMSC frame, a JVS reply and a mailbox reply leave behind. -/

namespace Sys2Proof.Machine

open Sys2Proof

/-- The addresses a memory lists are below a bound. -/
def Memory.below (bound : Nat) (m : Memory) : Bool := m.cells.all fun x => decide (x.1 < bound)

/-- The BMSC invariant: offsets inside the store (R24, R25), the poll count in its range (R30, `90_conflicts.md` C8), the
store in canonical form and inside its size (R31). -/
def Bmsc.inv (c : Cfg) (b : Bmsc) : Bool :=
  decide (b.cursor.toNat < c.bm.backupSize) && decide (b.dmaOff.toNat < c.bm.backupSize)
    && decide (b.irqCount ≤ c.bm.irqPollLimit + 1) && decide (b.irqPending = true → b.irqCount ≤ c.bm.irqPollLimit)
    && b.bk.wf none && b.bk.below c.bm.backupSize

/-- The JVSC invariant: a counter and a level per coin slot, no counter above `COIN_MAX` (R42); the card images in canonical
form, the IC-card pages inside their 2048 bytes (R48, R70). -/
def Jvsc.inv (c : Cfg) (j : Jvsc) : Bool :=
  decide (j.coinCount.length = c.jv.coinSlots) && decide (j.coinPrev.length = c.jv.coinSlots)
    && (j.coinCount.all fun n => decide (n ≤ c.jv.coinMax))
    && j.card.image.wf none && j.iccard.pages.wf none && j.iccard.pages.below iccSize

/-- The MBMP invariant: the record in canonical form and inside its 0x300 bytes (R50). -/
def Mbmp.inv (m : Mbmp) : Bool := m.mb.wf (some 0) && m.mb.below mailboxSize

/-- The invariant of the machine: a legal configuration (U12) and each block's own. -/
def State.inv (s : State) : Bool :=
  s.cfg.legal && s.bmsc.inv s.cfg && s.jvsc.inv s.cfg && s.mbmp.inv

/-! ## Which block an instruction acts on (R318) -/

/-- The block whose bus carries a request. -/
def requestBlock (r : Request) : Block :=
  match r with
  | .setChipSelect _ => .bmsc
  | .transferByte _ => .bmsc
  | .dmaWrite _ _ _ => .bmsc
  | .dmaRead _ _ _ => .bmsc
  | .pollInterrupt => .bmsc
  | .reset b => b
  | .runBuffer _ _ => .jvsc
  | .mbWrite _ _ _ => .mbmp
  | .mbRead _ _ _ => .mbmp
  | .mbExecute _ _ => .mbmp
  | .frame _ => .bmsc
  | .serial _ _ => .jvsc
  | .chunk _ _ => .jvsc
  | .payload _ _ _ => .jvsc
  | .inbound _ _ _ => .mbmp

/-- The block an instruction acts on: the one whose bus carries it. -/
def blockOf (i : Instr) : Block := requestBlock (encode Cfg.default i)

/-! ## Several operations one after another -/

/-- Instructions one after another, stopping at the first stop. -/
def execAll : List Instr → State → Answer
  | [], s => .next s
  | i :: is, s =>
    match exec i s with
    | .next t => execAll is t
    | .fault f => .fault f
    | .refused r => .refused r

/-- The bus operations of a transaction (R124): assert, one byte slot per byte, deassert. -/
def slotOperations (ins : List Byte) : List Instr :=
  .setChipSelect true :: (ins.map fun v => .transferByte (.byte v)) ++ [.setChipSelect false]

/-- The clock periods of a bit-serial transfer (R146): the bits driven and the state after. -/
def Bmsc.shiftBits (c : Cfg) (b : Bmsc) : List Bool → List Bool × Bmsc
  | [] => ([], b)
  | v :: vs =>
    let (out, b') := b.shiftBit c v
    let (outs, b'') := b'.shiftBits c vs
    (out :: outs, b'')

/-- The bits of a byte in the order they cross the wire (R147). -/
def wireBits (o : BitOrder) (v : Byte) : List Bool :=
  match o with
  | .msbFirst => [v.getLsbD 7, v.getLsbD 6, v.getLsbD 5, v.getLsbD 4, v.getLsbD 3, v.getLsbD 2, v.getLsbD 1, v.getLsbD 0]
  | .lsbFirst => [v.getLsbD 0, v.getLsbD 1, v.getLsbD 2, v.getLsbD 3, v.getLsbD 4, v.getLsbD 5, v.getLsbD 6, v.getLsbD 7]

/-- Polls one after another: the answers and the state after (R308). -/
def Bmsc.polls (c : Cfg) (b : Bmsc) : Nat → List Bool × Bmsc
  | 0 => ([], b)
  | n + 1 =>
    let (a, b') := b.poll c
    let (as, b'') := b'.polls c n
    (a :: as, b'')

/-! ## What a BMSC frame leaves behind -/

/-- The event of slot 3 (R138): none where the check byte is right. -/
def checkEvents (c : Cfg) (op p1 p2 chk : Byte) : List BmEvent :=
  if chk = checkByte c op p1 p2 then [] else [.crcMismatch op p1 p2 chk (checkByte c op p1 p2)]

/-- A whole transaction outside ID mode, but for its command's own effect: the frame latched (R133), `4 + 1 + stream` slots
counted (R135), the check made (R138), chip-select deasserted (R130). -/
def Bmsc.framed (c : Cfg) (b : Bmsc) (op p1 p2 chk : Byte) (stream : Nat) : Bmsc :=
  { b with cs := false, pos := 5 + stream, x0 := op, x1 := p1, x2 := p2, x3 := chk, bitcnt := 0,
           log := b.log ++ checkEvents c op p1 p2 chk }

/-- The bytes of the slots of a transaction outside ID mode: four idle bytes (R134), then the command's (R140, R142). -/
def framedOut (c : Cfg) (data : List Byte) : Result := .bytes (List.replicate 4 c.bm.idleByte ++ data)

/-! ## What a JVS reply leaves behind -/

/-- The reply frame of a reply payload in closed form (R218), nothing where the length is refused (R216). -/
def replyFrame (c : Cfg) (p : List Byte) : List Byte :=
  let len := byteOf (p.length + 1)
  if 0xD0 ≤ p.length + 1 then []
  else
    c.jv.sync :: jvsHeader c.jv.hdrOrder len c.jv.hostNode ++ stuff c.jv p ++ stuff c.jv [jvsSum len c.jv.hostNode p]

/-- The reply chunk of a reply frame (R219): none where its size does not fit a byte. -/
def replyChunk (c : Cfg) (p : List Byte) : List Byte :=
  if 255 < (replyFrame c p).length then [] else chunkBytes c.jv.chJvs (replyFrame c p)

/-- The events of framing and wrapping a reply payload (R216, R219). -/
def replyEvents (c : Cfg) (p : List Byte) : List JvEvent :=
  if 0xD0 ≤ p.length + 1 then [.jvsReplyTooLong p.length]
  else if 255 < (replyFrame c p).length then [.replyChunkOverflow c.jv.chJvs (replyFrame c p).length]
  else []

/-- A call whose one frame was answered by the reply payload `p`: the reply held back for the next call (R221), the events of
framing it; `x` and `e` are what is left in the transient working state. -/
def Jvsc.served (c : Cfg) (j : Jvsc) (p : List Byte) (x : Rx) (e : Enc) : Jvsc :=
  { j with rx := x, enc := e, rp := p, cur := replyChunk c p, prevReply := replyChunk c p, log := j.log ++ replyEvents c p }

/-- What a call on the command path returns: the reply of the call before (R221). -/
def delayedReply (s : State) : Result := .reply s.jvsc.prevReply s.jvsc.prevReply.length

/-- The instruction is one opcode group of a payload received from `node` with the sample `pad`, and its argument count
does not depend on the profile. -/
def isGroup (node : Byte) (pad : PadStatus) (i : Instr) : Bool :=
  match i with
  | .jBoardID n => decide (n = node)
  | .jCommandRev n => decide (n = node)
  | .jJVRev n => decide (n = node)
  | .jCommRev n => decide (n = node)
  | .jCapabilities n => decide (n = node)
  | .jSwitchInput n _ _ p => decide (n = node ∧ p = pad)
  | .jCoinInput n _ p => decide (n = node ∧ p = pad)
  | .jAnalogInput n _ p => decide (n = node ∧ p = pad)
  | .jPositionInput n _ p => decide (n = node ∧ p = pad)
  | .jCoinSub n _ _ _ => decide (n = node)
  | .jDriverOutput n d => decide (n = node ∧ d.length ≤ 255)
  | .jCoinAdd n _ _ _ => decide (n = node)
  | .jReset n _ => decide (n = node)
  | .jSetAddress n _ => decide (n = node)
  | _ => false

/-! ## What an execute step leaves behind -/

/-- Byte `k` of the outbound region after an execute step (R276 to R279): the echo of inbound bytes 0 to 3, then the result,
with the completion mask set in its byte. -/
def answerByte (c : Cfg) (inb result : List Byte) (k : Nat) : Byte :=
  let v := if k < 4 then inb.getD k 0 else result.getD (k - 4) 0
  if k = c.mb.doneOff then v ||| c.mb.doneMask else v

/-- `m'` is `m` after an execute step of window `w` that found the inbound region `inb` and answered it with `result` and
`events` (R274, R280, R285). -/
structure Mbmp.Answered (c : Cfg) (m m' : Mbmp) (w : Window) (inb result : List Byte) (events : List MbEvent) : Prop where
  inbound : ∀ k, k < regionSize → mbByte m'.mb (inBase c w + k) = 0
  outbound : ∀ k, k < regionSize → mbByte m'.mb (outBase c w + k) = answerByte c inb result k
  elsewhere : ∀ a, a < windowBase c w ∨ windowBase c w + 2 * regionSize ≤ a → mbByte m'.mb a = mbByte m.mb a
  log : m'.log = m.log ++ events
  intOut : m'.intOut = m.intOut ++ [windowInterrupt c w]

end Sys2Proof.Machine
end

