-- ==== Sys2Proof/WellFormed.lean ====
section
/-! DEFINITION. Well-formed instructions: the operands that the formats of spec/30_encoding.md can carry. -/

namespace Sys2Proof

/-- The vendor opcode's bytes are one group: the profile consumes all of them, or asks for more (R236, R244). -/
def namcoWhole (c : Cfg) (tail : List Byte) : Bool :=
  match Config.namco c.profile tail with
  | none => true
  | some (consumed, _) => decide (tail.length ≤ consumed)

/-- The bytes of a mailbox command besides its code (R120). -/
def restWhole (rest : List Byte) : Bool := decide (rest.length = 30)

/-- The operands fit the instruction's format under a configuration: an unhandled opcode is outside its map, a chunk's
count and a frame's length fit a byte, an inbound region is whole. -/
def Instr.wf (c : Cfg) (i : Instr) : Bool :=
  match i with
  | .backupOffsetSet _ _ _ => true
  | .backupWrite _ _ _ _ => true
  | .backupRead _ _ _ _ => true
  | .dmaOffsetLengthSet _ _ _ => true
  | .readISR _ _ _ _ => true
  | .writeISR _ _ _ _ => true
  | .readIMR _ _ _ _ => true
  | .writeIMR _ _ _ _ => true
  | .writeLANCNT _ _ _ _ => true
  | .serialID _ _ _ => true
  | .bmUnhandled op p1 _ _ _ => decide (bmOpOf c op = none) && decide ¬(op = 0 ∧ p1 = 0)
  | .setChipSelect _ => true
  | .transferByte _ => true
  | .dmaWrite _ _ _ => true
  | .dmaRead _ _ _ => true
  | .pollInterrupt => true
  | .reset _ => true
  | .runBuffer _ _ => true
  | .siReset _ => true
  | .siCommand _ _ => true
  | .siUnhandled op _ => decide (op ≠ c.jv.siOpReset) && decide (op ≠ c.jv.siOpCommand)
  | .chJVS d _ => decide (d.length ≤ 255)
  | .chCard d => decide (d.length ≤ 255)
  | .chICCard d => decide (d.length ≤ 255)
  | .chUnhandled cop d => decide (chOpOf c cop = none) && decide (d.length ≤ 255)
  | .jBoardID node => jvsFits c.jv node (payloadBytes c (.jBoardID node))
  | .jCommandRev node => jvsFits c.jv node (payloadBytes c (.jCommandRev node))
  | .jJVRev node => jvsFits c.jv node (payloadBytes c (.jJVRev node))
  | .jCommRev node => jvsFits c.jv node (payloadBytes c (.jCommRev node))
  | .jCapabilities node => jvsFits c.jv node (payloadBytes c (.jCapabilities node))
  | .jSwitchInput node players bpp pad => jvsFits c.jv node (payloadBytes c (.jSwitchInput node players bpp pad))
  | .jCoinInput node slots pad => jvsFits c.jv node (payloadBytes c (.jCoinInput node slots pad))
  | .jAnalogInput node ch pad => jvsFits c.jv node (payloadBytes c (.jAnalogInput node ch pad))
  | .jPositionInput node ch pad => jvsFits c.jv node (payloadBytes c (.jPositionInput node ch pad))
  | .jCoinSub node slot hi lo => jvsFits c.jv node (payloadBytes c (.jCoinSub node slot hi lo))
  | .jDriverOutput node d => decide (d.length ≤ 255) && jvsFits c.jv node (payloadBytes c (.jDriverOutput node d))
  | .jCoinAdd node slot hi lo => jvsFits c.jv node (payloadBytes c (.jCoinAdd node slot hi lo))
  | .jNAMCO node tail => namcoWhole c tail && jvsFits c.jv node (payloadBytes c (.jNAMCO node tail))
  | .jReset node magic => jvsFits c.jv node (payloadBytes c (.jReset node magic))
  | .jSetAddress node addr => jvsFits c.jv node (payloadBytes c (.jSetAddress node addr))
  | .jUnhandled node jop tail =>
    decide (jopOf c jop = none) && jvsFits c.jv node (payloadBytes c (.jUnhandled node jop tail))
  | .mbWrite _ _ _ => true
  | .mbRead _ _ _ => true
  | .mbExecute _ _ => true
  | .mbGetDIMMSize _ rest => restWhole rest
  | .mbGetStatus _ rest => restWhole rest
  | .mbAccept _ rest _ => restWhole rest
  | .mbBind _ rest _ => restWhole rest
  | .mbConnect _ rest _ => restWhole rest
  | .mbInetAddr _ rest _ => restWhole rest
  | .mbListen _ rest _ => restWhole rest
  | .mbRecv _ rest _ => restWhole rest
  | .mbSend _ rest _ => restWhole rest
  | .mbSocket _ rest _ => restWhole rest
  | .mbSelect _ rest _ => restWhole rest
  | .mbSetSockOpt _ rest _ => restWhole rest
  | .mbSetTimeOuts _ rest _ => restWhole rest
  | .mbGetLastError _ rest _ => restWhole rest
  | .mbModifyMyIPaddr _ rest _ => restWhole rest
  | .mbSerialInit _ rest => restWhole rest
  | .mbUnhandled _ code rest => decide (mbOpOf c code = none) && restWhole rest

end Sys2Proof
end

