-- ==== Sys2Proof/Certificates/Slice0/Obligations.lean ====
section
/-! DEFINITION. The statements for the provers, each over every configuration, since a state carries its own. -/

open Sys2Proof Sys2Proof.Machine

/-! ## BMSC commands -/

/-- R160, R163, R164: the offset command sets the cursor, the DMA command the DMA offset and length; acknowledge bytes from
slot 4 on, nothing else changed but what every frame leaves. -/
def Obligations.OffsetCommandsSetTheirRegisters : Prop :=
  ∀ (off16 : Word16) (chk len8 : Byte) (n : Nat) (s : State), s.cfg.legal = true →
    exec (.backupOffsetSet off16 chk n) s =
      .next (s.withBmsc
        { s.bmsc.framed s.cfg s.cfg.bm.opOffsetSet (hiByte off16) (loByte off16) chk n with
          cursor := BitVec.ofNat 16 (off16.toNat % s.cfg.bm.backupSize) }
        (framedOut s.cfg (List.replicate (n + 1) s.cfg.bm.ackByte)))
    ∧ exec (.dmaOffsetLengthSet off16 len8 n) s =
      .next (s.withBmsc
        { s.bmsc.framed s.cfg s.cfg.bm.opDmaSet (hiByte off16) (loByte off16) len8 n with
          dmaOff := BitVec.ofNat 16 (off16.toNat % s.cfg.bm.backupSize), dmaLen := len8 }
        (framedOut s.cfg (List.replicate (n + 1) s.cfg.bm.ackByte)))

/-- R161, R164: one byte stored at the cursor however many slots follow, the cursor advanced modulo the size; every other
byte of the store reads as before. -/
def Obligations.BackupWriteStoresOneByte : Prop :=
  ∀ (d u2 chk : Byte) (n : Nat) (s : State), s.cfg.legal = true →
    ∃ bk : Memory,
      exec (.backupWrite d u2 chk n) s =
        .next (s.withBmsc
          { s.bmsc.framed s.cfg s.cfg.bm.opWrite d u2 chk n with
            bk := bk, cursor := BitVec.ofNat 16 ((s.bmsc.cursor.toNat + 1) % s.cfg.bm.backupSize) }
          (framedOut s.cfg (List.replicate (n + 1) s.cfg.bm.ackByte)))
      ∧ ∀ a : Nat, a < s.cfg.bm.backupSize →
        { s.bmsc with bk := bk }.bkRead s.cfg a =
          if a = s.bmsc.cursor.toNat % s.cfg.bm.backupSize then d else s.bmsc.bkRead s.cfg a

/-- R162: slot `4 + k` returns the byte at the cursor plus `k`, modulo the size, and the cursor advances once a data slot;
the store does not change. -/
def Obligations.BackupReadStreamsFromCursor : Prop :=
  ∀ (u1 u2 chk : Byte) (n : Nat) (s : State), s.cfg.legal = true →
    exec (.backupRead u1 u2 chk n) s =
      .next (s.withBmsc
        { s.bmsc.framed s.cfg s.cfg.bm.opRead u1 u2 chk n with
          cursor := BitVec.ofNat 16 ((s.bmsc.cursor.toNat + (n + 1)) % s.cfg.bm.backupSize) }
        (framedOut s.cfg ((List.range (n + 1)).map fun k =>
          s.bmsc.bkRead s.cfg ((s.bmsc.cursor.toNat + k) % s.cfg.bm.backupSize))))

/-- The worked example of R162, for every offset, byte and store: what a write put at an offset is what a read from that
offset returns first, whatever the check bytes and the slots clocked after the write. -/
def Obligations.BackupByteReadsBack : Prop :=
  ∀ (off16 : Word16) (d u2 k1 k2 k3 k4 u1 : Byte) (n m : Nat) (s : State), s.cfg.legal = true →
    ∃ (t : State) (more : List Byte),
      execAll [.backupOffsetSet off16 k1 n, .backupWrite d u2 k2 m, .backupOffsetSet off16 k3 n,
        .backupRead u1 u2 k4 m] s = .next t
      ∧ t.result = .bytes (List.replicate 4 s.cfg.bm.idleByte ++ d :: more)

/-- R180, R181, R342: slot 4 returns the status and leaves it, slot 5 returns it and clears it with the pending flag, every
later slot returns zero. -/
def Obligations.ReadISRStreamsThenClears : Prop :=
  ∀ (u1 u2 chk : Byte) (s : State), s.cfg.legal = true →
    exec (.readISR u1 u2 chk 0) s =
      .next (s.withBmsc (s.bmsc.framed s.cfg s.cfg.bm.opIsrRead u1 u2 chk 0) (framedOut s.cfg [s.bmsc.isr]))
    ∧ ∀ n : Nat,
      exec (.readISR u1 u2 chk (n + 1)) s =
        .next (s.withBmsc
          { s.bmsc.framed s.cfg s.cfg.bm.opIsrRead u1 u2 chk (n + 1) with isr := 0, irqPending := false }
          (framedOut s.cfg (s.bmsc.isr :: s.bmsc.isr :: List.replicate n 0)))

/-- R182, R183, R184, R186: plain stores of all eight bits into the status byte and into the mask byte, done once; the mask
read back in slot 4 and in every later slot with no state change. -/
def Obligations.StatusAndMaskAreStoredAndMaskRead : Prop :=
  ∀ (v u1 u2 chk : Byte) (n : Nat) (s : State), s.cfg.legal = true →
    exec (.writeISR v u2 chk n) s =
      .next (s.withBmsc { s.bmsc.framed s.cfg s.cfg.bm.opIsrWrite v u2 chk n with isr := v }
        (framedOut s.cfg (List.replicate (n + 1) s.cfg.bm.ackByte)))
    ∧ exec (.writeIMR v u2 chk n) s =
      .next (s.withBmsc { s.bmsc.framed s.cfg s.cfg.bm.opImrWrite v u2 chk n with imr := v }
        (framedOut s.cfg (List.replicate (n + 1) s.cfg.bm.ackByte)))
    ∧ exec (.readIMR u1 u2 chk n) s =
      .next (s.withBmsc (s.bmsc.framed s.cfg s.cfg.bm.opImrRead u1 u2 chk n)
        (framedOut s.cfg (List.replicate (n + 1) s.bmsc.imr)))

/-- R185, R186: the assert pattern sets the pending flag, restarts the count and sets the LAN bit; the clear pattern drops
the flag and the status; any other pair changes nothing. -/
def Obligations.LanControlDrivesInterrupt : Prop :=
  ∀ (a b chk : Byte) (n : Nat) (s : State), s.cfg.legal = true →
    exec (.writeLANCNT a b chk n) s =
      .next (s.withBmsc
        (if (a, b) = s.cfg.bm.lancntAssert then
          { s.bmsc.framed s.cfg s.cfg.bm.opLancntWrite a b chk n with
            irqPending := true, irqCount := 0, isr := s.bmsc.isr ||| s.cfg.bm.isrLan }
        else if (a, b) = s.cfg.bm.lancntClear then
          { s.bmsc.framed s.cfg s.cfg.bm.opLancntWrite a b chk n with irqPending := false, isr := 0 }
        else s.bmsc.framed s.cfg s.cfg.bm.opLancntWrite a b chk n)
        (framedOut s.cfg (List.replicate (n + 1) s.cfg.bm.ackByte)))

/-- R136, R137: the serial ID from slot 2 on, with period 4; no check, no command, no register but the latches. -/
def Obligations.SerialIDEchoesFromSlotTwo : Prop :=
  ∀ (u2 u3 : Byte) (n : Nat) (s : State),
    exec (.serialID u2 u3 n) s =
      .next (s.withBmsc
        { s.bmsc with cs := false, pos := 5 + n, x0 := 0, x1 := 0, x2 := u2, x3 := u3, bitcnt := 0 }
        (.bytes (s.cfg.bm.idleByte :: s.cfg.bm.idleByte ::
          (List.range (n + 3)).map fun k => s.cfg.bm.serialId[k % 4]'(Nat.mod_lt k (by decide)))))

/-- R141: an opcode outside the map answers the unhandled byte in every slot from 4 on and logs one event; no register but
the latches changes. -/
def Obligations.UnhandledOpcodeIsSignalled : Prop :=
  ∀ (op p1 p2 chk : Byte) (n : Nat) (s : State), (Instr.bmUnhandled op p1 p2 chk n).wf s.cfg = true →
    exec (.bmUnhandled op p1 p2 chk n) s =
      .next (s.withBmsc
        { s.bmsc.framed s.cfg op p1 p2 chk n with
          log := s.bmsc.log ++ checkEvents s.cfg op p1 p2 chk ++ [.bmUnhandled op] }
        (framedOut s.cfg (List.replicate (n + 1) s.cfg.bm.unhandledByte)))

/-! ## The expansion bus -/

/-- R130, R148: assertion resets the position and the bit count, deassertion the bit count alone; nothing else changes. -/
def Obligations.ChipSelectResetsPosition : Prop :=
  ∀ (level : Bool) (s : State),
    exec (.setChipSelect level) s =
      .next (s.withBmsc
        { s.bmsc with cs := level, pos := if level = true then 0 else s.bmsc.pos, bitcnt := 0 } .none)

/-- R131, R146: while chip-select is low a byte slot returns the idle byte, a clock period the bit 1, and nothing changes. -/
def Obligations.UnselectedTransferChangesNothing : Prop :=
  ∀ (v : Byte) (sdi : Bool) (s : State), s.bmsc.cs = false →
    exec (.transferByte (.byte v)) s = .next (s.withBmsc s.bmsc (.byte s.cfg.bm.idleByte))
    ∧ exec (.transferByte (.bit sdi)) s = .next (s.withBmsc s.bmsc (.bit true))

/-- R133, R134, R136, R138: slots 0 to 3 latch the byte received; they return the idle byte, but for the serial ID in slots
2 and 3 of ID mode; slot 3 outside ID mode logs a wrong check byte. Nothing else changes. That the slot runs and leaves the
bit count alone inside a partly shifted byte too (bit count not 0), which no rule describes, is log entry 14. -/
def Obligations.FrameSlotsLatchTheFrame : Prop :=
  ∀ (v : Byte) (s : State), s.bmsc.cs = true → s.bmsc.pos < 4 →
    let b := s.bmsc
    let id := 2 ≤ b.pos ∧ b.x0 = 0 ∧ b.x1 = 0
    exec (.transferByte (.byte v)) s =
      .next (s.withBmsc
        { b with
          x0 := if b.pos = 0 then v else b.x0
          x1 := if b.pos = 1 then v else b.x1
          x2 := if b.pos = 2 then v else b.x2
          x3 := if b.pos = 3 then v else b.x3
          pos := b.pos + 1
          log := if b.pos = 3 ∧ ¬id ∧ v ≠ checkByte s.cfg b.x0 b.x1 b.x2 then
            b.log ++ [.crcMismatch b.x0 b.x1 b.x2 v (checkByte s.cfg b.x0 b.x1 b.x2)] else b.log }
        (.byte (if id then (if b.pos = 2 then s.cfg.bm.serialId[0] else s.cfg.bm.serialId[1]) else s.cfg.bm.idleByte)))

/-- R146, R147: one clock period of a selected slot before its last: the bit driven is the next of the byte the slot
returns, loaded at the first period, the bit received is shifted in, and only the shift registers and the count change. -/
def Obligations.ClockPeriodShiftsOneBit : Prop :=
  ∀ (sdi : Bool) (s : State), s.bmsc.cs = true → s.bmsc.bitcnt ≠ 7 →
    let b := s.bmsc
    let t := if b.bitcnt = 0 then b.slotOut s.cfg else b.txSr
    (s.cfg.bm.bitOrder = .msbFirst →
      exec (.transferByte (.bit sdi)) s =
        .next (s.withBmsc
          { b with txSr := t <<< 1, rxSr := (b.rxSr <<< 1) ||| (if sdi then 1 else 0), bitcnt := b.bitcnt + 1 }
          (.bit (t.getLsbD 7))))
    ∧ (s.cfg.bm.bitOrder = .lsbFirst →
      exec (.transferByte (.bit sdi)) s =
        .next (s.withBmsc
          { b with txSr := t >>> 1, rxSr := (b.rxSr >>> 1) ||| (if sdi then 0x80 else 0), bitcnt := b.bitcnt + 1 }
          (.bit (t.getLsbD 0))))

/-- R149: eight clock periods with the bits of a byte drive the bits of the slot's byte in the same order and end in the
state of that byte slot, the bit count zero; the shift registers, which the byte level does not see (R34), hold the byte
received and zero. -/
def Obligations.EightClockPeriodsMakeOneSlot : Prop :=
  ∀ (v : Byte) (s : State), s.bmsc.cs = true → s.bmsc.bitcnt = 0 →
    ∃ (out : Byte) (t : State),
      exec (.transferByte (.byte v)) s = .next t
      ∧ t.result = .byte out
      ∧ s.bmsc.shiftBits s.cfg (wireBits s.cfg.bm.bitOrder v) =
        (wireBits s.cfg.bm.bitOrder out, { t.bmsc with rxSr := v, txSr := 0 })
      ∧ t.bmsc.bitcnt = 0

/-- R124: a BMSC mnemonic and its bus operations one after another leave the same state. -/
def Obligations.MnemonicIsItsBusOperations : Prop :=
  ∀ (i : Instr) (ins : List Byte) (s : State), encode s.cfg i = .frame ins →
    ∃ t t' : State, exec i s = .next t ∧ execAll (slotOperations ins) s = .next t'
      ∧ t = { t' with result := t.result }

/-- R143, R340: a transaction of at most four slots changes the latches, the position, the level and the log, and nothing
else; it logs at most one event. -/
def Obligations.ShortTransactionExecutesNothing : Prop :=
  ∀ (ins : List Byte) (c : Cfg) (b : Bmsc), ins.length ≤ 4 →
    ∃ (x0 x1 x2 x3 : Byte) (events : List BmEvent),
      (b.transaction c ins).2 =
        { b with cs := false, pos := ins.length, x0 := x0, x1 := x1, x2 := x2, x3 := x3, bitcnt := 0,
                 log := b.log ++ events }
      ∧ events.length ≤ 1

/-- R139: under the default of `CheckByte`, the check byte is linear over exclusive or, and has the values that the rule gives
and those of spec/95_test_vectors.md section 2.2. The function is the spec's default from general knowledge (log entry 12). -/
def Obligations.CheckByteIsLinear : Prop :=
  ∀ cfg : Cfg, cfg.bm.checkFn = .reduction →
    (∀ a b c a' b' c' : Byte,
      checkByte cfg (a ^^^ a') (b ^^^ b') (c ^^^ c') = checkByte cfg a b c ^^^ checkByte cfg a' b' c')
    ∧ ∀ x ∈ (
      [(0x00, 0x00, 0x00, 0x00), (0x00, 0x00, 0x01, 0x1B), (0x00, 0x01, 0x00, 0x5E), (0x01, 0x00, 0x00, 0xB3),
        (0x01, 0x00, 0x10, 0x18), (0x01, 0x01, 0x00, 0xED), (0x01, 0x12, 0x34, 0x12), (0x01, 0xFF, 0xFE, 0x39),
        (0x01, 0xFF, 0xFF, 0x22), (0x02, 0x11, 0x00, 0xB4), (0x02, 0x22, 0x00, 0xF4), (0x02, 0xAB, 0x00, 0xB8),
        (0x02, 0xCD, 0x00, 0x38), (0x03, 0x00, 0x00, 0xCE), (0x04, 0x00, 0x00, 0xFA), (0x05, 0x01, 0x00, 0x17),
        (0x05, 0x12, 0x34, 0xE8), (0x80, 0x00, 0x00, 0x72), (0x82, 0x00, 0x00, 0x0F), (0x83, 0x00, 0x00, 0xBC),
        (0x83, 0x5A, 0x00, 0x3B), (0x83, 0xFF, 0x00, 0xE7), (0x86, 0x00, 0x00, 0xF5), (0x87, 0x00, 0x00, 0x46),
        (0x87, 0x0F, 0x00, 0x01), (0x87, 0xA5, 0x00, 0x9A), (0xFF, 0x00, 0x00, 0xC4), (0xFF, 0x01, 0x01, 0x81),
        (0xFF, 0x02, 0x01, 0x63)] : List (Byte × Byte × Byte × Byte)),
      checkByte cfg x.1 x.2.1 x.2.2.1 = x.2.2.2

/-! ## DMA -/

/-- R165: the guest's bytes stored one after another from the DMA offset, later bytes over earlier ones, every other byte of
the store as before; the cursor ends past the last, and only it and the store change. -/
def Obligations.DmaWriteStoresGuestBytes : Prop :=
  ∀ (addr len : Nat) (gm : List Host.Cell) (vs : List Byte) (s : State), s.cfg.legal = true →
    s.bmsc.inv s.cfg = true → guestRead gm addr len = some vs →
    ∃ bk : Memory,
      exec (.dmaWrite addr len gm) s =
        .next (s.withBmsc
          { s.bmsc with bk := bk, cursor := BitVec.ofNat 16 ((s.bmsc.dmaOff.toNat + len) % s.cfg.bm.backupSize) } .none)
      ∧ (∀ i : Nat, i < len → (∀ k : Nat, i < k → k < len →
          (s.bmsc.dmaOff.toNat + k) % s.cfg.bm.backupSize ≠ (s.bmsc.dmaOff.toNat + i) % s.cfg.bm.backupSize) →
          { s.bmsc with bk := bk }.bkRead s.cfg ((s.bmsc.dmaOff.toNat + i) % s.cfg.bm.backupSize) = vs.getD i 0)
      ∧ ∀ a : Nat, a < s.cfg.bm.backupSize →
          (∀ i : Nat, i < len → (s.bmsc.dmaOff.toNat + i) % s.cfg.bm.backupSize ≠ a) →
          { s.bmsc with bk := bk }.bkRead s.cfg a = s.bmsc.bkRead s.cfg a

/-- R166: the store's bytes from the DMA offset written to the guest addresses in ascending order; the store unchanged, the
cursor past the last. -/
def Obligations.DmaReadSendsStoreBytes : Prop :=
  ∀ (addr len : Nat) (gm : List Host.Cell) (s : State), s.cfg.legal = true → s.bmsc.inv s.cfg = true →
    (guestRead gm addr len).isSome = true →
    exec (.dmaRead addr len gm) s =
      .next (s.withBmsc
        { s.bmsc with
          cursor := BitVec.ofNat 16 ((s.bmsc.dmaOff.toNat + len) % s.cfg.bm.backupSize)
          guestOut := s.bmsc.guestOut ++ (List.range len).map fun i =>
            (addr + i, s.bmsc.bkRead s.cfg ((s.bmsc.dmaOff.toNat + i) % s.cfg.bm.backupSize)) }
        .none)

/-! ## The interrupt -/

/-- R306: a poll that finds the flag answers 1, counts itself and drops the flag past the limit; a poll that does not answers
0; nothing else changes. -/
def Obligations.PollCountsAndAutoClears : Prop :=
  ∀ s : State,
    (s.bmsc.irqPending = true →
      exec .pollInterrupt s =
        .next (s.withBmsc
          { s.bmsc with irqCount := s.bmsc.irqCount + 1,
                        irqPending := if s.cfg.bm.irqPollLimit < s.bmsc.irqCount + 1 then false else true }
          (.bit true)))
    ∧ (s.bmsc.irqPending = false → exec .pollInterrupt s = .next (s.withBmsc s.bmsc (.bit false)))

/-- R308: after an assert, `IRQ_POLL_LIMIT + 1` polls answer 1, the last of them clears the flag, every later poll answers
0; the status byte and everything but the flag and the count are as they were. -/
def Obligations.CountdownEndsAfterTheLimit : Prop :=
  ∀ (c : Cfg) (b : Bmsc) (k : Nat), b.irqPending = true → b.irqCount = 0 →
    b.polls c k =
      ((List.range k).map fun i => decide (i ≤ c.bm.irqPollLimit),
        { b with irqCount := min k (c.bm.irqPollLimit + 1), irqPending := decide (k ≤ c.bm.irqPollLimit) })

/-- R187: what changes the pending flag, over every well-formed instruction: the assert and clear patterns, the status
stream, a poll past the limit, reset, and the byte slots of the first two. -/
def Obligations.PendingFlagChangesOnlyThere : Prop :=
  ∀ (i : Instr) (s t : State), s.cfg.legal = true → i.wf s.cfg = true → exec i s = .next t →
    t.bmsc.irqPending ≠ s.bmsc.irqPending →
    (∃ a b chk n, i = .writeLANCNT a b chk n ∧ ((a, b) = s.cfg.bm.lancntAssert ∨ (a, b) = s.cfg.bm.lancntClear))
    ∨ (∃ u1 u2 chk n, i = .readISR u1 u2 chk (n + 1))
    ∨ (i = .pollInterrupt ∧ s.cfg.bm.irqPollLimit < s.bmsc.irqCount + 1)
    ∨ i = .reset .bmsc
    ∨ (∃ io, i = .transferByte io ∧ s.bmsc.cs = true ∧ s.bmsc.idMode = false
        ∧ ((s.bmsc.pos = 4 ∧ s.bmsc.x0 = s.cfg.bm.opLancntWrite
            ∧ (s.bmsc.lanParams = s.cfg.bm.lancntAssert ∨ s.bmsc.lanParams = s.cfg.bm.lancntClear))
          ∨ (4 < s.bmsc.pos ∧ s.bmsc.x0 = s.cfg.bm.opIsrRead)))

/-! ## The serial bus -/

/-- R201, R203: the reset opcode returns the device ID at once and changes no state; an opcode that is neither returns an
empty reply and logs an event. The held reply is kept by both. -/
def Obligations.SerialOpcodesOutsideTheCommandPath : Prop :=
  ∀ (op : Byte) (rest : List Byte) (s : State),
    exec (.siReset rest) s = .next (s.withJvsc s.jvsc (.reply s.cfg.jv.deviceId.toList 4))
    ∧ ((Instr.siUnhandled op rest).wf s.cfg = true →
      exec (.siUnhandled op rest) s =
        .next (s.withJvsc { s.jvsc with log := s.jvsc.log ++ [.siUnhandled op] } (.reply [] 0)))

/-- R200: `runBuffer` of a buffer is what its first byte selects; of no buffer, an empty reply. -/
def Obligations.RunBufferSelectsByFirstByte : Prop :=
  ∀ (op : Byte) (rest : List Byte) (pad : PadStatus) (s : State),
    exec (.runBuffer [] pad) s = .next (s.withJvsc s.jvsc (.reply [] 0))
    ∧ exec (.runBuffer (op :: rest) pad) s =
      if op = s.cfg.jv.siOpReset then exec (.siReset rest) s
      else if op = s.cfg.jv.siOpCommand then exec (.siCommand rest pad) s
      else exec (.siUnhandled op rest) s

/-- R221: a command call completes and returns the reply of the command call before it, and its own reply depends on no held
reply; so the second of two calls returns what the first computed. -/
def Obligations.ReplyIsOneCallLate : Prop :=
  ∀ (a b : List Byte) (p q : PadStatus) (held : List Byte) (s : State), s.cfg.codesDistinct = true →
    ∃ t u t' : State,
      exec (.siCommand a p) s = .next t ∧ t.result = delayedReply s
      ∧ exec (.siCommand b q) t = .next u
      ∧ u.result = .reply t.jvsc.prevReply t.jvsc.prevReply.length
      ∧ exec (.siCommand a p) { s with jvsc := { s.jvsc with prevReply := held } } = .next t'
      ∧ t'.jvsc = t.jvsc

/-- R202: a stream of whole chunks runs them in order; a chunk cut short after them, or a stray byte, ends it with its
event. -/
def Obligations.ChunkStreamRunsInOrder : Prop :=
  ∀ (c : Cfg) (pad : PadStatus) (cs : List (Byte × List Byte)) (cop n : Byte) (d : List Byte) (j : Jvsc),
    (∀ x ∈ cs, x.2.length ≤ 255) → d.length < n.toNat →
    let whole := cs.flatMap fun x => chunkBytes x.1 x.2
    let ran := cs.foldl (fun j x => runChunk c pad x.1 x.2 j) { j with cur := [] }
    j.siCommand c pad whole = ran.delayReply
    ∧ j.siCommand c pad (whole ++ [cop]) = (ran.raise (.chunkTruncated cop 0 0)).delayReply
    ∧ j.siCommand c pad (whole ++ cop :: n :: d) = (ran.raise (.chunkTruncated cop n.toNat d.length)).delayReply

/-- R204, R211, R219: a `CH.JVS` chunk is received from a fresh receiver; its reply frames, wrapped as one chunk where they
fit, are the reply held back; a frame cut short is logged. That the instruction is the call that carries this one chunk is
log entry 5. -/
def Obligations.JvsChunkIsReceivedAndWrapped : Prop :=
  ∀ (d : List Byte) (pad : PadStatus) (s : State), s.cfg.codesDistinct = true → d.length ≤ 255 →
    let r := Jvsc.rxBytes s.cfg pad { s.jvsc with rx := Rx.start, cur := [] } d
    let cut := if r.2.rx.state = .waitSync then [] else [JvEvent.jvsFrameTruncated r.2.rx.state]
    let big := if r.1.length ≤ 255 then [] else [JvEvent.replyChunkOverflow s.cfg.jv.chJvs r.1.length]
    let reply := if r.1.length ≤ 255 then chunkBytes s.cfg.jv.chJvs r.1 else []
    exec (.chJVS d pad) s =
      .next (s.withJvsc { r.2 with log := r.2.log ++ cut ++ big, cur := reply, prevReply := reply } (delayedReply s))

/-- R250, R251, R203: a card chunk is refused by its event, answered with an empty chunk, and changes no card state; a chunk
opcode outside the map is skipped by its length, logs its event and contributes nothing. That each instruction is the call
that carries its one chunk is log entry 5; that the call goes on after a refused card chunk is log entry 13. -/
def Obligations.CardAndUnknownChunksOnlyLog : Prop :=
  ∀ (cop : Byte) (d : List Byte) (s : State), s.cfg.codesDistinct = true → d.length ≤ 255 →
    exec (.chCard d) s =
      .next (s.withJvsc
        { s.jvsc with log := s.jvsc.log ++ [.cardRefused d], cur := [s.cfg.jv.chCard, 0],
                      prevReply := [s.cfg.jv.chCard, 0] } (delayedReply s))
    ∧ exec (.chICCard d) s =
      .next (s.withJvsc
        { s.jvsc with log := s.jvsc.log ++ [.icCardRefused d], cur := [s.cfg.jv.chICCard, 0],
                      prevReply := [s.cfg.jv.chICCard, 0] } (delayedReply s))
    ∧ ((Instr.chUnhandled cop d).wf s.cfg = true →
      exec (.chUnhandled cop d) s =
        .next (s.withJvsc
          { s.jvsc with log := s.jvsc.log ++ [.chunkUnhandled cop], cur := [], prevReply := [] } (delayedReply s)))

/-! ## JVS framing -/

/-- R213, first sentence: de-stuffing a stuffed list gives the list back, and a stuffed list holds no sync byte where the two
framing bytes can be told apart, as 0xE0 and 0xD0 can (log entry 30). -/
def Obligations.DestuffUndoesStuff : Prop :=
  ∀ (v : JvCfg) (u : List Byte),
    destuff v (stuff v u) = u ∧ (v.framingSound = true → v.sync ∉ stuff v u)
    ∧ (v.sync = 0xE0 → v.mark = 0xD0 → v.framingSound = true)

/-- R213, second sentence: the receiver applied to an encoded frame ends waiting for a sync byte with the node and the
payload recovered and logs no checksum mismatch: it does exactly what dispatching that payload and framing its reply does.
The encoder writes node and length unescaped (R214, R216), so a node or a length that is a framing byte is no part of it (log
entry 24); with the framing bytes 0xE0 and 0xD0 no length here is one. That the framing bytes are the configuration's
`JVS_SYNC` and `JVS_MARK` where the rules write 0xE0 and 0xD0 is log entry 30. -/
def Obligations.ReceiverRecoversEncodedFrame : Prop :=
  ∀ (c : Cfg) (pad : PadStatus) (node : Byte) (p : List Byte) (j k : Jvsc),
    c.jv.framingSound = true → node ≠ c.jv.sync → node ≠ c.jv.mark → p.length ≤ 0xCE →
    byteOf (p.length + 1) ≠ c.jv.sync → byteOf (p.length + 1) ≠ c.jv.mark →
    ∃ x : Rx, x.state = .waitSync ∧ x.esc = false ∧ x.node = node ∧ x.buf = p
      ∧ Jvsc.rxBytes c pad { j with rx := Rx.start } (k.encode c node p).1 =
        (let d := Jvsc.dispatch c node p pad { j with rx := x }
         d.encode c c.jv.hostNode d.rp)

/-- R210: a frame with a wrong checksum is logged and dispatched all the same. That the framing bytes are the configuration's
`JVS_SYNC` and `JVS_MARK` where the rules write 0xE0 and 0xD0 is log entry 30. -/
def Obligations.WrongChecksumStillDispatches : Prop :=
  ∀ (c : Cfg) (pad : PadStatus) (node v : Byte) (p : List Byte) (j : Jvsc), c.jv.framingSound = true →
    p.length ≤ 254 →
    let len := byteOf (p.length + 1)
    v ≠ jvsSum len node p →
    ∃ x : Rx, x.state = .waitSync ∧ x.node = node ∧ x.buf = p
      ∧ Jvsc.rxBytes c pad { j with rx := Rx.start }
          (c.jv.sync :: stuff c.jv (jvsHeader c.jv.hdrOrder len node ++ p ++ [v])) =
        (let d := Jvsc.dispatch c node p pad
          { j with rx := x, log := j.log ++ [.jvsSumMismatch v (jvsSum len node p)] }
         d.encode c c.jv.hostNode d.rp)

/-- R218 with R214 to R216: the encoder's frame in closed form, and the refusal of a length of 0xD0 or more. That the framing
bytes are the configuration's `JVS_SYNC` and `JVS_MARK` where the rules write 0xE0 and 0xD0 is log entry 30. -/
def Obligations.EncoderWritesTheFrame : Prop :=
  ∀ (c : Cfg) (node : Byte) (p : List Byte) (j : Jvsc),
    (p.length + 1 < 0xD0 →
      ∃ e : Enc, j.encode c node p =
        (c.jv.sync :: jvsHeader c.jv.hdrOrder (byteOf (p.length + 1)) node ++ stuff c.jv p
          ++ stuff c.jv [jvsSum (byteOf (p.length + 1)) node p], { j with enc := e }))
    ∧ (0xD0 ≤ p.length + 1 →
      ∃ e : Enc, j.encode c node p = ([], { j with enc := e, log := j.log ++ [.jvsReplyTooLong p.length] }))

/-! ## JVS opcodes -/

/-- R231 to R235, R237, R241, R242: the identity opcodes report the profile's data, the switch, analog and position opcodes
the profile's data for the sample; none changes anything else. The frame that carries the opcode is log entry 5. The framing
bytes as configuration are log entry 30. -/
def Obligations.ReportOpcodesAnswerTheProfile : Prop :=
  ∀ (node players bpp ch : Byte) (pad : PadStatus) (s : State), s.cfg.codesDistinct = true → s.cfg.jv.framingSound = true →
    let answers (i : Instr) (data : List Byte) : Prop :=
      ∃ (x : Rx) (e : Enc), exec i s =
        .next (s.withJvsc (s.jvsc.served s.cfg ([s.cfg.jv.statusOk, s.cfg.jv.reportOk] ++ data) x e) (delayedReply s))
    answers (.jBoardID node) s.cfg.profile.boardId
    ∧ answers (.jCommandRev node) [s.cfg.profile.cmdRev]
    ∧ answers (.jJVRev node) [s.cfg.profile.jvRev]
    ∧ answers (.jCommRev node) [s.cfg.profile.commRev]
    ∧ answers (.jCapabilities node) (Config.capabilities s.cfg.profile s.jvsc.dipSwitch)
    ∧ answers (.jSwitchInput node players bpp pad) (Config.switchReport s.cfg.profile pad players bpp)
    ∧ answers (.jAnalogInput node ch pad) (Config.analogReport s.cfg.profile pad ch)
    ∧ answers (.jPositionInput node ch pad) (Config.positionReport s.cfg.profile pad ch)

/-- R239: every slot is sampled, a counter steps on a rising edge below the maximum, and the report shows the counters after
the step, two bytes each, zero past the last slot. The frame that carries the opcode is log entry 5. The framing bytes as
configuration are log entry 30. -/
def Obligations.CoinInputCountsRisingEdges : Prop :=
  ∀ (node slots : Byte) (pad : PadStatus) (s : State), s.cfg.codesDistinct = true → s.cfg.jv.framingSound = true →
    let count := (List.range s.cfg.jv.coinSlots).map fun k =>
      if Config.coinTrigger s.cfg.profile pad k = true ∧ s.jvsc.coinPrev.getD k false = false
          ∧ s.jvsc.coinCount.getD k 0 < s.cfg.jv.coinMax
      then s.jvsc.coinCount.getD k 0 + 1 else s.jvsc.coinCount.getD k 0
    let data := (List.range slots.toNat).flatMap fun k =>
      [byteOf (count.getD k 0 / 256 % 64), byteOf (count.getD k 0 % 256)]
    ∃ (x : Rx) (e : Enc), exec (.jCoinInput node slots pad) s =
      .next (s.withJvsc
        (Jvsc.served s.cfg
          { s.jvsc with coinCount := count,
                        coinPrev := (List.range s.cfg.jv.coinSlots).map fun k => Config.coinTrigger s.cfg.profile pad k }
          ([s.cfg.jv.statusOk, s.cfg.jv.reportOk] ++ data) x e) (delayedReply s))

/-- R239 a: over two polls one after another a slot's counter takes a second step only where the trigger was low at the first
poll and is high at the second; with the same sample twice it takes none. The frame that carries the opcode is log entry 5.
The framing bytes as configuration are log entry 30. -/
def Obligations.HeldCoinCountsOnce : Prop :=
  ∀ (node slots node' slots' : Byte) (pad pad' : PadStatus) (s : State) (k : Nat),
    s.cfg.codesDistinct = true → s.cfg.jv.framingSound = true →
    k < s.cfg.jv.coinSlots →
    ∃ t u : State, exec (.jCoinInput node slots pad) s = .next t ∧ exec (.jCoinInput node' slots' pad') t = .next u
      ∧ u.jvsc.coinCount.getD k 0 =
        t.jvsc.coinCount.getD k 0 +
          (if Config.coinTrigger s.cfg.profile pad' k = true ∧ Config.coinTrigger s.cfg.profile pad k = false
              ∧ t.jvsc.coinCount.getD k 0 < s.cfg.jv.coinMax then 1 else 0)
      ∧ (pad' = pad → u.jvsc.coinCount = t.jvsc.coinCount)

/-- R240: the coin opcodes subtract and add with saturation at the 1-based slot, and log a slot that does not exist; the
report is the bare report byte in every case. The frame that carries the opcode is log entry 5. The framing bytes as
configuration are log entry 30. -/
def Obligations.CoinAdjustmentsSaturate : Prop :=
  ∀ (node slot hi lo : Byte) (s : State), s.cfg.codesDistinct = true → s.cfg.jv.framingSound = true →
    let amount := hi.toNat * 256 + lo.toNat
    let p := [s.cfg.jv.statusOk, s.cfg.jv.reportOk]
    let leaves (i : Instr) (j : Jvsc) : Prop :=
      ∃ (x : Rx) (e : Enc), exec i s = .next (s.withJvsc (j.served s.cfg p x e) (delayedReply s))
    (slot = 0 ∨ s.cfg.jv.coinSlots < slot.toNat →
      leaves (.jCoinSub node slot hi lo) { s.jvsc with log := s.jvsc.log ++ [.jvsBadSlot slot] }
      ∧ leaves (.jCoinAdd node slot hi lo) { s.jvsc with log := s.jvsc.log ++ [.jvsBadSlot slot] })
    ∧ (¬(slot = 0 ∨ s.cfg.jv.coinSlots < slot.toNat) →
      leaves (.jCoinSub node slot hi lo)
        { s.jvsc with coinCount := s.jvsc.coinCount.modify (slot.toNat - 1) fun n => n - amount }
      ∧ leaves (.jCoinAdd node slot hi lo)
        { s.jvsc with coinCount := s.jvsc.coinCount.modify (slot.toNat - 1) fun n => min s.cfg.jv.coinMax (n + amount) })

/-- R243: the driver output reports the bare report byte and writes no state the spec gives; the model records the bytes it
hands to the profile (its own field, log entry 17). The frame that carries the opcode is log entry 5, and it holds the data
that fit one frame in one chunk. The framing bytes as configuration are log entry 30. -/
def Obligations.DriverOutputHandsBytesToProfile : Prop :=
  ∀ (node : Byte) (d : List Byte) (s : State), s.cfg.codesDistinct = true → s.cfg.jv.framingSound = true →
    (Instr.jDriverOutput node d).wf s.cfg = true →
    ∃ (x : Rx) (e : Enc), exec (.jDriverOutput node d) s =
      .next (s.withJvsc
        (Jvsc.served s.cfg { s.jvsc with driverOut := s.jvsc.driverOut ++ [d] }
          [s.cfg.jv.statusOk, s.cfg.jv.reportOk] x e) (delayedReply s))

/-- R244, R236: the vendor opcode reports what the profile answers where it takes the bytes that are there; where it refuses
or asks for more, the dispatch stops with the truncation event. The frame that carries the opcode, with no group after it, is
log entry 5; the truncation is log entry 18. The framing bytes as configuration are log entry 30. -/
def Obligations.VendorOpcodeAsksTheProfile : Prop :=
  ∀ (node : Byte) (tail : List Byte) (s : State), s.cfg.codesDistinct = true → s.cfg.jv.framingSound = true →
    (Instr.jNAMCO node tail).wf s.cfg = true →
    ∃ (x : Rx) (e : Enc), exec (.jNAMCO node tail) s =
      .next (s.withJvsc
        (match Config.namco s.cfg.profile tail with
          | some (consumed, reply) =>
            if consumed = tail.length then
              s.jvsc.served s.cfg ([s.cfg.jv.statusOk, s.cfg.jv.reportOk] ++ reply) x e
            else
              Jvsc.served s.cfg { s.jvsc with log := s.jvsc.log ++ [.jvsArgsTruncated s.cfg.jv.jop.namco] }
                [s.cfg.jv.statusOk] x e
          | none =>
            Jvsc.served s.cfg { s.jvsc with log := s.jvsc.log ++ [.jvsArgsTruncated s.cfg.jv.jop.namco] }
              [s.cfg.jv.statusOk] x e)
        (delayedReply s))

/-- R246, R247: the bus reset sets the dip switch and clears the address for its magic argument and logs any other; the
set-address opcode takes the address and clears the dip switch. The frame that carries the opcode is log entry 5. The framing
bytes as configuration are log entry 30. -/
def Obligations.BusOpcodesSetAddressAndDipSwitch : Prop :=
  ∀ (node magic addr : Byte) (s : State), s.cfg.codesDistinct = true → s.cfg.jv.framingSound = true →
    let p := [s.cfg.jv.statusOk, s.cfg.jv.reportOk]
    let leaves (i : Instr) (j : Jvsc) : Prop :=
      ∃ (x : Rx) (e : Enc), exec i s = .next (s.withJvsc (j.served s.cfg p x e) (delayedReply s))
    leaves (.jReset node magic)
      (if magic = 0xD9 then { s.jvsc with dipSwitch := true, jvsAddr := 0 }
        else { s.jvsc with log := s.jvsc.log ++ [.jvsBadResetMagic magic] })
    ∧ leaves (.jSetAddress node addr) { s.jvsc with jvsAddr := addr, dipSwitch := false }

/-- R248: an opcode outside the map stops the dispatch of its frame with its event; nothing after it is parsed. The frame
that carries the opcode as its first is log entry 5. The framing bytes as configuration are log entry 30. -/
def Obligations.UnknownJvsOpcodeStopsDispatch : Prop :=
  ∀ (node jop : Byte) (tail : List Byte) (s : State), s.cfg.codesDistinct = true → s.cfg.jv.framingSound = true →
    (Instr.jUnhandled node jop tail).wf s.cfg = true →
    ∃ (x : Rx) (e : Enc), exec (.jUnhandled node jop tail) s =
      .next (s.withJvsc
        (Jvsc.served s.cfg { s.jvsc with log := s.jvsc.log ++ [.jvsUnhandled jop] } [s.cfg.jv.statusOk] x e)
        (delayedReply s))

/-- R230, R236: a payload of whole opcode groups runs them in order from the status byte. -/
def Obligations.DispatchRunsGroupsInOrder : Prop :=
  ∀ (c : Cfg) (node : Byte) (pad : PadStatus) (groups : List Instr) (j : Jvsc), c.codesDistinct = true →
    (∀ i ∈ groups, isGroup node pad i = true) →
    Jvsc.dispatch c node (groups.flatMap (payloadBytes c)) pad j =
      groups.foldl (fun j i => runGroup c i j) { j with rp := [c.jv.statusOk] }

/-- R249: an instruction that is not a coin opcode, and is not a buffer, chunk stream or frame that may hold one, and is no
reset, leaves the coin counters and levels; in a frame only the coin opcodes change them, and the adjustments no level. The
framing bytes as configuration are log entry 30. -/
def Obligations.CoinsChangeOnlyThere : Prop :=
  (∀ (i : Instr) (s t : State), s.cfg.codesDistinct = true → s.cfg.jv.framingSound = true → i.wf s.cfg = true →
    exec i s = .next t →
    t.jvsc.coinCount ≠ s.jvsc.coinCount ∨ t.jvsc.coinPrev ≠ s.jvsc.coinPrev →
    (∃ node k pad, i = .jCoinInput node k pad) ∨ (∃ node a b c, i = .jCoinSub node a b c)
    ∨ (∃ node a b c, i = .jCoinAdd node a b c) ∨ (∃ d pad, i = .chJVS d pad) ∨ (∃ d pad, i = .siCommand d pad)
    ∨ (∃ d pad, i = .runBuffer d pad) ∨ i = .reset .jvsc)
  ∧ ∀ (c : Cfg) (i : Instr) (j : Jvsc),
    ((runGroup c i j).coinCount ≠ j.coinCount →
      (∃ node k pad, i = .jCoinInput node k pad) ∨ (∃ node a b c, i = .jCoinSub node a b c)
      ∨ (∃ node a b c, i = .jCoinAdd node a b c))
    ∧ ((runGroup c i j).coinPrev ≠ j.coinPrev → ∃ node k pad, i = .jCoinInput node k pad)

/-! ## The mailbox -/

/-- R271 to R273: a write in bounds stores its bytes and nothing else, a read in bounds returns the bytes of its range and
writes nothing; an access that would pass the end of the record is skipped as a whole and logged, the read then returning
zeros. No interrupt either way. -/
def Obligations.MailboxAccessesAreBounded : Prop :=
  ∀ (w : Window) (off n : Nat) (bytes : List Byte) (s : State), s.mbmp.inv = true →
    (windowBase s.cfg w + off + bytes.length ≤ 0x300 →
      ∃ mb : Memory,
        exec (.mbWrite w off bytes) s = .next (s.withMbmp { s.mbmp with mb := mb } .none)
        ∧ ∀ a : Nat, mbByte mb a =
          if windowBase s.cfg w + off ≤ a ∧ a < windowBase s.cfg w + off + bytes.length
          then bytes.getD (a - (windowBase s.cfg w + off)) 0 else mbByte s.mbmp.mb a)
    ∧ (0x300 < windowBase s.cfg w + off + bytes.length →
      exec (.mbWrite w off bytes) s =
        .next (s.withMbmp { s.mbmp with log := s.mbmp.log ++ [.mbBounds w off bytes.length] } .none))
    ∧ (windowBase s.cfg w + off + n ≤ 0x300 →
      exec (.mbRead w off n) s =
        .next (s.withMbmp s.mbmp (.bytes ((List.range n).map fun k => mbByte s.mbmp.mb (windowBase s.cfg w + off + k)))))
    ∧ (0x300 < windowBase s.cfg w + off + n →
      exec (.mbRead w off n) s =
        .next (s.withMbmp { s.mbmp with log := s.mbmp.log ++ [.mbBounds w off n] } (.bytes (List.replicate n 0))))

/-- R274, R276 to R280, R285: an execute step answers the inbound region it finds: outbound the echo, the result and the
completion bit, inbound zero, every other byte as before, one interrupt of its window, 0x10 or 0x04 with the source's values.
Which command a code runs where codes are equal or 0x0000 is log entries 19 and 29, that the completion bit reads 1 under a
mask that is not one bit is log entry 28, and that an interrupt flag is a byte is log entry 31. -/
def Obligations.ExecuteStepAnswersTheWindow : Prop :=
  ∀ (w : Window) (sock : Option (Vector Byte 28)) (s : State), s.cfg.legal = true → s.mbmp.inv = true →
    ∃ m : Mbmp, exec (.mbExecute w sock) s = .next (s.withMbmp m .none)
      ∧ (let inb := mbReadBytes s.mbmp.mb (inBase s.cfg w) 0x20
         let r := mbResultOf s.cfg (codeOf s.cfg inb) inb sock
         r.1.length = 28 ∧ Mbmp.Answered s.cfg s.mbmp m w inb r.1 r.2)
      ∧ m.completionBit s.cfg w = true
      ∧ (s.cfg.mb.intLegacy = 0x10 → s.cfg.mb.intRevised = 0x04 →
        m.intOut = s.mbmp.intOut ++ [match w with | .legacy => (0x10 : Byte) | .revised => 0x04])

/-- R281, R287: the size query, written to a window and executed, answers the memory size of the profile's storage medium in
the record's byte order and zeros after it, whatever the record held and whatever else the guest wrote in the command. The
write that carries the code is log entry 5; that the size query runs where another command has its code too is log entry 19,
that it runs where its code is 0x0000, against R280 and R284, is log entry 29, and that the completion bit reads 1 under a
mask that is not one bit is log entry 28. -/
def Obligations.SizeQueryAnswersTheMedium : Prop :=
  ∀ (w : Window) (rest : List Byte) (s : State), s.cfg.legal = true → s.mbmp.inv = true → rest.length = 30 →
    ∃ m : Mbmp, exec (.mbGetDIMMSize w rest) s = .next (s.withMbmp m .none)
      ∧ Mbmp.Answered s.cfg s.mbmp m w (inboundBytes s.cfg s.cfg.mb.mbc.getDIMMSize rest)
        (bytes32 s.cfg.mb.endian (Config.dimmSize s.cfg.profile.storageMedium) ++ List.replicate 24 0) []
      ∧ (s.cfg.mb.doneOff < 4 →
        get32 s.cfg.mb.endian m.mb (outBase s.cfg w + 4) = Config.dimmSize s.cfg.profile.storageMedium)
      ∧ m.completionBit s.cfg w = true

/-- R282, R284: the status and serial-init commands answer the open configuration function of their code, the inbound region
and the profile; a code outside the map is answered with zeros and its event. The write that carries the code is log entry 5.
That a status or serial-init command runs where the configuration gives it the code 0x0000, against R280 and R284, is log
entry 29. -/
def Obligations.OpenAndUnknownCommandsAnswer : Prop :=
  ∀ (w : Window) (code : Word16) (rest : List Byte) (s : State), s.cfg.legal = true → s.cfg.codesDistinct = true →
    s.mbmp.inv = true → rest.length = 30 →
    let answers (i : Instr) (code : Word16) (result : List Byte) (events : List MbEvent) : Prop :=
      ∃ m : Mbmp, exec i s = .next (s.withMbmp m .none)
        ∧ Mbmp.Answered s.cfg s.mbmp m w (inboundBytes s.cfg code rest) result events
    let openBytes (code : Word16) := (Config.mbResult code (inboundBytes s.cfg code rest) s.cfg.profile).toList
    answers (.mbGetStatus w rest) s.cfg.mb.mbc.getStatus (openBytes s.cfg.mb.mbc.getStatus) []
    ∧ answers (.mbSerialInit w rest) s.cfg.mb.mbc.serialInit (openBytes s.cfg.mb.mbc.serialInit) []
    ∧ (mbOpOf s.cfg code = none → answers (.mbUnhandled w code rest) code (List.replicate 28 0) [.mbUnhandled code])

/-- R283: each socket command answers what the oracle supplies, or zeros and the stub event where there is none, in the
envelope of every command. The write that carries the code is log entry 5. That a socket command runs where the configuration
gives it the code 0x0000, against R280 and R284, is log entry 29. -/
def Obligations.SocketCommandsAnswerTheOracle : Prop :=
  ∀ (w : Window) (rest : List Byte) (sock : Option (Vector Byte 28)) (s : State), s.cfg.legal = true →
    s.cfg.codesDistinct = true → s.mbmp.inv = true → rest.length = 30 →
    let answers (i : Instr) (code : Word16) : Prop :=
      ∃ m : Mbmp, exec i s = .next (s.withMbmp m .none)
        ∧ match sock with
          | some r => Mbmp.Answered s.cfg s.mbmp m w (inboundBytes s.cfg code rest) r.toList []
          | none => Mbmp.Answered s.cfg s.mbmp m w (inboundBytes s.cfg code rest) (List.replicate 28 0) [.mbSocketStub code]
    answers (.mbAccept w rest sock) s.cfg.mb.mbc.accept
    ∧ answers (.mbBind w rest sock) s.cfg.mb.mbc.bind
    ∧ answers (.mbConnect w rest sock) s.cfg.mb.mbc.connect
    ∧ answers (.mbInetAddr w rest sock) s.cfg.mb.mbc.inetAddr
    ∧ answers (.mbListen w rest sock) s.cfg.mb.mbc.listen
    ∧ answers (.mbRecv w rest sock) s.cfg.mb.mbc.recv
    ∧ answers (.mbSend w rest sock) s.cfg.mb.mbc.send
    ∧ answers (.mbSocket w rest sock) s.cfg.mb.mbc.socket
    ∧ answers (.mbSelect w rest sock) s.cfg.mb.mbc.select
    ∧ answers (.mbSetSockOpt w rest sock) s.cfg.mb.mbc.setSockOpt
    ∧ answers (.mbSetTimeOuts w rest sock) s.cfg.mb.mbc.setTimeOuts
    ∧ answers (.mbGetLastError w rest sock) s.cfg.mb.mbc.getLastError
    ∧ answers (.mbModifyMyIPaddr w rest sock) s.cfg.mb.mbc.modifyMyIPaddr

/-- R288: an execute step reads and writes its own window alone: two records that agree on the window get the same window,
the same events and the same interrupt, and the rest of each record stays as it was. -/
def Obligations.WindowsAreIndependent : Prop :=
  ∀ (w : Window) (sock : Option (Vector Byte 28)) (s t : State), s.cfg.legal = true → t.cfg = s.cfg →
    s.mbmp.inv = true → t.mbmp.inv = true →
    (∀ a, windowBase s.cfg w ≤ a → a < windowBase s.cfg w + 0x40 → mbByte s.mbmp.mb a = mbByte t.mbmp.mb a) →
    ∃ (m n : Mbmp) (events : List MbEvent),
      exec (.mbExecute w sock) s = .next (s.withMbmp m .none) ∧ exec (.mbExecute w sock) t = .next (t.withMbmp n .none)
      ∧ (∀ a, windowBase s.cfg w ≤ a → a < windowBase s.cfg w + 0x40 → mbByte m.mb a = mbByte n.mb a)
      ∧ (∀ a, a < windowBase s.cfg w ∨ windowBase s.cfg w + 0x40 ≤ a →
          mbByte m.mb a = mbByte s.mbmp.mb a ∧ mbByte n.mb a = mbByte t.mbmp.mb a)
      ∧ m.log = s.mbmp.log ++ events ∧ n.log = t.mbmp.log ++ events
      ∧ m.intOut = s.mbmp.intOut ++ [windowInterrupt s.cfg w] ∧ n.intOut = t.mbmp.intOut ++ [windowInterrupt s.cfg w]

/-- R289, R76: the 16-bit and 32-bit accessors are byte-wise compositions in either byte order, a field set is the field got,
and setting a field leaves every byte outside it. -/
def Obligations.TypedAccessorKeepsByteLayout : Prop :=
  ∀ (m : Memory) (a : Nat) (v : Word16) (x : Word32), m.wf (some 0) = true →
    let b (k : Nat) := (mbByte m (a + k)).toNat
    (get16 .little m a).toNat = b 0 + 256 * b 1
    ∧ (get16 .big m a).toNat = 256 * b 0 + b 1
    ∧ (get32 .little m a).toNat = b 0 + 256 * b 1 + 65536 * b 2 + 16777216 * b 3
    ∧ (get32 .big m a).toNat = 16777216 * b 0 + 65536 * b 1 + 256 * b 2 + b 3
    ∧ ∀ e : Endian, get16 e (set16 e m a v) a = v ∧ get32 e (set32 e m a x) a = x
      ∧ ∀ k : Nat, (k < a ∨ a + 2 ≤ k → mbByte (set16 e m a v) k = mbByte m k)
        ∧ (k < a ∨ a + 4 ≤ k → mbByte (set32 e m a x) k = mbByte m k)

/-! ## Reset -/

/-- R330, R331: reset of one block puts every element of its reset table (R35, R49, R53) at the table's value and leaves the
other two blocks; the backup store and the card images keep their contents. Left out are the fields that no table lists: the
transient working state and the model's own records (log entry 6). The zero of the card's receive state is its first stage
with nothing accumulated (log entry 21), and what of the card state is persisted is log entry 16. -/
def Obligations.ResetPutsTheTableValues : Prop :=
  ∀ s : State, ∃ t u v : State,
    exec (.reset .bmsc) s = .next t ∧ exec (.reset .jvsc) s = .next u ∧ exec (.reset .mbmp) s = .next v
    ∧ t = s.withBmsc t.bmsc .none ∧ u = s.withJvsc u.jvsc .none ∧ v = s.withMbmp v.mbmp .none
    ∧ t.bmsc =
      { cs := false, pos := 0, x0 := 0, x1 := 0, x2 := 0, x3 := 0, cursor := 0, dmaOff := 0, dmaLen := 0, isr := 0,
        imr := 0, irqPending := false, irqCount := 0, rxSr := 0, txSr := s.cfg.bm.idleByte, bitcnt := 0,
        bk := s.bmsc.bk, log := [], guestOut := t.bmsc.guestOut }
    ∧ u.jvsc =
      { u.jvsc with
        prevReply := [], coinCount := List.replicate s.cfg.jv.coinSlots 0,
        coinPrev := List.replicate s.cfg.jv.coinSlots false, dipSwitch := false, jvsAddr := 0, log := [],
        card := { buf := Vector.replicate 0xD0 0, rdOff := 0, wrOff := 0, shutter := false, flags := 0,
                  stage := .accumulate, acc := [], image := s.jvsc.card.image },
        iccard := { inserted := false, sessionId := 0, useCount := 0, pages := s.jvsc.iccard.pages, pwBuf := [],
                    pwNeed := 0 } }
    ∧ (∀ a : Nat, mbByte v.mbmp.mb a = 0) ∧ v.mbmp.intOut = [] ∧ v.mbmp.log = []

/-- R35, R49, R53, R332: what the machine holds right after power-on and reset, under the default configuration: every
register of the three tables at its value, a zero record, no transaction, no interrupt, no held reply, empty logs; the stores
as loaded (R31, R49), the backup store in its 65536 bytes, the two card images, the IC-card memory in its 2048 bytes, from
the store of whatever title is configured (R255). The default configuration is log entries 2 and 4, the zero of the card's
receive state log entry 21, and that the store's key is the profile's title log entry 7. -/
def Obligations.MachineAfterReset : Prop :=
  let b := State.reset.bmsc
  let j := State.reset.jvsc
  let m := State.reset.mbmp
  (b.cs = false ∧ b.pos = 0 ∧ b.x0 = 0 ∧ b.x1 = 0 ∧ b.x2 = 0 ∧ b.x3 = 0 ∧ b.cursor = 0 ∧ b.dmaOff = 0 ∧ b.dmaLen = 0
    ∧ b.isr = 0 ∧ b.imr = 0 ∧ b.irqPending = false ∧ b.irqLine = false ∧ b.irqCount = 0 ∧ b.rxSr = 0 ∧ b.txSr = 0xFF
    ∧ b.bitcnt = 0 ∧ b.log = [] ∧ ∀ a : Nat, a < 65536 → b.bkRead State.reset.cfg a = Config.backupInit a)
  ∧ (j.prevReply = [] ∧ j.coinCount = [0, 0] ∧ j.coinPrev = [false, false] ∧ j.dipSwitch = false ∧ j.jvsAddr = 0
    ∧ j.log = [] ∧ j.card.buf = Vector.replicate 0xD0 0 ∧ j.card.rdOff = 0 ∧ j.card.wrOff = 0
    ∧ j.card.shutter = false ∧ j.card.flags = 0 ∧ j.card.stage = .accumulate ∧ j.card.acc = []
    ∧ j.iccard.inserted = false ∧ j.iccard.sessionId = 0 ∧ j.iccard.useCount = 0 ∧ j.iccard.pwBuf = []
    ∧ j.iccard.pwNeed = 0 ∧ (∀ (c : Cfg) (a : Nat), j.card.imageByte c a = Config.cardInit c.profile.title a)
    ∧ ∀ (c : Cfg) (a : Fin 2048), j.iccard.pageByte c a = Config.iccInit c.profile.title a)
  ∧ (m.intOut = [] ∧ m.log = [] ∧ (∀ a : Nat, mbByte m.mb a = 0) ∧ ∀ w, m.completionBit State.reset.cfg w = false)

/-! ## The whole machine -/

/-- R300, R82: no operation stops: every instruction in every state answers a next state, but for a DMA whose guest range is
not backed, which has no meaning and is refused by name. -/
def Obligations.EveryInstructionCompletes : Prop :=
  ∀ (i : Instr) (s : State),
    let unbacked := ∃ (addr len : Nat) (gm : List Host.Cell), (i = .dmaWrite addr len gm ∨ i = .dmaRead addr len gm)
      ∧ ∃ k : Nat, k < len ∧ cellsLookup (addr + k) gm = none
    (¬unbacked → ∃ t : State, exec i s = .next t) ∧ (unbacked → exec i s = .refused .guestRangeNotBacked)

/-- R318, R45: an instruction writes the record of its own block alone; the configuration and the requests stay. -/
def Obligations.BlocksShareNoState : Prop :=
  ∀ (i : Instr) (s t : State), exec i s = .next t →
    t.cfg = s.cfg ∧ t.pending = s.pending
    ∧ (blockOf i ≠ .bmsc → t.bmsc = s.bmsc) ∧ (blockOf i ≠ .jvsc → t.jvsc = s.jvsc)
    ∧ (blockOf i ≠ .mbmp → t.mbmp = s.mbmp)

/-- R31: over every well-formed instruction, the backup store changes only by the write command, by `dmaWrite`, and by the
write command's byte slot. -/
def Obligations.BackupStoreChangesOnlyThere : Prop :=
  ∀ (i : Instr) (s t : State), s.cfg.legal = true → i.wf s.cfg = true → exec i s = .next t →
    t.bmsc.bk ≠ s.bmsc.bk →
    (∃ d u2 chk n, i = .backupWrite d u2 chk n) ∨ (∃ addr len gm, i = .dmaWrite addr len gm)
    ∨ (∃ io, i = .transferByte io ∧ s.bmsc.cs = true ∧ s.bmsc.pos = 4 ∧ s.bmsc.x0 = s.cfg.bm.opWrite)

/-- A step under a legal configuration runs the instruction its oldest request decodes to, to its end (R12), with the request
taken off the queue; with nothing pending it changes nothing (R317), and a request that is no instruction is refused by name.
The queue of requests and taking its oldest are log entry 1, the refusal is log entry 20, both the model's choice. -/
def Obligations.StepRunsTheDecodedInstruction : Prop :=
  ∀ (s : State) (r : Request) (rest : List Request), s.cfg.legal = true →
    (s.pending = [] → step s = .next s)
    ∧ (s.pending = r :: rest →
      (∀ i, decode s.cfg r = .ok i → step s = exec i { s with pending := rest })
      ∧ ∀ e, decode s.cfg r = .error e → step s = .refused (.malformedRequest e))

/-- Decoding the words of a few instructions as the spec writes them, under the default configuration. Its opcode values are the
spec's defaults from general knowledge (log entry 2); that the OPEN chunk opcodes and mailbox codes have the values 0x31 and
0x0401 the spec suggests is log entry 4. -/
def Obligations.WordsDecodeAsTheSpecWritesThem : Prop :=
  decode Cfg.default (.frame [0x01, 0x00, 0x10, 0x18, 0x00]) = .ok (.backupOffsetSet 0x0010 0x18 0)
  ∧ decode Cfg.default (.frame [0x05, 0x12, 0x34, 0x20, 0x00]) = .ok (.dmaOffsetLengthSet 0x1234 0x20 0)
  ∧ decode Cfg.default (.frame [0x83, 0x5A, 0x00, 0x3B, 0x00]) = .ok (.writeISR 0x5A 0x00 0x3B 0)
  ∧ decode Cfg.default (.frame [0x00, 0x00, 0x00, 0x00, 0x00, 0x00]) = .ok (.serialID 0x00 0x00 1)
  ∧ decode Cfg.default (.serial [0x70, 0x40, 0x00] noPad) = .ok (.siCommand [0x40, 0x00] noPad)
  ∧ decode Cfg.default (.chunk [0x31, 0x02, 0xAA, 0xBB] noPad) = .ok (.chCard [0xAA, 0xBB])
  ∧ decode Cfg.default (.payload 0x01 [0x30, 0x01, 0x00, 0x09] noPad) = .ok (.jCoinSub 0x01 0x01 0x00 0x09)
  ∧ decode Cfg.default (.inbound .legacy ([0x00, 0x00, 0x01, 0x04] ++ List.replicate 28 0) none) =
    .ok (.mbAccept .legacy (List.replicate 30 0) none)

/-- Decoding what the encoder writes gives every well-formed instruction back, under every legal configuration whose codes
are distinct. -/
def Obligations.DecodeUndoesEncode : Prop :=
  ∀ (c : Cfg) (i : Instr), c.legal = true → c.codesDistinct = true → i.wf c = true → decode c (encode c i) = .ok i

/-- The invariant of the machine holds after reset. -/
def Obligations.InvariantHoldsAtReset : Prop := State.reset.inv = true

/-- Every step keeps the invariant: a legal configuration, backup offsets inside the store, the poll count in its range, the
coin counters in theirs, every memory in canonical form and, where the spec gives its size, inside it. -/
def Obligations.EveryStepKeepsTheInvariant : Prop := ∀ s t : State, s.inv = true → step s = .next t → t.inv = true

/-- R230, R236, R244, R248: after whole opcode groups, an opcode outside the map ends the dispatch with its event, and so does
an opcode with too few argument bytes left; the vendor opcode reports what the profile answers for the bytes left, and the
dispatch goes on behind the bytes it consumed. Every report made before stays in the reply. What the profile's answers mean is
log entry 18. -/
def Obligations.DispatchGoesOnOrStopsAfterGroups : Prop :=
  ∀ (c : Cfg) (node jop : Byte) (tail : List Byte) (pad : PadStatus) (groups : List Instr) (j : Jvsc),
    c.codesDistinct = true → (∀ i ∈ groups, isGroup node pad i = true) →
    let before := groups.flatMap (payloadBytes c)
    let ran := groups.foldl (fun j i => runGroup c i j) { j with rp := [c.jv.statusOk] }
    (jopOf c jop = none →
      Jvsc.dispatch c node (before ++ jop :: tail) pad j = { ran with log := ran.log ++ [.jvsUnhandled jop] })
    ∧ (∀ op : Jop, jopOf c jop = some op → (∀ n, argCount c op tail = some n → tail.length < n) →
      Jvsc.dispatch c node (before ++ jop :: tail) pad j = { ran with log := ran.log ++ [.jvsArgsTruncated jop] })
    ∧ Jvsc.dispatch c node (before ++ c.jv.jop.namco :: tail) pad j =
      match Config.namco c.profile tail with
      | some (consumed, reply) =>
        if consumed ≤ tail.length then
          dispatchLoop c node pad (tail.length - consumed) (tail.drop consumed)
            { ran with rp := ran.rp ++ c.jv.reportOk :: reply }
        else { ran with log := ran.log ++ [.jvsArgsTruncated c.jv.jop.namco] }
      | none => { ran with log := ran.log ++ [.jvsArgsTruncated c.jv.jop.namco] }
end

