-- ==== Sys2Proof/Laws/Dispatch.lean ====
section
/-! SUPPORT. What each instruction is in terms of the shared operations: the transaction, the serial-bus call or the mailbox
call it makes. -/

namespace Sys2Proof.Machine

open Sys2Proof

theorem exec_backupOffsetSet (off16 : Word16) (chk : Byte) (stream : Nat) (s : State) :
    exec (.backupOffsetSet off16 chk stream) s =
      runTransaction (frameBytes s.cfg.bm.opOffsetSet (hiByte off16) (loByte off16) chk stream) s := rfl

theorem exec_backupWrite (d u2 chk : Byte) (stream : Nat) (s : State) :
    exec (.backupWrite d u2 chk stream) s = runTransaction (frameBytes s.cfg.bm.opWrite d u2 chk stream) s := rfl

theorem exec_backupRead (u1 u2 chk : Byte) (stream : Nat) (s : State) :
    exec (.backupRead u1 u2 chk stream) s = runTransaction (frameBytes s.cfg.bm.opRead u1 u2 chk stream) s := rfl

theorem exec_dmaOffsetLengthSet (off16 : Word16) (len8 : Byte) (stream : Nat) (s : State) :
    exec (.dmaOffsetLengthSet off16 len8 stream) s =
      runTransaction (frameBytes s.cfg.bm.opDmaSet (hiByte off16) (loByte off16) len8 stream) s := rfl

theorem exec_readISR (u1 u2 chk : Byte) (stream : Nat) (s : State) :
    exec (.readISR u1 u2 chk stream) s = runTransaction (frameBytes s.cfg.bm.opIsrRead u1 u2 chk stream) s := rfl

theorem exec_writeISR (v u2 chk : Byte) (stream : Nat) (s : State) :
    exec (.writeISR v u2 chk stream) s = runTransaction (frameBytes s.cfg.bm.opIsrWrite v u2 chk stream) s := rfl

theorem exec_readIMR (u1 u2 chk : Byte) (stream : Nat) (s : State) :
    exec (.readIMR u1 u2 chk stream) s = runTransaction (frameBytes s.cfg.bm.opImrRead u1 u2 chk stream) s := rfl

theorem exec_writeIMR (v u2 chk : Byte) (stream : Nat) (s : State) :
    exec (.writeIMR v u2 chk stream) s = runTransaction (frameBytes s.cfg.bm.opImrWrite v u2 chk stream) s := rfl

theorem exec_writeLANCNT (a b chk : Byte) (stream : Nat) (s : State) :
    exec (.writeLANCNT a b chk stream) s = runTransaction (frameBytes s.cfg.bm.opLancntWrite a b chk stream) s := rfl

theorem exec_serialID (u2 u3 : Byte) (stream : Nat) (s : State) :
    exec (.serialID u2 u3 stream) s = runTransaction (frameBytes 0 0 u2 u3 stream) s := rfl

theorem exec_bmUnhandled (op p1 p2 chk : Byte) (stream : Nat) (s : State) :
    exec (.bmUnhandled op p1 p2 chk stream) s = runTransaction (frameBytes op p1 p2 chk stream) s := rfl

theorem exec_setChipSelect (level : Bool) (s : State) :
    exec (.setChipSelect level) s = execSetChipSelect level s := rfl

theorem exec_transferByte (io : SlotInput) (s : State) :
    exec (.transferByte io) s = execTransferByte io s := rfl

theorem exec_dmaWrite (addr len : Nat) (gm : List Host.Cell) (s : State) :
    exec (.dmaWrite addr len gm) s = execDmaWrite addr len gm s := rfl

theorem exec_dmaRead (addr len : Nat) (gm : List Host.Cell) (s : State) :
    exec (.dmaRead addr len gm) s = execDmaRead addr len gm s := rfl

theorem exec_pollInterrupt (s : State) :
    exec .pollInterrupt s = execPollInterrupt s := rfl

theorem exec_reset (block : Block) (s : State) :
    exec (.reset block) s = execReset block s := rfl

theorem exec_runBuffer (bytes : List Byte) (pad : PadStatus) (s : State) :
    exec (.runBuffer bytes pad) s = serialCall bytes pad s := rfl

theorem exec_siReset (rest : List Byte) (s : State) :
    exec (.siReset rest) s = serialCall (s.cfg.jv.siOpReset :: rest) noPad s := rfl

theorem exec_siCommand (chunks : List Byte) (pad : PadStatus) (s : State) :
    exec (.siCommand chunks pad) s = serialCall (s.cfg.jv.siOpCommand :: chunks) pad s := rfl

theorem exec_siUnhandled (op : Byte) (rest : List Byte) (s : State) :
    exec (.siUnhandled op rest) s = serialCall (op :: rest) noPad s := rfl

theorem exec_chJVS (d : List Byte) (pad : PadStatus) (s : State) :
    exec (.chJVS d pad) s = chunkCall s.cfg.jv.chJvs d pad s := rfl

theorem exec_chCard (d : List Byte) (s : State) :
    exec (.chCard d) s = chunkCall s.cfg.jv.chCard d noPad s := rfl

theorem exec_chICCard (d : List Byte) (s : State) :
    exec (.chICCard d) s = chunkCall s.cfg.jv.chICCard d noPad s := rfl

theorem exec_chUnhandled (cop : Byte) (d : List Byte) (s : State) :
    exec (.chUnhandled cop d) s = chunkCall cop d noPad s := rfl

theorem exec_jBoardID (node : Byte) (s : State) :
    exec (.jBoardID node) s = frameCall node (payloadBytes s.cfg (.jBoardID node)) noPad s := rfl

theorem exec_jCommandRev (node : Byte) (s : State) :
    exec (.jCommandRev node) s = frameCall node (payloadBytes s.cfg (.jCommandRev node)) noPad s := rfl

theorem exec_jJVRev (node : Byte) (s : State) :
    exec (.jJVRev node) s = frameCall node (payloadBytes s.cfg (.jJVRev node)) noPad s := rfl

theorem exec_jCommRev (node : Byte) (s : State) :
    exec (.jCommRev node) s = frameCall node (payloadBytes s.cfg (.jCommRev node)) noPad s := rfl

theorem exec_jCapabilities (node : Byte) (s : State) :
    exec (.jCapabilities node) s = frameCall node (payloadBytes s.cfg (.jCapabilities node)) noPad s := rfl

theorem exec_jSwitchInput (node players bpp : Byte) (pad : PadStatus) (s : State) :
    exec (.jSwitchInput node players bpp pad) s =
      frameCall node (payloadBytes s.cfg (.jSwitchInput node players bpp pad)) pad s := rfl

theorem exec_jCoinInput (node slots : Byte) (pad : PadStatus) (s : State) :
    exec (.jCoinInput node slots pad) s = frameCall node (payloadBytes s.cfg (.jCoinInput node slots pad)) pad s := rfl

theorem exec_jAnalogInput (node ch : Byte) (pad : PadStatus) (s : State) :
    exec (.jAnalogInput node ch pad) s = frameCall node (payloadBytes s.cfg (.jAnalogInput node ch pad)) pad s := rfl

theorem exec_jPositionInput (node ch : Byte) (pad : PadStatus) (s : State) :
    exec (.jPositionInput node ch pad) s = frameCall node (payloadBytes s.cfg (.jPositionInput node ch pad)) pad s := rfl

theorem exec_jCoinSub (node slot hi lo : Byte) (s : State) :
    exec (.jCoinSub node slot hi lo) s = frameCall node (payloadBytes s.cfg (.jCoinSub node slot hi lo)) noPad s := rfl

theorem exec_jDriverOutput (node : Byte) (d : List Byte) (s : State) :
    exec (.jDriverOutput node d) s = frameCall node (payloadBytes s.cfg (.jDriverOutput node d)) noPad s := rfl

theorem exec_jCoinAdd (node slot hi lo : Byte) (s : State) :
    exec (.jCoinAdd node slot hi lo) s = frameCall node (payloadBytes s.cfg (.jCoinAdd node slot hi lo)) noPad s := rfl

theorem exec_jNAMCO (node : Byte) (tail : List Byte) (s : State) :
    exec (.jNAMCO node tail) s = frameCall node (payloadBytes s.cfg (.jNAMCO node tail)) noPad s := rfl

theorem exec_jReset (node magic : Byte) (s : State) :
    exec (.jReset node magic) s = frameCall node (payloadBytes s.cfg (.jReset node magic)) noPad s := rfl

theorem exec_jSetAddress (node addr : Byte) (s : State) :
    exec (.jSetAddress node addr) s = frameCall node (payloadBytes s.cfg (.jSetAddress node addr)) noPad s := rfl

theorem exec_jUnhandled (node jop : Byte) (tail : List Byte) (s : State) :
    exec (.jUnhandled node jop tail) s = frameCall node (payloadBytes s.cfg (.jUnhandled node jop tail)) noPad s := rfl

theorem exec_mbWrite (w : Window) (off : Nat) (bytes : List Byte) (s : State) :
    exec (.mbWrite w off bytes) s = execMbWrite w off bytes s := rfl

theorem exec_mbRead (w : Window) (off n : Nat) (s : State) :
    exec (.mbRead w off n) s = execMbRead w off n s := rfl

theorem exec_mbExecute (w : Window) (sock : Option (Vector Byte 28)) (s : State) :
    exec (.mbExecute w sock) s = execMbExecute w sock s := rfl

theorem exec_mbGetDIMMSize (w : Window) (rest : List Byte) (s : State) :
    exec (.mbGetDIMMSize w rest) s = mailboxCall w s.cfg.mb.mbc.getDIMMSize rest none s := rfl

theorem exec_mbGetStatus (w : Window) (rest : List Byte) (s : State) :
    exec (.mbGetStatus w rest) s = mailboxCall w s.cfg.mb.mbc.getStatus rest none s := rfl

theorem exec_mbAccept (w : Window) (rest : List Byte) (sock : Option (Vector Byte 28)) (s : State) :
    exec (.mbAccept w rest sock) s = mailboxCall w s.cfg.mb.mbc.accept rest sock s := rfl

theorem exec_mbBind (w : Window) (rest : List Byte) (sock : Option (Vector Byte 28)) (s : State) :
    exec (.mbBind w rest sock) s = mailboxCall w s.cfg.mb.mbc.bind rest sock s := rfl

theorem exec_mbConnect (w : Window) (rest : List Byte) (sock : Option (Vector Byte 28)) (s : State) :
    exec (.mbConnect w rest sock) s = mailboxCall w s.cfg.mb.mbc.connect rest sock s := rfl

theorem exec_mbInetAddr (w : Window) (rest : List Byte) (sock : Option (Vector Byte 28)) (s : State) :
    exec (.mbInetAddr w rest sock) s = mailboxCall w s.cfg.mb.mbc.inetAddr rest sock s := rfl

theorem exec_mbListen (w : Window) (rest : List Byte) (sock : Option (Vector Byte 28)) (s : State) :
    exec (.mbListen w rest sock) s = mailboxCall w s.cfg.mb.mbc.listen rest sock s := rfl

theorem exec_mbRecv (w : Window) (rest : List Byte) (sock : Option (Vector Byte 28)) (s : State) :
    exec (.mbRecv w rest sock) s = mailboxCall w s.cfg.mb.mbc.recv rest sock s := rfl

theorem exec_mbSend (w : Window) (rest : List Byte) (sock : Option (Vector Byte 28)) (s : State) :
    exec (.mbSend w rest sock) s = mailboxCall w s.cfg.mb.mbc.send rest sock s := rfl

theorem exec_mbSocket (w : Window) (rest : List Byte) (sock : Option (Vector Byte 28)) (s : State) :
    exec (.mbSocket w rest sock) s = mailboxCall w s.cfg.mb.mbc.socket rest sock s := rfl

theorem exec_mbSelect (w : Window) (rest : List Byte) (sock : Option (Vector Byte 28)) (s : State) :
    exec (.mbSelect w rest sock) s = mailboxCall w s.cfg.mb.mbc.select rest sock s := rfl

theorem exec_mbSetSockOpt (w : Window) (rest : List Byte) (sock : Option (Vector Byte 28)) (s : State) :
    exec (.mbSetSockOpt w rest sock) s = mailboxCall w s.cfg.mb.mbc.setSockOpt rest sock s := rfl

theorem exec_mbSetTimeOuts (w : Window) (rest : List Byte) (sock : Option (Vector Byte 28)) (s : State) :
    exec (.mbSetTimeOuts w rest sock) s = mailboxCall w s.cfg.mb.mbc.setTimeOuts rest sock s := rfl

theorem exec_mbGetLastError (w : Window) (rest : List Byte) (sock : Option (Vector Byte 28)) (s : State) :
    exec (.mbGetLastError w rest sock) s = mailboxCall w s.cfg.mb.mbc.getLastError rest sock s := rfl

theorem exec_mbModifyMyIPaddr (w : Window) (rest : List Byte) (sock : Option (Vector Byte 28)) (s : State) :
    exec (.mbModifyMyIPaddr w rest sock) s = mailboxCall w s.cfg.mb.mbc.modifyMyIPaddr rest sock s := rfl

theorem exec_mbSerialInit (w : Window) (rest : List Byte) (s : State) :
    exec (.mbSerialInit w rest) s = mailboxCall w s.cfg.mb.mbc.serialInit rest none s := rfl

theorem exec_mbUnhandled (w : Window) (code : Word16) (rest : List Byte) (s : State) :
    exec (.mbUnhandled w code rest) s = mailboxCall w code rest none s := rfl

/-! ## What the three shared calls answer -/

theorem next_inj {a b : State} (h : (Host.Outcome.next a : Answer) = .next b) : a = b := by
  cases h
  rfl

/-- A BMSC mnemonic is the transaction of the bytes it encodes to (R124). -/
theorem exec_frame (i : Instr) (ins : List Byte) (s : State) (h : encode s.cfg i = .frame ins) :
    exec i s = runTransaction ins s := by
  cases i <;> simp only [encode, Request.frame.injEq, reduceCtorEq] at h <;> subst h <;> rfl

/-- A serial-bus call answers a next state and changes the JVSC alone. -/
theorem serialCall_next (bytes : List Byte) (pad : PadStatus) (s : State) :
    serialCall bytes pad s =
      .next (s.withJvsc (s.jvsc.runBuffer s.cfg pad bytes).2
        (.reply (s.jvsc.runBuffer s.cfg pad bytes).1 (s.jvsc.runBuffer s.cfg pad bytes).1.length)) := rfl

/-- A mailbox call answers a next state and changes the MBMP alone. -/
theorem mailboxCall_next (w : Window) (code : Word16) (rest : List Byte) (sock : Option (Vector Byte 28)) (s : State) :
    mailboxCall w code rest sock s =
      .next (s.withMbmp ((s.mbmp.write s.cfg w 0 (inboundBytes s.cfg code rest)).execute s.cfg w sock) .none) := rfl

end Sys2Proof.Machine
end

