-- ==== Sys2Proof/Laws/Encoding.lean ====
section
/-! SUPPORT. The laws of the byte-order helpers and of the inbound region's command code. -/

namespace Sys2Proof

theorem hiLo_bytes (v : Word16) : hiLo (hiByte v) (loByte v) = v := by
  apply BitVec.eq_of_getLsbD_eq
  intro i hi
  simp only [hiLo, hiByte, loByte, BitVec.getLsbD_append, BitVec.getLsbD_extractLsb']
  split
  · simp; omega
  · have h1 : i - 8 < 8 := by omega
    have h2 : 8 + (i - 8) = i := by omega
    simp [h1, h2]

@[simp] theorem hiByte_hiLo (a b : Byte) : hiByte (hiLo a b) = a := by
  apply BitVec.eq_of_getLsbD_eq
  intro i hi
  have h1 : ¬ (8 + i < 8) := by omega
  have h2 : 8 + i - 8 = i := by omega
  simp only [hiLo, hiByte, BitVec.getLsbD_append, BitVec.getLsbD_extractLsb', h1, h2, hi]
  simp

@[simp] theorem loByte_hiLo (a b : Byte) : loByte (hiLo a b) = b := by
  apply BitVec.eq_of_getLsbD_eq
  intro i hi
  have h2 : 0 + i = i := by omega
  simp only [hiLo, loByte, BitVec.getLsbD_append, BitVec.getLsbD_extractLsb', hi, h2]
  simp

theorem word32_bytes (v : Word32) :
    v.extractLsb' 24 8 ++ v.extractLsb' 16 8 ++ v.extractLsb' 8 8 ++ v.extractLsb' 0 8 = v := by
  apply BitVec.eq_of_getLsbD_eq
  intro i hi
  simp only [BitVec.getLsbD_append, BitVec.getLsbD_extractLsb']
  rcases Nat.lt_or_ge i 8 with h1 | h1
  · simp [h1]
  rcases Nat.lt_or_ge i 16 with h2 | h2
  · have a1 : ¬ i < 8 := by omega
    have a2 : i - 8 < 8 := by omega
    have a3 : 8 + (i - 8) = i := by omega
    simp [a1, a2, a3]
  rcases Nat.lt_or_ge i 24 with h3 | h3
  · have a1 : ¬ i < 8 := by omega
    have a2 : ¬ i - 8 < 8 := by omega
    have a3 : i - 8 - 8 < 8 := by omega
    have a4 : 16 + (i - 8 - 8) = i := by omega
    simp only [a1, a2, a3, a4]
    simp
  · have a1 : ¬ i < 8 := by omega
    have a2 : ¬ i - 8 < 8 := by omega
    have a3 : ¬ i - 8 - 8 < 8 := by omega
    have a4 : i - 8 - 8 - 8 < 8 := by omega
    have a5 : 24 + (i - 8 - 8 - 8) = i := by omega
    simp only [a1, a2, a3, a4, a5]
    simp

@[simp] theorem bytes16_length (e : Endian) (v : Word16) : (bytes16 e v).length = 2 := by cases e <;> rfl

@[simp] theorem bytes32_length (e : Endian) (v : Word32) : (bytes32 e v).length = 4 := by cases e <;> rfl

/-- The 16-bit field of the bytes a 16-bit quantity is stored as. -/
theorem word16_bytes16 (e : Endian) (v : Word16) :
    word16 e ((bytes16 e v).getD 0 0) ((bytes16 e v).getD 1 0) = v := by
  cases e <;> exact hiLo_bytes v

/-- The bytes a 16-bit field of two bytes is stored as. -/
theorem bytes16_word16 (e : Endian) (a b : Byte) : bytes16 e (word16 e a b) = [a, b] := by
  cases e <;> simp [bytes16, word16]

/-- The 32-bit field of the bytes a 32-bit quantity is stored as. -/
theorem word32_bytes32 (e : Endian) (v : Word32) :
    word32 e ((bytes32 e v).getD 0 0) ((bytes32 e v).getD 1 0) ((bytes32 e v).getD 2 0) ((bytes32 e v).getD 3 0) = v := by
  cases e <;> exact word32_bytes v

/-- An inbound region built from 30 bytes and a code is whole. -/
theorem inboundBytes_length (c : Cfg) (code : Word16) (rest : List Byte) (h : rest.length = 30)
    (hc : c.mb.cmdOff + 2 ≤ regionSize) : (inboundBytes c code rest).length = regionSize := by
  have h30 : c.mb.cmdOff ≤ 30 := by
    have : regionSize = 32 := rfl
    omega
  simp [inboundBytes, h, regionSize]
  omega

/-- The code of an inbound region is the code it was built with. -/
theorem codeOf_inboundBytes (c : Cfg) (code : Word16) (rest : List Byte) (h : rest.length = 30)
    (hc : c.mb.cmdOff + 2 ≤ regionSize) : codeOf c (inboundBytes c code rest) = code := by
  have h30 : c.mb.cmdOff ≤ 30 := by
    have : regionSize = 32 := rfl
    omega
  have hl : (rest.take c.mb.cmdOff).length = c.mb.cmdOff := by simp [h]; omega
  have h2 := word16_bytes16 c.mb.endian code
  have hb := bytes16_length c.mb.endian code
  have hd : ∀ k, k < 2 → (inboundBytes c code rest).getD (c.mb.cmdOff + k) 0 = (bytes16 c.mb.endian code).getD k 0 := by
    intro k hk
    rw [inboundBytes, List.append_assoc, List.getD_append_right _ _ _ _ (by omega), hl,
      List.getD_append _ _ _ _ (by omega)]
    congr 1
    omega
  have h0 := hd 0 (by omega)
  have h1 := hd 1 (by omega)
  rw [Nat.add_zero] at h0
  rw [codeOf, h0, h1, h2]

/-- The rest of an inbound region is the rest it was built with. -/
theorem withoutCode_inboundBytes (c : Cfg) (code : Word16) (rest : List Byte) (h : rest.length = 30)
    (hc : c.mb.cmdOff + 2 ≤ regionSize) : withoutCode c (inboundBytes c code rest) = rest := by
  have h30 : c.mb.cmdOff ≤ 30 := by
    have : regionSize = 32 := rfl
    omega
  have hl : (rest.take c.mb.cmdOff).length = c.mb.cmdOff := by simp [h]; omega
  have hb := bytes16_length c.mb.endian code
  have h1 : (inboundBytes c code rest).take c.mb.cmdOff = rest.take c.mb.cmdOff := by
    rw [inboundBytes, List.append_assoc, List.take_append_of_le_length (by omega), List.take_of_length_le (by omega)]
  have h2 : (inboundBytes c code rest).drop (c.mb.cmdOff + 2) = rest.drop c.mb.cmdOff := by
    rw [inboundBytes, List.drop_append_of_le_length (by simp [h]; omega), List.drop_of_length_le (by simp [h])]
    rfl
  rw [withoutCode, h1, h2, List.take_append_drop]

end Sys2Proof
end

