-- ==== Sys2Proof/Laws/Opcodes.lean ====
section
/-! SUPPORT. What the opcode maps select under a legal configuration: each opcode of a map selects its own row. -/

namespace Sys2Proof.Machine

open Sys2Proof

/-- In a table whose keys are distinct, a row's key selects that row. -/
theorem lookup_of_nodup {α β : Type} [DecidableEq α] (l : List (α × β)) (a : α) (b : β) (h : (l.map Prod.fst).Nodup)
    (hm : (a, b) ∈ l) : l.lookup a = some b := by
  induction l with
  | nil => simp at hm
  | cons p rest ih =>
    obtain ⟨x, y⟩ := p
    simp only [List.map_cons, List.nodup_cons] at h
    rcases List.mem_cons.1 hm with he | hr
    · cases he; simp
    · have hx : a ≠ x := by
        rintro rfl
        exact h.1 (List.mem_map.2 ⟨(a, b), hr, rfl⟩)
      have hb : (a == x) = false := by simpa using hx
      rw [List.lookup_cons, hb]
      exact ih h.2 hr

/-- A key that selects nothing is no row's key. -/
theorem ne_of_lookup_none {α β : Type} [DecidableEq α] (l : List (α × β)) (a x : α) (b : β) (h : l.lookup a = none)
    (hm : (x, b) ∈ l) : a ≠ x := by
  rintro rfl
  rw [List.lookup_eq_none_iff] at h
  have := h _ hm
  simp at this

/-- A row that is selected is a row of the table. -/
theorem mem_of_lookup {α β : Type} [DecidableEq α] (l : List (α × β)) (a : α) (b : β) (h : l.lookup a = some b) :
    (a, b) ∈ l := by
  induction l with
  | nil => simp at h
  | cons p rest ih =>
    obtain ⟨x, y⟩ := p
    rw [List.lookup_cons] at h
    by_cases hx : a = x
    · subst hx; simp at h; simp [h]
    · have hb : (a == x) = false := by simpa using hx
      rw [hb] at h
      exact List.mem_cons_of_mem _ (ih h)

theorem Cfg.legal_bm {c : Cfg} (h : c.legal = true) : c.bm.legal = true := by
  simp only [Cfg.legal, Bool.and_eq_true] at h
  exact h.1.1

theorem Cfg.legal_mb {c : Cfg} (h : c.legal = true) : c.mb.legal = true := by
  simp only [Cfg.legal, Bool.and_eq_true] at h
  exact h.1.2

theorem Cfg.legal_coinMax {c : Cfg} (h : c.legal = true) : c.jv.coinMax ≤ 0x3FFF := by
  simp only [Cfg.legal, Bool.and_eq_true, decide_eq_true_eq] at h
  exact h.2

theorem Cfg.legal_backupSize {c : Cfg} (h : c.legal = true) : 0 < c.bm.backupSize ∧ c.bm.backupSize ≤ 65536 := by
  have := Cfg.legal_bm h
  simp only [BmCfg.legal, Bool.and_eq_true, decide_eq_true_eq] at this
  exact this.1.1.1

theorem Cfg.legal_lancnt {c : Cfg} (h : c.legal = true) : c.bm.lancntAssert ≠ c.bm.lancntClear := by
  have := Cfg.legal_bm h
  simp only [BmCfg.legal, Bool.and_eq_true, decide_eq_true_eq] at this
  exact this.2

theorem Cfg.legal_windows {c : Cfg} (h : c.legal = true) : c.mb.legacyBase ≤ 0x2C0 ∧ c.mb.revisedBase ≤ 0x2C0
    ∧ (c.mb.legacyBase + 0x40 ≤ c.mb.revisedBase ∨ c.mb.revisedBase + 0x40 ≤ c.mb.legacyBase)
    ∧ c.mb.cmdOff + 2 ≤ regionSize ∧ c.mb.doneOff < regionSize := by
  have := Cfg.legal_mb h
  simp only [MbCfg.legal, Bool.and_eq_true, decide_eq_true_eq] at this
  exact ⟨this.1.1.1.1, this.1.1.1.2, this.1.1.2, this.1.2, this.2⟩

theorem bmTable_nodup {c : Cfg} (h : c.legal = true) : ((bmTable c).map Prod.fst).Nodup := by
  have := Cfg.legal_bm h
  simp only [BmCfg.legal, Bool.and_eq_true, decide_eq_true_eq] at this
  exact this.1.1.2

/-- No BMSC opcode is 0x00 (R104). -/
theorem bmTable_ne_zero {c : Cfg} (h : c.legal = true) {x : Byte} {o : BmOp} (hm : (x, o) ∈ bmTable c) : x ≠ 0 := by
  have := Cfg.legal_bm h
  simp only [BmCfg.legal, Bool.and_eq_true, decide_eq_true_eq] at this
  rintro rfl
  have h0 : (0 : Byte) ∈ (bmTable c).map Prod.fst := List.mem_map.2 ⟨(0, o), hm, rfl⟩
  exact this.1.2 h0

theorem siOps_ne {c : Cfg} (h : c.codesDistinct = true) : c.jv.siOpReset ≠ c.jv.siOpCommand := by
  simp only [Cfg.codesDistinct, Bool.and_eq_true, decide_eq_true_eq] at h
  exact h.1.1.1

theorem chTable_nodup {c : Cfg} (h : c.codesDistinct = true) : ((chTable c).map Prod.fst).Nodup := by
  simp only [Cfg.codesDistinct, Bool.and_eq_true, decide_eq_true_eq] at h
  exact h.1.1.2

theorem jopTable_nodup {c : Cfg} (h : c.codesDistinct = true) : ((jopTable c).map Prod.fst).Nodup := by
  simp only [Cfg.codesDistinct, Bool.and_eq_true, decide_eq_true_eq] at h
  exact h.1.2

theorem mbTable_nodup {c : Cfg} (h : c.codesDistinct = true) : ((mbTable c).map Prod.fst).Nodup := by
  simp only [Cfg.codesDistinct, Bool.and_eq_true, decide_eq_true_eq] at h
  exact h.2


theorem bmOpOf_opOffsetSet {c : Cfg} (h : c.legal = true) : bmOpOf c c.bm.opOffsetSet = some .offsetSet :=
  lookup_of_nodup _ _ _ (bmTable_nodup h) (by simp [bmTable])

theorem opOffsetSet_ne_zero {c : Cfg} (h : c.legal = true) : c.bm.opOffsetSet ≠ 0 :=
  bmTable_ne_zero h (o := .offsetSet) (by simp [bmTable])

theorem bmOpOf_opWrite {c : Cfg} (h : c.legal = true) : bmOpOf c c.bm.opWrite = some .write :=
  lookup_of_nodup _ _ _ (bmTable_nodup h) (by simp [bmTable])

theorem opWrite_ne_zero {c : Cfg} (h : c.legal = true) : c.bm.opWrite ≠ 0 :=
  bmTable_ne_zero h (o := .write) (by simp [bmTable])

theorem bmOpOf_opRead {c : Cfg} (h : c.legal = true) : bmOpOf c c.bm.opRead = some .read :=
  lookup_of_nodup _ _ _ (bmTable_nodup h) (by simp [bmTable])

theorem opRead_ne_zero {c : Cfg} (h : c.legal = true) : c.bm.opRead ≠ 0 :=
  bmTable_ne_zero h (o := .read) (by simp [bmTable])

theorem bmOpOf_opDmaSet {c : Cfg} (h : c.legal = true) : bmOpOf c c.bm.opDmaSet = some .dmaSet :=
  lookup_of_nodup _ _ _ (bmTable_nodup h) (by simp [bmTable])

theorem opDmaSet_ne_zero {c : Cfg} (h : c.legal = true) : c.bm.opDmaSet ≠ 0 :=
  bmTable_ne_zero h (o := .dmaSet) (by simp [bmTable])

theorem bmOpOf_opIsrRead {c : Cfg} (h : c.legal = true) : bmOpOf c c.bm.opIsrRead = some .isrRead :=
  lookup_of_nodup _ _ _ (bmTable_nodup h) (by simp [bmTable])

theorem opIsrRead_ne_zero {c : Cfg} (h : c.legal = true) : c.bm.opIsrRead ≠ 0 :=
  bmTable_ne_zero h (o := .isrRead) (by simp [bmTable])

theorem bmOpOf_opIsrWrite {c : Cfg} (h : c.legal = true) : bmOpOf c c.bm.opIsrWrite = some .isrWrite :=
  lookup_of_nodup _ _ _ (bmTable_nodup h) (by simp [bmTable])

theorem opIsrWrite_ne_zero {c : Cfg} (h : c.legal = true) : c.bm.opIsrWrite ≠ 0 :=
  bmTable_ne_zero h (o := .isrWrite) (by simp [bmTable])

theorem bmOpOf_opImrRead {c : Cfg} (h : c.legal = true) : bmOpOf c c.bm.opImrRead = some .imrRead :=
  lookup_of_nodup _ _ _ (bmTable_nodup h) (by simp [bmTable])

theorem opImrRead_ne_zero {c : Cfg} (h : c.legal = true) : c.bm.opImrRead ≠ 0 :=
  bmTable_ne_zero h (o := .imrRead) (by simp [bmTable])

theorem bmOpOf_opImrWrite {c : Cfg} (h : c.legal = true) : bmOpOf c c.bm.opImrWrite = some .imrWrite :=
  lookup_of_nodup _ _ _ (bmTable_nodup h) (by simp [bmTable])

theorem opImrWrite_ne_zero {c : Cfg} (h : c.legal = true) : c.bm.opImrWrite ≠ 0 :=
  bmTable_ne_zero h (o := .imrWrite) (by simp [bmTable])

theorem bmOpOf_opLancntWrite {c : Cfg} (h : c.legal = true) : bmOpOf c c.bm.opLancntWrite = some .lancntWrite :=
  lookup_of_nodup _ _ _ (bmTable_nodup h) (by simp [bmTable])

theorem opLancntWrite_ne_zero {c : Cfg} (h : c.legal = true) : c.bm.opLancntWrite ≠ 0 :=
  bmTable_ne_zero h (o := .lancntWrite) (by simp [bmTable])

theorem chOpOf_chJvs {c : Cfg} (h : c.codesDistinct = true) : chOpOf c c.jv.chJvs = some .jvs :=
  lookup_of_nodup _ _ _ (chTable_nodup h) (by simp [chTable])

theorem chOpOf_chCard {c : Cfg} (h : c.codesDistinct = true) : chOpOf c c.jv.chCard = some .card :=
  lookup_of_nodup _ _ _ (chTable_nodup h) (by simp [chTable])

theorem chOpOf_chICCard {c : Cfg} (h : c.codesDistinct = true) : chOpOf c c.jv.chICCard = some .icCard :=
  lookup_of_nodup _ _ _ (chTable_nodup h) (by simp [chTable])

theorem jopOf_boardID {c : Cfg} (h : c.codesDistinct = true) : jopOf c c.jv.jop.boardID = some .boardID :=
  lookup_of_nodup _ _ _ (jopTable_nodup h) (by simp [jopTable])

theorem jopOf_commandRev {c : Cfg} (h : c.codesDistinct = true) : jopOf c c.jv.jop.commandRev = some .commandRev :=
  lookup_of_nodup _ _ _ (jopTable_nodup h) (by simp [jopTable])

theorem jopOf_jvRev {c : Cfg} (h : c.codesDistinct = true) : jopOf c c.jv.jop.jvRev = some .jvRev :=
  lookup_of_nodup _ _ _ (jopTable_nodup h) (by simp [jopTable])

theorem jopOf_commRev {c : Cfg} (h : c.codesDistinct = true) : jopOf c c.jv.jop.commRev = some .commRev :=
  lookup_of_nodup _ _ _ (jopTable_nodup h) (by simp [jopTable])

theorem jopOf_capabilities {c : Cfg} (h : c.codesDistinct = true) : jopOf c c.jv.jop.capabilities = some .capabilities :=
  lookup_of_nodup _ _ _ (jopTable_nodup h) (by simp [jopTable])

theorem jopOf_switchInput {c : Cfg} (h : c.codesDistinct = true) : jopOf c c.jv.jop.switchInput = some .switchInput :=
  lookup_of_nodup _ _ _ (jopTable_nodup h) (by simp [jopTable])

theorem jopOf_coinInput {c : Cfg} (h : c.codesDistinct = true) : jopOf c c.jv.jop.coinInput = some .coinInput :=
  lookup_of_nodup _ _ _ (jopTable_nodup h) (by simp [jopTable])

theorem jopOf_analogInput {c : Cfg} (h : c.codesDistinct = true) : jopOf c c.jv.jop.analogInput = some .analogInput :=
  lookup_of_nodup _ _ _ (jopTable_nodup h) (by simp [jopTable])

theorem jopOf_positionInput {c : Cfg} (h : c.codesDistinct = true) : jopOf c c.jv.jop.positionInput = some .positionInput :=
  lookup_of_nodup _ _ _ (jopTable_nodup h) (by simp [jopTable])

theorem jopOf_coinSub {c : Cfg} (h : c.codesDistinct = true) : jopOf c c.jv.jop.coinSub = some .coinSub :=
  lookup_of_nodup _ _ _ (jopTable_nodup h) (by simp [jopTable])

theorem jopOf_driverOutput {c : Cfg} (h : c.codesDistinct = true) : jopOf c c.jv.jop.driverOutput = some .driverOutput :=
  lookup_of_nodup _ _ _ (jopTable_nodup h) (by simp [jopTable])

theorem jopOf_coinAdd {c : Cfg} (h : c.codesDistinct = true) : jopOf c c.jv.jop.coinAdd = some .coinAdd :=
  lookup_of_nodup _ _ _ (jopTable_nodup h) (by simp [jopTable])

theorem jopOf_namco {c : Cfg} (h : c.codesDistinct = true) : jopOf c c.jv.jop.namco = some .namco :=
  lookup_of_nodup _ _ _ (jopTable_nodup h) (by simp [jopTable])

theorem jopOf_reset {c : Cfg} (h : c.codesDistinct = true) : jopOf c c.jv.jop.reset = some .reset :=
  lookup_of_nodup _ _ _ (jopTable_nodup h) (by simp [jopTable])

theorem jopOf_setAddress {c : Cfg} (h : c.codesDistinct = true) : jopOf c c.jv.jop.setAddress = some .setAddress :=
  lookup_of_nodup _ _ _ (jopTable_nodup h) (by simp [jopTable])

theorem mbOpOf_getDIMMSize {c : Cfg} (h : c.codesDistinct = true) : mbOpOf c c.mb.mbc.getDIMMSize = some .getDIMMSize :=
  lookup_of_nodup _ _ _ (mbTable_nodup h) (by simp [mbTable])

theorem mbOpOf_getStatus {c : Cfg} (h : c.codesDistinct = true) : mbOpOf c c.mb.mbc.getStatus = some .getStatus :=
  lookup_of_nodup _ _ _ (mbTable_nodup h) (by simp [mbTable])

theorem mbOpOf_accept {c : Cfg} (h : c.codesDistinct = true) : mbOpOf c c.mb.mbc.accept = some .accept :=
  lookup_of_nodup _ _ _ (mbTable_nodup h) (by simp [mbTable])

theorem mbOpOf_bind {c : Cfg} (h : c.codesDistinct = true) : mbOpOf c c.mb.mbc.bind = some .bind :=
  lookup_of_nodup _ _ _ (mbTable_nodup h) (by simp [mbTable])

theorem mbOpOf_connect {c : Cfg} (h : c.codesDistinct = true) : mbOpOf c c.mb.mbc.connect = some .connect :=
  lookup_of_nodup _ _ _ (mbTable_nodup h) (by simp [mbTable])

theorem mbOpOf_inetAddr {c : Cfg} (h : c.codesDistinct = true) : mbOpOf c c.mb.mbc.inetAddr = some .inetAddr :=
  lookup_of_nodup _ _ _ (mbTable_nodup h) (by simp [mbTable])

theorem mbOpOf_listen {c : Cfg} (h : c.codesDistinct = true) : mbOpOf c c.mb.mbc.listen = some .listen :=
  lookup_of_nodup _ _ _ (mbTable_nodup h) (by simp [mbTable])

theorem mbOpOf_recv {c : Cfg} (h : c.codesDistinct = true) : mbOpOf c c.mb.mbc.recv = some .recv :=
  lookup_of_nodup _ _ _ (mbTable_nodup h) (by simp [mbTable])

theorem mbOpOf_send {c : Cfg} (h : c.codesDistinct = true) : mbOpOf c c.mb.mbc.send = some .send :=
  lookup_of_nodup _ _ _ (mbTable_nodup h) (by simp [mbTable])

theorem mbOpOf_socket {c : Cfg} (h : c.codesDistinct = true) : mbOpOf c c.mb.mbc.socket = some .socket :=
  lookup_of_nodup _ _ _ (mbTable_nodup h) (by simp [mbTable])

theorem mbOpOf_select {c : Cfg} (h : c.codesDistinct = true) : mbOpOf c c.mb.mbc.select = some .select :=
  lookup_of_nodup _ _ _ (mbTable_nodup h) (by simp [mbTable])

theorem mbOpOf_setSockOpt {c : Cfg} (h : c.codesDistinct = true) : mbOpOf c c.mb.mbc.setSockOpt = some .setSockOpt :=
  lookup_of_nodup _ _ _ (mbTable_nodup h) (by simp [mbTable])

theorem mbOpOf_setTimeOuts {c : Cfg} (h : c.codesDistinct = true) : mbOpOf c c.mb.mbc.setTimeOuts = some .setTimeOuts :=
  lookup_of_nodup _ _ _ (mbTable_nodup h) (by simp [mbTable])

theorem mbOpOf_getLastError {c : Cfg} (h : c.codesDistinct = true) : mbOpOf c c.mb.mbc.getLastError = some .getLastError :=
  lookup_of_nodup _ _ _ (mbTable_nodup h) (by simp [mbTable])

theorem mbOpOf_modifyMyIPaddr {c : Cfg} (h : c.codesDistinct = true) : mbOpOf c c.mb.mbc.modifyMyIPaddr = some .modifyMyIPaddr :=
  lookup_of_nodup _ _ _ (mbTable_nodup h) (by simp [mbTable])

theorem mbOpOf_serialInit {c : Cfg} (h : c.codesDistinct = true) : mbOpOf c c.mb.mbc.serialInit = some .serialInit :=
  lookup_of_nodup _ _ _ (mbTable_nodup h) (by simp [mbTable])

end Sys2Proof.Machine
end

