-- ==== Sys2Proof/Laws/State.lean ====
section
/-! SUPPORT. One lemma per field of each update the meanings make, so that no proof unfolds a record update. -/

namespace Sys2Proof.Machine

open Sys2Proof

@[simp] theorem State.withBmsc_cfg (s : State) (b : Bmsc) (r : Result) : (s.withBmsc b r).cfg = s.cfg := rfl
@[simp] theorem State.withBmsc_bmsc (s : State) (b : Bmsc) (r : Result) : (s.withBmsc b r).bmsc = b := rfl
@[simp] theorem State.withBmsc_jvsc (s : State) (b : Bmsc) (r : Result) : (s.withBmsc b r).jvsc = s.jvsc := rfl
@[simp] theorem State.withBmsc_mbmp (s : State) (b : Bmsc) (r : Result) : (s.withBmsc b r).mbmp = s.mbmp := rfl
@[simp] theorem State.withBmsc_result (s : State) (b : Bmsc) (r : Result) : (s.withBmsc b r).result = r := rfl
@[simp] theorem State.withBmsc_pending (s : State) (b : Bmsc) (r : Result) : (s.withBmsc b r).pending = s.pending := rfl

@[simp] theorem State.withJvsc_cfg (s : State) (b : Jvsc) (r : Result) : (s.withJvsc b r).cfg = s.cfg := rfl
@[simp] theorem State.withJvsc_bmsc (s : State) (b : Jvsc) (r : Result) : (s.withJvsc b r).bmsc = s.bmsc := rfl
@[simp] theorem State.withJvsc_jvsc (s : State) (b : Jvsc) (r : Result) : (s.withJvsc b r).jvsc = b := rfl
@[simp] theorem State.withJvsc_mbmp (s : State) (b : Jvsc) (r : Result) : (s.withJvsc b r).mbmp = s.mbmp := rfl
@[simp] theorem State.withJvsc_result (s : State) (b : Jvsc) (r : Result) : (s.withJvsc b r).result = r := rfl
@[simp] theorem State.withJvsc_pending (s : State) (b : Jvsc) (r : Result) : (s.withJvsc b r).pending = s.pending := rfl

@[simp] theorem State.withMbmp_cfg (s : State) (b : Mbmp) (r : Result) : (s.withMbmp b r).cfg = s.cfg := rfl
@[simp] theorem State.withMbmp_bmsc (s : State) (b : Mbmp) (r : Result) : (s.withMbmp b r).bmsc = s.bmsc := rfl
@[simp] theorem State.withMbmp_jvsc (s : State) (b : Mbmp) (r : Result) : (s.withMbmp b r).jvsc = s.jvsc := rfl
@[simp] theorem State.withMbmp_mbmp (s : State) (b : Mbmp) (r : Result) : (s.withMbmp b r).mbmp = b := rfl
@[simp] theorem State.withMbmp_result (s : State) (b : Mbmp) (r : Result) : (s.withMbmp b r).result = r := rfl
@[simp] theorem State.withMbmp_pending (s : State) (b : Mbmp) (r : Result) : (s.withMbmp b r).pending = s.pending := rfl

@[simp] theorem Bmsc.raise_cs (b : Bmsc) (e : BmEvent) : (b.raise e).cs = b.cs := rfl
@[simp] theorem Bmsc.raise_pos (b : Bmsc) (e : BmEvent) : (b.raise e).pos = b.pos := rfl
@[simp] theorem Bmsc.raise_x0 (b : Bmsc) (e : BmEvent) : (b.raise e).x0 = b.x0 := rfl
@[simp] theorem Bmsc.raise_x1 (b : Bmsc) (e : BmEvent) : (b.raise e).x1 = b.x1 := rfl
@[simp] theorem Bmsc.raise_x2 (b : Bmsc) (e : BmEvent) : (b.raise e).x2 = b.x2 := rfl
@[simp] theorem Bmsc.raise_x3 (b : Bmsc) (e : BmEvent) : (b.raise e).x3 = b.x3 := rfl
@[simp] theorem Bmsc.raise_cursor (b : Bmsc) (e : BmEvent) : (b.raise e).cursor = b.cursor := rfl
@[simp] theorem Bmsc.raise_dmaOff (b : Bmsc) (e : BmEvent) : (b.raise e).dmaOff = b.dmaOff := rfl
@[simp] theorem Bmsc.raise_dmaLen (b : Bmsc) (e : BmEvent) : (b.raise e).dmaLen = b.dmaLen := rfl
@[simp] theorem Bmsc.raise_isr (b : Bmsc) (e : BmEvent) : (b.raise e).isr = b.isr := rfl
@[simp] theorem Bmsc.raise_imr (b : Bmsc) (e : BmEvent) : (b.raise e).imr = b.imr := rfl
@[simp] theorem Bmsc.raise_irqPending (b : Bmsc) (e : BmEvent) : (b.raise e).irqPending = b.irqPending := rfl
@[simp] theorem Bmsc.raise_irqCount (b : Bmsc) (e : BmEvent) : (b.raise e).irqCount = b.irqCount := rfl
@[simp] theorem Bmsc.raise_rxSr (b : Bmsc) (e : BmEvent) : (b.raise e).rxSr = b.rxSr := rfl
@[simp] theorem Bmsc.raise_txSr (b : Bmsc) (e : BmEvent) : (b.raise e).txSr = b.txSr := rfl
@[simp] theorem Bmsc.raise_bitcnt (b : Bmsc) (e : BmEvent) : (b.raise e).bitcnt = b.bitcnt := rfl
@[simp] theorem Bmsc.raise_bk (b : Bmsc) (e : BmEvent) : (b.raise e).bk = b.bk := rfl
@[simp] theorem Bmsc.raise_log (b : Bmsc) (e : BmEvent) : (b.raise e).log = b.log ++ [e] := rfl
@[simp] theorem Bmsc.raise_guestOut (b : Bmsc) (e : BmEvent) : (b.raise e).guestOut = b.guestOut := rfl

@[simp] theorem Bmsc.seek_cs (c : Cfg) (b : Bmsc) (o : Word16) : (b.seek c o).cs = b.cs := rfl
@[simp] theorem Bmsc.seek_pos (c : Cfg) (b : Bmsc) (o : Word16) : (b.seek c o).pos = b.pos := rfl
@[simp] theorem Bmsc.seek_x0 (c : Cfg) (b : Bmsc) (o : Word16) : (b.seek c o).x0 = b.x0 := rfl
@[simp] theorem Bmsc.seek_x1 (c : Cfg) (b : Bmsc) (o : Word16) : (b.seek c o).x1 = b.x1 := rfl
@[simp] theorem Bmsc.seek_x2 (c : Cfg) (b : Bmsc) (o : Word16) : (b.seek c o).x2 = b.x2 := rfl
@[simp] theorem Bmsc.seek_x3 (c : Cfg) (b : Bmsc) (o : Word16) : (b.seek c o).x3 = b.x3 := rfl
@[simp] theorem Bmsc.seek_cursor (c : Cfg) (b : Bmsc) (o : Word16) : (b.seek c o).cursor = BitVec.ofNat 16 (o.toNat % c.bm.backupSize) := rfl
@[simp] theorem Bmsc.seek_dmaOff (c : Cfg) (b : Bmsc) (o : Word16) : (b.seek c o).dmaOff = b.dmaOff := rfl
@[simp] theorem Bmsc.seek_dmaLen (c : Cfg) (b : Bmsc) (o : Word16) : (b.seek c o).dmaLen = b.dmaLen := rfl
@[simp] theorem Bmsc.seek_isr (c : Cfg) (b : Bmsc) (o : Word16) : (b.seek c o).isr = b.isr := rfl
@[simp] theorem Bmsc.seek_imr (c : Cfg) (b : Bmsc) (o : Word16) : (b.seek c o).imr = b.imr := rfl
@[simp] theorem Bmsc.seek_irqPending (c : Cfg) (b : Bmsc) (o : Word16) : (b.seek c o).irqPending = b.irqPending := rfl
@[simp] theorem Bmsc.seek_irqCount (c : Cfg) (b : Bmsc) (o : Word16) : (b.seek c o).irqCount = b.irqCount := rfl
@[simp] theorem Bmsc.seek_rxSr (c : Cfg) (b : Bmsc) (o : Word16) : (b.seek c o).rxSr = b.rxSr := rfl
@[simp] theorem Bmsc.seek_txSr (c : Cfg) (b : Bmsc) (o : Word16) : (b.seek c o).txSr = b.txSr := rfl
@[simp] theorem Bmsc.seek_bitcnt (c : Cfg) (b : Bmsc) (o : Word16) : (b.seek c o).bitcnt = b.bitcnt := rfl
@[simp] theorem Bmsc.seek_bk (c : Cfg) (b : Bmsc) (o : Word16) : (b.seek c o).bk = b.bk := rfl
@[simp] theorem Bmsc.seek_log (c : Cfg) (b : Bmsc) (o : Word16) : (b.seek c o).log = b.log := rfl
@[simp] theorem Bmsc.seek_guestOut (c : Cfg) (b : Bmsc) (o : Word16) : (b.seek c o).guestOut = b.guestOut := rfl

@[simp] theorem Bmsc.advance_cs (c : Cfg) (b : Bmsc) : (b.advance c).cs = b.cs := rfl
@[simp] theorem Bmsc.advance_pos (c : Cfg) (b : Bmsc) : (b.advance c).pos = b.pos := rfl
@[simp] theorem Bmsc.advance_x0 (c : Cfg) (b : Bmsc) : (b.advance c).x0 = b.x0 := rfl
@[simp] theorem Bmsc.advance_x1 (c : Cfg) (b : Bmsc) : (b.advance c).x1 = b.x1 := rfl
@[simp] theorem Bmsc.advance_x2 (c : Cfg) (b : Bmsc) : (b.advance c).x2 = b.x2 := rfl
@[simp] theorem Bmsc.advance_x3 (c : Cfg) (b : Bmsc) : (b.advance c).x3 = b.x3 := rfl
@[simp] theorem Bmsc.advance_cursor (c : Cfg) (b : Bmsc) : (b.advance c).cursor = BitVec.ofNat 16 ((b.cursor.toNat + 1) % c.bm.backupSize) := rfl
@[simp] theorem Bmsc.advance_dmaOff (c : Cfg) (b : Bmsc) : (b.advance c).dmaOff = b.dmaOff := rfl
@[simp] theorem Bmsc.advance_dmaLen (c : Cfg) (b : Bmsc) : (b.advance c).dmaLen = b.dmaLen := rfl
@[simp] theorem Bmsc.advance_isr (c : Cfg) (b : Bmsc) : (b.advance c).isr = b.isr := rfl
@[simp] theorem Bmsc.advance_imr (c : Cfg) (b : Bmsc) : (b.advance c).imr = b.imr := rfl
@[simp] theorem Bmsc.advance_irqPending (c : Cfg) (b : Bmsc) : (b.advance c).irqPending = b.irqPending := rfl
@[simp] theorem Bmsc.advance_irqCount (c : Cfg) (b : Bmsc) : (b.advance c).irqCount = b.irqCount := rfl
@[simp] theorem Bmsc.advance_rxSr (c : Cfg) (b : Bmsc) : (b.advance c).rxSr = b.rxSr := rfl
@[simp] theorem Bmsc.advance_txSr (c : Cfg) (b : Bmsc) : (b.advance c).txSr = b.txSr := rfl
@[simp] theorem Bmsc.advance_bitcnt (c : Cfg) (b : Bmsc) : (b.advance c).bitcnt = b.bitcnt := rfl
@[simp] theorem Bmsc.advance_bk (c : Cfg) (b : Bmsc) : (b.advance c).bk = b.bk := rfl
@[simp] theorem Bmsc.advance_log (c : Cfg) (b : Bmsc) : (b.advance c).log = b.log := rfl
@[simp] theorem Bmsc.advance_guestOut (c : Cfg) (b : Bmsc) : (b.advance c).guestOut = b.guestOut := rfl

@[simp] theorem Bmsc.bkWrite_cs (c : Cfg) (b : Bmsc) (a : Nat) (v : Byte) : (b.bkWrite c a v).cs = b.cs := rfl
@[simp] theorem Bmsc.bkWrite_pos (c : Cfg) (b : Bmsc) (a : Nat) (v : Byte) : (b.bkWrite c a v).pos = b.pos := rfl
@[simp] theorem Bmsc.bkWrite_x0 (c : Cfg) (b : Bmsc) (a : Nat) (v : Byte) : (b.bkWrite c a v).x0 = b.x0 := rfl
@[simp] theorem Bmsc.bkWrite_x1 (c : Cfg) (b : Bmsc) (a : Nat) (v : Byte) : (b.bkWrite c a v).x1 = b.x1 := rfl
@[simp] theorem Bmsc.bkWrite_x2 (c : Cfg) (b : Bmsc) (a : Nat) (v : Byte) : (b.bkWrite c a v).x2 = b.x2 := rfl
@[simp] theorem Bmsc.bkWrite_x3 (c : Cfg) (b : Bmsc) (a : Nat) (v : Byte) : (b.bkWrite c a v).x3 = b.x3 := rfl
@[simp] theorem Bmsc.bkWrite_cursor (c : Cfg) (b : Bmsc) (a : Nat) (v : Byte) : (b.bkWrite c a v).cursor = b.cursor := rfl
@[simp] theorem Bmsc.bkWrite_dmaOff (c : Cfg) (b : Bmsc) (a : Nat) (v : Byte) : (b.bkWrite c a v).dmaOff = b.dmaOff := rfl
@[simp] theorem Bmsc.bkWrite_dmaLen (c : Cfg) (b : Bmsc) (a : Nat) (v : Byte) : (b.bkWrite c a v).dmaLen = b.dmaLen := rfl
@[simp] theorem Bmsc.bkWrite_isr (c : Cfg) (b : Bmsc) (a : Nat) (v : Byte) : (b.bkWrite c a v).isr = b.isr := rfl
@[simp] theorem Bmsc.bkWrite_imr (c : Cfg) (b : Bmsc) (a : Nat) (v : Byte) : (b.bkWrite c a v).imr = b.imr := rfl
@[simp] theorem Bmsc.bkWrite_irqPending (c : Cfg) (b : Bmsc) (a : Nat) (v : Byte) : (b.bkWrite c a v).irqPending = b.irqPending := rfl
@[simp] theorem Bmsc.bkWrite_irqCount (c : Cfg) (b : Bmsc) (a : Nat) (v : Byte) : (b.bkWrite c a v).irqCount = b.irqCount := rfl
@[simp] theorem Bmsc.bkWrite_rxSr (c : Cfg) (b : Bmsc) (a : Nat) (v : Byte) : (b.bkWrite c a v).rxSr = b.rxSr := rfl
@[simp] theorem Bmsc.bkWrite_txSr (c : Cfg) (b : Bmsc) (a : Nat) (v : Byte) : (b.bkWrite c a v).txSr = b.txSr := rfl
@[simp] theorem Bmsc.bkWrite_bitcnt (c : Cfg) (b : Bmsc) (a : Nat) (v : Byte) : (b.bkWrite c a v).bitcnt = b.bitcnt := rfl
@[simp] theorem Bmsc.bkWrite_bk (c : Cfg) (b : Bmsc) (a : Nat) (v : Byte) : (b.bkWrite c a v).bk = b.bk.write none (bkOffset c a) v := rfl
@[simp] theorem Bmsc.bkWrite_log (c : Cfg) (b : Bmsc) (a : Nat) (v : Byte) : (b.bkWrite c a v).log = b.log := rfl
@[simp] theorem Bmsc.bkWrite_guestOut (c : Cfg) (b : Bmsc) (a : Nat) (v : Byte) : (b.bkWrite c a v).guestOut = b.guestOut := rfl

@[simp] theorem Bmsc.writeByte_cs (c : Cfg) (b : Bmsc) (v : Byte) : (b.writeByte c v).cs = b.cs := rfl
@[simp] theorem Bmsc.writeByte_pos (c : Cfg) (b : Bmsc) (v : Byte) : (b.writeByte c v).pos = b.pos := rfl
@[simp] theorem Bmsc.writeByte_x0 (c : Cfg) (b : Bmsc) (v : Byte) : (b.writeByte c v).x0 = b.x0 := rfl
@[simp] theorem Bmsc.writeByte_x1 (c : Cfg) (b : Bmsc) (v : Byte) : (b.writeByte c v).x1 = b.x1 := rfl
@[simp] theorem Bmsc.writeByte_x2 (c : Cfg) (b : Bmsc) (v : Byte) : (b.writeByte c v).x2 = b.x2 := rfl
@[simp] theorem Bmsc.writeByte_x3 (c : Cfg) (b : Bmsc) (v : Byte) : (b.writeByte c v).x3 = b.x3 := rfl
@[simp] theorem Bmsc.writeByte_cursor (c : Cfg) (b : Bmsc) (v : Byte) : (b.writeByte c v).cursor = BitVec.ofNat 16 ((b.cursor.toNat + 1) % c.bm.backupSize) := rfl
@[simp] theorem Bmsc.writeByte_dmaOff (c : Cfg) (b : Bmsc) (v : Byte) : (b.writeByte c v).dmaOff = b.dmaOff := rfl
@[simp] theorem Bmsc.writeByte_dmaLen (c : Cfg) (b : Bmsc) (v : Byte) : (b.writeByte c v).dmaLen = b.dmaLen := rfl
@[simp] theorem Bmsc.writeByte_isr (c : Cfg) (b : Bmsc) (v : Byte) : (b.writeByte c v).isr = b.isr := rfl
@[simp] theorem Bmsc.writeByte_imr (c : Cfg) (b : Bmsc) (v : Byte) : (b.writeByte c v).imr = b.imr := rfl
@[simp] theorem Bmsc.writeByte_irqPending (c : Cfg) (b : Bmsc) (v : Byte) : (b.writeByte c v).irqPending = b.irqPending := rfl
@[simp] theorem Bmsc.writeByte_irqCount (c : Cfg) (b : Bmsc) (v : Byte) : (b.writeByte c v).irqCount = b.irqCount := rfl
@[simp] theorem Bmsc.writeByte_rxSr (c : Cfg) (b : Bmsc) (v : Byte) : (b.writeByte c v).rxSr = b.rxSr := rfl
@[simp] theorem Bmsc.writeByte_txSr (c : Cfg) (b : Bmsc) (v : Byte) : (b.writeByte c v).txSr = b.txSr := rfl
@[simp] theorem Bmsc.writeByte_bitcnt (c : Cfg) (b : Bmsc) (v : Byte) : (b.writeByte c v).bitcnt = b.bitcnt := rfl
@[simp] theorem Bmsc.writeByte_bk (c : Cfg) (b : Bmsc) (v : Byte) : (b.writeByte c v).bk = b.bk.write none (bkOffset c b.cursor.toNat) v := rfl
@[simp] theorem Bmsc.writeByte_log (c : Cfg) (b : Bmsc) (v : Byte) : (b.writeByte c v).log = b.log := rfl
@[simp] theorem Bmsc.writeByte_guestOut (c : Cfg) (b : Bmsc) (v : Byte) : (b.writeByte c v).guestOut = b.guestOut := rfl

@[simp] theorem Bmsc.guestWrite_cs (b : Bmsc) (a : Nat) (v : Byte) : (b.guestWrite a v).cs = b.cs := rfl
@[simp] theorem Bmsc.guestWrite_pos (b : Bmsc) (a : Nat) (v : Byte) : (b.guestWrite a v).pos = b.pos := rfl
@[simp] theorem Bmsc.guestWrite_x0 (b : Bmsc) (a : Nat) (v : Byte) : (b.guestWrite a v).x0 = b.x0 := rfl
@[simp] theorem Bmsc.guestWrite_x1 (b : Bmsc) (a : Nat) (v : Byte) : (b.guestWrite a v).x1 = b.x1 := rfl
@[simp] theorem Bmsc.guestWrite_x2 (b : Bmsc) (a : Nat) (v : Byte) : (b.guestWrite a v).x2 = b.x2 := rfl
@[simp] theorem Bmsc.guestWrite_x3 (b : Bmsc) (a : Nat) (v : Byte) : (b.guestWrite a v).x3 = b.x3 := rfl
@[simp] theorem Bmsc.guestWrite_cursor (b : Bmsc) (a : Nat) (v : Byte) : (b.guestWrite a v).cursor = b.cursor := rfl
@[simp] theorem Bmsc.guestWrite_dmaOff (b : Bmsc) (a : Nat) (v : Byte) : (b.guestWrite a v).dmaOff = b.dmaOff := rfl
@[simp] theorem Bmsc.guestWrite_dmaLen (b : Bmsc) (a : Nat) (v : Byte) : (b.guestWrite a v).dmaLen = b.dmaLen := rfl
@[simp] theorem Bmsc.guestWrite_isr (b : Bmsc) (a : Nat) (v : Byte) : (b.guestWrite a v).isr = b.isr := rfl
@[simp] theorem Bmsc.guestWrite_imr (b : Bmsc) (a : Nat) (v : Byte) : (b.guestWrite a v).imr = b.imr := rfl
@[simp] theorem Bmsc.guestWrite_irqPending (b : Bmsc) (a : Nat) (v : Byte) : (b.guestWrite a v).irqPending = b.irqPending := rfl
@[simp] theorem Bmsc.guestWrite_irqCount (b : Bmsc) (a : Nat) (v : Byte) : (b.guestWrite a v).irqCount = b.irqCount := rfl
@[simp] theorem Bmsc.guestWrite_rxSr (b : Bmsc) (a : Nat) (v : Byte) : (b.guestWrite a v).rxSr = b.rxSr := rfl
@[simp] theorem Bmsc.guestWrite_txSr (b : Bmsc) (a : Nat) (v : Byte) : (b.guestWrite a v).txSr = b.txSr := rfl
@[simp] theorem Bmsc.guestWrite_bitcnt (b : Bmsc) (a : Nat) (v : Byte) : (b.guestWrite a v).bitcnt = b.bitcnt := rfl
@[simp] theorem Bmsc.guestWrite_bk (b : Bmsc) (a : Nat) (v : Byte) : (b.guestWrite a v).bk = b.bk := rfl
@[simp] theorem Bmsc.guestWrite_log (b : Bmsc) (a : Nat) (v : Byte) : (b.guestWrite a v).log = b.log := rfl
@[simp] theorem Bmsc.guestWrite_guestOut (b : Bmsc) (a : Nat) (v : Byte) : (b.guestWrite a v).guestOut = b.guestOut ++ [(a, v)] := rfl

@[simp] theorem Bmsc.seekDma_cs (b : Bmsc) : (b.seekDma).cs = b.cs := rfl
@[simp] theorem Bmsc.seekDma_pos (b : Bmsc) : (b.seekDma).pos = b.pos := rfl
@[simp] theorem Bmsc.seekDma_x0 (b : Bmsc) : (b.seekDma).x0 = b.x0 := rfl
@[simp] theorem Bmsc.seekDma_x1 (b : Bmsc) : (b.seekDma).x1 = b.x1 := rfl
@[simp] theorem Bmsc.seekDma_x2 (b : Bmsc) : (b.seekDma).x2 = b.x2 := rfl
@[simp] theorem Bmsc.seekDma_x3 (b : Bmsc) : (b.seekDma).x3 = b.x3 := rfl
@[simp] theorem Bmsc.seekDma_cursor (b : Bmsc) : (b.seekDma).cursor = b.dmaOff := rfl
@[simp] theorem Bmsc.seekDma_dmaOff (b : Bmsc) : (b.seekDma).dmaOff = b.dmaOff := rfl
@[simp] theorem Bmsc.seekDma_dmaLen (b : Bmsc) : (b.seekDma).dmaLen = b.dmaLen := rfl
@[simp] theorem Bmsc.seekDma_isr (b : Bmsc) : (b.seekDma).isr = b.isr := rfl
@[simp] theorem Bmsc.seekDma_imr (b : Bmsc) : (b.seekDma).imr = b.imr := rfl
@[simp] theorem Bmsc.seekDma_irqPending (b : Bmsc) : (b.seekDma).irqPending = b.irqPending := rfl
@[simp] theorem Bmsc.seekDma_irqCount (b : Bmsc) : (b.seekDma).irqCount = b.irqCount := rfl
@[simp] theorem Bmsc.seekDma_rxSr (b : Bmsc) : (b.seekDma).rxSr = b.rxSr := rfl
@[simp] theorem Bmsc.seekDma_txSr (b : Bmsc) : (b.seekDma).txSr = b.txSr := rfl
@[simp] theorem Bmsc.seekDma_bitcnt (b : Bmsc) : (b.seekDma).bitcnt = b.bitcnt := rfl
@[simp] theorem Bmsc.seekDma_bk (b : Bmsc) : (b.seekDma).bk = b.bk := rfl
@[simp] theorem Bmsc.seekDma_log (b : Bmsc) : (b.seekDma).log = b.log := rfl
@[simp] theorem Bmsc.seekDma_guestOut (b : Bmsc) : (b.seekDma).guestOut = b.guestOut := rfl

@[simp] theorem Jvsc.raise_prevReply (j : Jvsc) (e : JvEvent) : (j.raise e).prevReply = j.prevReply := rfl
@[simp] theorem Jvsc.raise_coinCount (j : Jvsc) (e : JvEvent) : (j.raise e).coinCount = j.coinCount := rfl
@[simp] theorem Jvsc.raise_coinPrev (j : Jvsc) (e : JvEvent) : (j.raise e).coinPrev = j.coinPrev := rfl
@[simp] theorem Jvsc.raise_dipSwitch (j : Jvsc) (e : JvEvent) : (j.raise e).dipSwitch = j.dipSwitch := rfl
@[simp] theorem Jvsc.raise_jvsAddr (j : Jvsc) (e : JvEvent) : (j.raise e).jvsAddr = j.jvsAddr := rfl
@[simp] theorem Jvsc.raise_rx (j : Jvsc) (e : JvEvent) : (j.raise e).rx = j.rx := rfl
@[simp] theorem Jvsc.raise_enc (j : Jvsc) (e : JvEvent) : (j.raise e).enc = j.enc := rfl
@[simp] theorem Jvsc.raise_rp (j : Jvsc) (e : JvEvent) : (j.raise e).rp = j.rp := rfl
@[simp] theorem Jvsc.raise_cur (j : Jvsc) (e : JvEvent) : (j.raise e).cur = j.cur := rfl
@[simp] theorem Jvsc.raise_card (j : Jvsc) (e : JvEvent) : (j.raise e).card = j.card := rfl
@[simp] theorem Jvsc.raise_iccard (j : Jvsc) (e : JvEvent) : (j.raise e).iccard = j.iccard := rfl
@[simp] theorem Jvsc.raise_log (j : Jvsc) (e : JvEvent) : (j.raise e).log = j.log ++ [e] := rfl
@[simp] theorem Jvsc.raise_driverOut (j : Jvsc) (e : JvEvent) : (j.raise e).driverOut = j.driverOut := rfl

@[simp] theorem Jvsc.report_prevReply (c : Cfg) (j : Jvsc) (d : List Byte) : (j.report c d).prevReply = j.prevReply := rfl
@[simp] theorem Jvsc.report_coinCount (c : Cfg) (j : Jvsc) (d : List Byte) : (j.report c d).coinCount = j.coinCount := rfl
@[simp] theorem Jvsc.report_coinPrev (c : Cfg) (j : Jvsc) (d : List Byte) : (j.report c d).coinPrev = j.coinPrev := rfl
@[simp] theorem Jvsc.report_dipSwitch (c : Cfg) (j : Jvsc) (d : List Byte) : (j.report c d).dipSwitch = j.dipSwitch := rfl
@[simp] theorem Jvsc.report_jvsAddr (c : Cfg) (j : Jvsc) (d : List Byte) : (j.report c d).jvsAddr = j.jvsAddr := rfl
@[simp] theorem Jvsc.report_rx (c : Cfg) (j : Jvsc) (d : List Byte) : (j.report c d).rx = j.rx := rfl
@[simp] theorem Jvsc.report_enc (c : Cfg) (j : Jvsc) (d : List Byte) : (j.report c d).enc = j.enc := rfl
@[simp] theorem Jvsc.report_rp (c : Cfg) (j : Jvsc) (d : List Byte) : (j.report c d).rp = j.rp ++ c.jv.reportOk :: d := rfl
@[simp] theorem Jvsc.report_cur (c : Cfg) (j : Jvsc) (d : List Byte) : (j.report c d).cur = j.cur := rfl
@[simp] theorem Jvsc.report_card (c : Cfg) (j : Jvsc) (d : List Byte) : (j.report c d).card = j.card := rfl
@[simp] theorem Jvsc.report_iccard (c : Cfg) (j : Jvsc) (d : List Byte) : (j.report c d).iccard = j.iccard := rfl
@[simp] theorem Jvsc.report_log (c : Cfg) (j : Jvsc) (d : List Byte) : (j.report c d).log = j.log := rfl
@[simp] theorem Jvsc.report_driverOut (c : Cfg) (j : Jvsc) (d : List Byte) : (j.report c d).driverOut = j.driverOut := rfl

@[simp] theorem Jvsc.sampleCoins_prevReply (c : Cfg) (pad : PadStatus) (j : Jvsc) : (j.sampleCoins c pad).prevReply = j.prevReply := rfl
@[simp] theorem Jvsc.sampleCoins_coinCount (c : Cfg) (pad : PadStatus) (j : Jvsc) : (j.sampleCoins c pad).coinCount = (List.range c.jv.coinSlots).map (coinAfter c pad j) := rfl
@[simp] theorem Jvsc.sampleCoins_coinPrev (c : Cfg) (pad : PadStatus) (j : Jvsc) : (j.sampleCoins c pad).coinPrev = (List.range c.jv.coinSlots).map (Config.coinTrigger c.profile pad) := rfl
@[simp] theorem Jvsc.sampleCoins_dipSwitch (c : Cfg) (pad : PadStatus) (j : Jvsc) : (j.sampleCoins c pad).dipSwitch = j.dipSwitch := rfl
@[simp] theorem Jvsc.sampleCoins_jvsAddr (c : Cfg) (pad : PadStatus) (j : Jvsc) : (j.sampleCoins c pad).jvsAddr = j.jvsAddr := rfl
@[simp] theorem Jvsc.sampleCoins_rx (c : Cfg) (pad : PadStatus) (j : Jvsc) : (j.sampleCoins c pad).rx = j.rx := rfl
@[simp] theorem Jvsc.sampleCoins_enc (c : Cfg) (pad : PadStatus) (j : Jvsc) : (j.sampleCoins c pad).enc = j.enc := rfl
@[simp] theorem Jvsc.sampleCoins_rp (c : Cfg) (pad : PadStatus) (j : Jvsc) : (j.sampleCoins c pad).rp = j.rp := rfl
@[simp] theorem Jvsc.sampleCoins_cur (c : Cfg) (pad : PadStatus) (j : Jvsc) : (j.sampleCoins c pad).cur = j.cur := rfl
@[simp] theorem Jvsc.sampleCoins_card (c : Cfg) (pad : PadStatus) (j : Jvsc) : (j.sampleCoins c pad).card = j.card := rfl
@[simp] theorem Jvsc.sampleCoins_iccard (c : Cfg) (pad : PadStatus) (j : Jvsc) : (j.sampleCoins c pad).iccard = j.iccard := rfl
@[simp] theorem Jvsc.sampleCoins_log (c : Cfg) (pad : PadStatus) (j : Jvsc) : (j.sampleCoins c pad).log = j.log := rfl
@[simp] theorem Jvsc.sampleCoins_driverOut (c : Cfg) (pad : PadStatus) (j : Jvsc) : (j.sampleCoins c pad).driverOut = j.driverOut := rfl

@[simp] theorem Mbmp.raise_mb (m : Mbmp) (e : MbEvent) : (m.raise e).mb = m.mb := rfl
@[simp] theorem Mbmp.raise_intOut (m : Mbmp) (e : MbEvent) : (m.raise e).intOut = m.intOut := rfl
@[simp] theorem Mbmp.raise_log (m : Mbmp) (e : MbEvent) : (m.raise e).log = m.log ++ [e] := rfl

@[simp] theorem Mbmp.raiseInterrupt_mb (m : Mbmp) (f : Byte) : (m.raiseInterrupt f).mb = m.mb := rfl
@[simp] theorem Mbmp.raiseInterrupt_intOut (m : Mbmp) (f : Byte) : (m.raiseInterrupt f).intOut = m.intOut ++ [f] := rfl
@[simp] theorem Mbmp.raiseInterrupt_log (m : Mbmp) (f : Byte) : (m.raiseInterrupt f).log = m.log := rfl


end Sys2Proof.Machine
end

