-- ==== Sys2Proof/Laws/Framing.lean ====
section
/-! SUPPORT. What the frame receiver does with a stuffed frame, what a dispatch leaves alone, and what the call that carries
one frame does. -/

namespace Sys2Proof.Machine

open Sys2Proof

theorem stuff_append (f : JvCfg) (u v : List Byte) : stuff f (u ++ v) = stuff f u ++ stuff f v := by simp [stuff]

theorem stuff_cons (f : JvCfg) (b : Byte) (u : List Byte) : stuff f (b :: u) = stuffByte f b ++ stuff f u := by simp [stuff]

theorem stuffByte_length_le (f : JvCfg) (b : Byte) : (stuffByte f b).length ≤ 2 := by
  unfold stuffByte
  split <;> simp

/-- Stuffing at most doubles a length. -/
theorem stuff_length_le (f : JvCfg) (u : List Byte) : (stuff f u).length ≤ 2 * u.length := by
  induction u with
  | nil => simp [stuff]
  | cons b u ih =>
    have := stuffByte_length_le f b
    rw [stuff_cons, List.length_append, List.length_cons]
    omega

theorem jvsFrame_length_le (f : JvCfg) (node : Byte) (p : List Byte) :
    (jvsFrame f node p).length ≤ 2 * p.length + 7 := by
  have := stuff_length_le f (jvsHeader f.hdrOrder (byteOf (p.length + 1)) node ++ p ++ [jvsSum (byteOf (p.length + 1)) node p])
  have hh : (jvsHeader f.hdrOrder (byteOf (p.length + 1)) node).length = 2 := by cases f.hdrOrder <;> rfl
  simp only [List.length_append, hh, List.length_singleton] at this
  simp only [jvsFrame, List.length_cons]
  omega

theorem JvCfg.framingSound_iff (f : JvCfg) : f.framingSound = true ↔ f.sync ≠ f.mark ∧ f.sync ≠ f.mark - 1 := by
  simp [JvCfg.framingSound]

/-- The receiver inside a frame takes a stuffed byte for the byte it stands for. -/
theorem Jvsc.rxBytes_stuffByte (c : Cfg) (pad : PadStatus) (j : Jvsc) (b : Byte) (rest : List Byte)
    (hf : c.jv.framingSound = true) (hs : j.rx.state ≠ .waitSync) (he : j.rx.esc = false) :
    j.rxBytes c pad (stuffByte c.jv b ++ rest) =
      (let r := j.rxValue c pad b
       let q := r.2.rxBytes c pad rest
       (r.1 ++ q.1, q.2)) := by
  have hj : { j with rx := { j.rx with esc := false } } = j := by rw [← he]
  obtain ⟨hne, hesc⟩ := (JvCfg.framingSound_iff c.jv).1 hf
  by_cases hb : b = c.jv.sync ∨ b = c.jv.mark
  · have hm : ∀ k : Jvsc, k.rx.state ≠ .waitSync → k.rx.esc = false →
        k.rxByte c pad c.jv.mark = ([], { k with rx := { k.rx with esc := true } }) := by
      intro k h1 h2
      unfold Jvsc.rxByte
      rw [if_neg hne.symm, if_neg h1, if_pos ⟨h2, rfl⟩]
    have h1 : ∀ k : Jvsc, k.rx.state ≠ .waitSync → k.rx.esc = true →
        k.rxByte c pad (b - 1) = Jvsc.rxValue c pad { k with rx := { k.rx with esc := false } } b := by
      intro k h1 h2
      unfold Jvsc.rxByte
      have h3 : b - 1 ≠ c.jv.sync := by
        rcases hb with rfl | rfl
        · bv_omega
        · exact hesc.symm
      have h4 : b - 1 + 1 = b := by bv_omega
      rw [if_neg h3, if_neg h1, if_neg (by simp [h2]), if_pos h2, h4]
    have h2 := h1 { j with rx := { j.rx with esc := true } } hs rfl
    simp only at h2
    simp only [stuffByte, if_pos hb, List.cons_append, List.nil_append, Jvsc.rxBytes, hm j hs he, h2, hj]
  · have hb' := not_or.1 hb
    have h1 : j.rxByte c pad b = j.rxValue c pad b := by
      unfold Jvsc.rxByte
      rw [if_neg hb'.1, if_neg hs, if_neg (by simp [hb'.2]), he, hj]
      simp
    simp only [stuffByte, if_neg hb, List.cons_append, List.nil_append, Jvsc.rxBytes, h1]

/-- The receiver takes the stuffed payload of a frame up to the byte before the checksum. -/
theorem Jvsc.rxBytes_payload (c : Cfg) (pad : PadStatus) (p rest : List Byte) (j : Jvsc) (hf : c.jv.framingSound = true)
    (hp : p ≠ []) (hs : j.rx.state = .payload) (he : j.rx.esc = false) (hl : j.rx.left = p.length + 1) :
    j.rxBytes c pad (stuff c.jv p ++ rest) =
      Jvsc.rxBytes c pad
        { j with rx := { j.rx with buf := j.rx.buf ++ p, sum := p.foldl (· + ·) j.rx.sum, left := 1, state := .sum } }
        rest := by
  induction p generalizing j with
  | nil => exact absurd rfl hp
  | cons b p ih =>
    rw [stuff_cons, List.append_assoc, Jvsc.rxBytes_stuffByte c pad j b _ hf (by simp [hs]) he]
    simp only [Jvsc.rxValue, hs, hl, List.length_cons, Nat.add_sub_cancel]
    by_cases hn : p = []
    · subst hn
      simp [stuff]
    · have hne : ¬(p.length + 1 = 1) := by
        have := List.length_pos_of_ne_nil hn
        omega
      have := ih { j with rx := { j.rx with buf := j.rx.buf ++ [b], sum := j.rx.sum + b, left := p.length + 1,
                                            state := if p.length + 1 = 1 then .sum else .payload } }
        hn (by simp [hn]) he rfl
      simp only [List.nil_append, this, List.append_assoc, List.cons_append, List.foldl_cons]

/-- The receiver's working state when a frame's checksum byte is due (R205). -/
def Rx.due (o : HdrOrder) (node : Byte) (p : List Byte) : Rx :=
  let len := byteOf (p.length + 1)
  let h := match o with
    | .lenNode => (len, node)
    | .nodeLen => (node, len)
  { state := .sum, esc := false, h0 := h.1, h1 := h.2, len := len, node := node, sum := jvsSum len node p, buf := p, left := 1 }

@[simp] theorem Rx.due_node (o : HdrOrder) (node : Byte) (p : List Byte) : (Rx.due o node p).node = node := rfl
@[simp] theorem Rx.due_buf (o : HdrOrder) (node : Byte) (p : List Byte) : (Rx.due o node p).buf = p := rfl
@[simp] theorem Rx.due_esc (o : HdrOrder) (node : Byte) (p : List Byte) : (Rx.due o node p).esc = false := rfl
@[simp] theorem Rx.due_sum (o : HdrOrder) (node : Byte) (p : List Byte) :
    (Rx.due o node p).sum = jvsSum (byteOf (p.length + 1)) node p := rfl

/-- The receiver at the start of a chunk applied to a stuffed frame whose checksum byte is `v`: the frame is complete with its
node and payload, whatever follows it. -/
theorem Jvsc.rxBytes_frame (c : Cfg) (pad : PadStatus) (node v : Byte) (p rest : List Byte) (j : Jvsc)
    (hf : c.jv.framingSound = true) (hp : p.length ≤ 254) :
    Jvsc.rxBytes c pad { j with rx := Rx.start }
        (c.jv.sync :: (stuff c.jv (jvsHeader c.jv.hdrOrder (byteOf (p.length + 1)) node ++ p ++ [v]) ++ rest)) =
      (let r := Jvsc.frameDone c pad { j with rx := Rx.due c.jv.hdrOrder node p } v
       let q := r.2.rxBytes c pad rest
       (r.1 ++ q.1, q.2)) := by
  have hlen : (byteOf (p.length + 1)).toNat = p.length + 1 := by
    simp only [byteOf, BitVec.toNat_ofNat]
    omega
  have hlen0 : byteOf (p.length + 1) ≠ 0 := by
    intro h
    rw [h] at hlen
    simp at hlen
  have hlen1 : byteOf (p.length + 1) = 1 ↔ p = [] := by
    constructor
    · intro h
      rw [h] at hlen
      have : p.length = 0 := by simpa using hlen
      exact List.length_eq_zero_iff.1 this
    · rintro rfl
      rfl
  have hsync : ∀ x : List Byte, Jvsc.rxBytes c pad { j with rx := Rx.start } (c.jv.sync :: x) =
      Jvsc.rxBytes c pad { j with rx := { Rx.start with state := .hdr0 } } x := by
    intro x
    simp [Jvsc.rxBytes, Jvsc.rxByte, Rx.start]
  have hsumState : ∀ k : Jvsc, k.rx.state = .sum → k.rx.esc = false →
      k.rxBytes c pad (stuff c.jv [v] ++ rest) =
        (let r := k.frameDone c pad v
         let q := r.2.rxBytes c pad rest
         (r.1 ++ q.1, q.2)) := by
    intro k h1 h2
    rw [show stuff c.jv [v] = stuffByte c.jv v by simp [stuff], Jvsc.rxBytes_stuffByte c pad k v rest hf (by simp [h1]) h2]
    simp [Jvsc.rxValue, h1]
  have hbody : ∀ k : Jvsc, k.rx.state = (if byteOf (p.length + 1) = 1 then RxState.sum else .payload) → k.rx.esc = false →
      k.rx.left = p.length + 1 → k.rx.buf = [] →
      k.rxBytes c pad (stuff c.jv p ++ (stuff c.jv [v] ++ rest)) =
        (let r := Jvsc.frameDone c pad
          { k with rx := { k.rx with buf := p, sum := p.foldl (· + ·) k.rx.sum, left := 1, state := .sum } } v
         let q := r.2.rxBytes c pad rest
         (r.1 ++ q.1, q.2)) := by
    intro k h1 h2 h3 h4
    by_cases hn : p = []
    · subst hn
      have hk : k = { k with rx := { k.rx with buf := [], sum := k.rx.sum, left := 1, state := .sum } } := by
        rw [← h4, show (1 : Nat) = k.rx.left from h3.symm, show RxState.sum = k.rx.state from h1.symm]
      rw [show stuff c.jv [] = ([] : List Byte) from rfl, List.nil_append, hsumState k h1 h2]
      simp only [List.foldl_nil]
      rw [← hk]
    · rw [if_neg (fun h => hn (hlen1.1 h))] at h1
      have h5 := hsumState { k with rx := { k.rx with buf := k.rx.buf ++ p, sum := p.foldl (· + ·) k.rx.sum, left := 1,
                                                       state := .sum } } rfl h2
      rw [Jvsc.rxBytes_payload c pad p _ k hf hn h1 h2 h3, h5, h4, List.nil_append]
  have hsp : ∀ h : List Byte, stuff c.jv (h ++ p ++ [v]) ++ rest = stuff c.jv h ++ (stuff c.jv p ++ (stuff c.jv [v] ++ rest)) := by
    intro h
    simp only [stuff_append, List.append_assoc]
  rw [hsync, hsp]
  generalize stuff c.jv [v] = sv at hbody ⊢
  cases ho : c.jv.hdrOrder
  · rw [jvsHeader]
    simp only [stuff_cons, show stuff c.jv [] = ([] : List Byte) from rfl, List.append_nil, List.append_assoc]
    rw [Jvsc.rxBytes_stuffByte _ _ _ _ _ hf (by simp) rfl]
    simp only [Jvsc.rxValue, List.nil_append]
    rw [Jvsc.rxBytes_stuffByte _ _ _ _ _ hf (by simp) rfl]
    simp only [Jvsc.rxValue, rxHeader, ho, if_neg hlen0, List.nil_append, hlen]
    rw [hbody _ rfl rfl rfl rfl]
    rfl
  · rw [jvsHeader]
    simp only [stuff_cons, show stuff c.jv [] = ([] : List Byte) from rfl, List.append_nil, List.append_assoc]
    rw [Jvsc.rxBytes_stuffByte _ _ _ _ _ hf (by simp) rfl]
    simp only [Jvsc.rxValue, List.nil_append]
    rw [Jvsc.rxBytes_stuffByte _ _ _ _ _ hf (by simp) rfl]
    simp only [Jvsc.rxValue, rxHeader, ho, if_neg hlen0, List.nil_append, hlen]
    rw [hbody _ rfl rfl rfl rfl]
    simp only [Rx.due, Rx.start, jvsSum, BitVec.add_comm node]

/-- What the encoder's data bytes leave in its working state (R215). -/
theorem foldl_encAdd (f : JvCfg) (p : List Byte) (e : Enc) :
    p.foldl (encAdd f) e =
      { e with out := e.out ++ stuff f p, sum := p.foldl (· + ·) e.sum, cnt := e.cnt + p.length } := by
  induction p generalizing e with
  | nil => simp [stuff]
  | cons b p ih =>
    simp only [List.foldl_cons, ih, encAdd, stuff_cons, List.append_assoc, List.length_cons]
    congr 1
    omega

/-! ## The opcode groups of a payload -/

theorem byteOf_toNat {n : Nat} (h : n ≤ 255) : (byteOf n).toNat = n := by
  simp only [byteOf, BitVec.toNat_ofNat]
  omega

/-- The group of a driver output whose data are `d` (R236). -/
theorem decodeGroup_driverOutput {c : Cfg} (hc : c.codesDistinct = true) (node : Byte) (pad : PadStatus) (d rest : List Byte)
    (hd : d.length ≤ 255) :
    decodeGroup c node pad c.jv.jop.driverOutput (byteOf d.length :: (d ++ rest)) = .op (.jDriverOutput node d) rest := by
  simp only [decodeGroup, jopOf_driverOutput hc, argCount, List.head?_cons, Option.map_some, byteOf_toNat hd]
  rw [if_neg (by simp; omega)]
  simp [jopInstr, Nat.add_comm 1]

/-- The first group of a payload is run before the rest. -/
theorem Jvsc.dispatch_cons (c : Cfg) (node jop : Byte) (tail : List Byte) (pad : PadStatus) (j : Jvsc) :
    Jvsc.dispatch c node (jop :: tail) pad j =
      match decodeGroup c node pad jop tail with
      | .unhandled i => runGroup c i { j with rp := [c.jv.statusOk] }
      | .truncated op => Jvsc.raise { j with rp := [c.jv.statusOk] } (.jvsArgsTruncated op)
      | .op i rest => dispatchLoop c node pad tail.length rest (runGroup c i { j with rp := [c.jv.statusOk] }) := rfl

/-- A payload that is one group runs that group from the status byte. -/
theorem Jvsc.dispatch_one (c : Cfg) (node jop : Byte) (tail : List Byte) (pad : PadStatus) (i : Instr) (j : Jvsc)
    (h : decodeGroup c node pad jop tail = .op i []) :
    Jvsc.dispatch c node (jop :: tail) pad j = runGroup c i { j with rp := [c.jv.statusOk] } := by
  simp only [Jvsc.dispatch, List.length_cons, dispatchLoop, h]
  cases tail.length <;> rfl

/-- The group an opcode group's bytes decode to, whatever follows them. -/
theorem decodeGroup_payloadBytes {c : Cfg} (hc : c.codesDistinct = true) (node : Byte) (pad : PadStatus) (i : Instr)
    (hi : isGroup node pad i = true) :
    ∃ (jop : Byte) (tail : List Byte), payloadBytes c i = jop :: tail
      ∧ ∀ rest, decodeGroup c node pad jop (tail ++ rest) = .op i rest := by
  cases i <;> simp only [isGroup, decide_eq_true_eq, Bool.false_eq_true] at hi
  case jDriverOutput n d =>
    obtain ⟨rfl, hd⟩ := hi
    exact ⟨_, _, rfl, fun rest => decodeGroup_driverOutput hc _ _ _ _ hd⟩
  all_goals
    obtain ⟨rfl, rfl⟩ := hi
    refine ⟨_, _, rfl, fun rest => ?_⟩
  all_goals simp only [decodeGroup, jopOf_boardID hc, jopOf_commandRev hc, jopOf_jvRev hc, jopOf_commRev hc,
    jopOf_capabilities hc, jopOf_switchInput hc, jopOf_coinInput hc, jopOf_analogInput hc, jopOf_positionInput hc,
    jopOf_coinSub hc, jopOf_coinAdd hc, jopOf_reset hc, jopOf_setAddress hc, argCount, List.nil_append, List.cons_append,
    List.length_cons]
  all_goals rw [if_neg (by omega)]; rfl

/-- A group leaves no more bytes than stood behind its opcode (R230). -/
theorem decodeGroup_rest_length {c : Cfg} {node jop : Byte} {pad : PadStatus} {tail rest : List Byte} {i : Instr}
    (h : decodeGroup c node pad jop tail = .op i rest) : rest.length ≤ tail.length := by
  unfold decodeGroup at h
  split at h
  · cases h
  · split at h
    · cases h
    · split at h
      · cases h
      · cases h
        simp

/-- Rounds past the payload's length change nothing. -/
theorem dispatchLoop_rounds (c : Cfg) (node : Byte) (pad : PadStatus) (n m : Nat) (l : List Byte) (j : Jvsc)
    (hn : l.length ≤ n) (hm : l.length ≤ m) : dispatchLoop c node pad n l j = dispatchLoop c node pad m l j := by
  induction n generalizing m l j with
  | zero =>
    obtain rfl := List.length_eq_zero_iff.1 (Nat.le_zero.1 hn)
    cases m <;> rfl
  | succ n ih =>
    cases l with
    | nil => cases m <;> rfl
    | cons jop tail =>
      obtain ⟨k, rfl⟩ : ∃ k, m = k + 1 := ⟨m - 1, by simp at hm; omega⟩
      simp only [List.length_cons, Nat.add_le_add_iff_right] at hn hm
      simp only [dispatchLoop]
      split
      · rfl
      · rfl
      · rename_i h
        have := decodeGroup_rest_length h
        exact ih _ _ _ (by omega) (by omega)

/-! ## What a dispatch leaves alone -/

/-- Two JVSC states that differ at most in what a dispatch may write: the counters, the levels, the dip switch, the address,
the reply payload, the log and the driver record. -/
structure Jvsc.SameTransport (j k : Jvsc) : Prop where
  rx : k.rx = j.rx
  enc : k.enc = j.enc
  cur : k.cur = j.cur
  prevReply : k.prevReply = j.prevReply
  card : k.card = j.card
  iccard : k.iccard = j.iccard

theorem Jvsc.SameTransport.refl (j : Jvsc) : Jvsc.SameTransport j j := ⟨rfl, rfl, rfl, rfl, rfl, rfl⟩

theorem Jvsc.SameTransport.trans {j k l : Jvsc} (h : Jvsc.SameTransport j k) (g : Jvsc.SameTransport k l) :
    Jvsc.SameTransport j l :=
  ⟨g.rx.trans h.rx, g.enc.trans h.enc, g.cur.trans h.cur, g.prevReply.trans h.prevReply, g.card.trans h.card,
    g.iccard.trans h.iccard⟩

theorem Jvsc.coinUpdate_transport (c : Cfg) (j : Jvsc) (slot : Byte) (f : Nat → Nat) :
    Jvsc.SameTransport j (j.coinUpdate c slot f) := by
  unfold Jvsc.coinUpdate
  split <;> exact ⟨rfl, rfl, rfl, rfl, rfl, rfl⟩

/-- An opcode's rule leaves the transport alone. -/
theorem runGroup_transport (c : Cfg) (i : Instr) (j : Jvsc) : Jvsc.SameTransport j (runGroup c i j) := by
  cases i <;> first
    | exact ⟨rfl, rfl, rfl, rfl, rfl, rfl⟩
    | (simp only [runGroup, ruleNAMCO]
       split
       · split <;> exact ⟨rfl, rfl, rfl, rfl, rfl, rfl⟩
       · exact ⟨rfl, rfl, rfl, rfl, rfl, rfl⟩)
    | (simp only [runGroup, ruleReset]
       split <;> exact ⟨rfl, rfl, rfl, rfl, rfl, rfl⟩)
    | exact (Jvsc.coinUpdate_transport c j _ _).trans ⟨rfl, rfl, rfl, rfl, rfl, rfl⟩

theorem dispatchLoop_transport (c : Cfg) (node : Byte) (pad : PadStatus) (n : Nat) (l : List Byte) (j : Jvsc) :
    Jvsc.SameTransport j (dispatchLoop c node pad n l j) := by
  induction n generalizing l j with
  | zero => exact .refl j
  | succ n ih =>
    cases l with
    | nil => exact .refl j
    | cons jop tail =>
      simp only [dispatchLoop]
      split
      · exact runGroup_transport c _ j
      · exact ⟨rfl, rfl, rfl, rfl, rfl, rfl⟩
      · exact (runGroup_transport c _ j).trans (ih _ _)

/-- A dispatch leaves the transport alone. -/
theorem Jvsc.dispatch_transport (c : Cfg) (node : Byte) (buf : List Byte) (pad : PadStatus) (j : Jvsc) :
    Jvsc.SameTransport j (j.dispatch c node buf pad) := by
  unfold Jvsc.dispatch
  exact Jvsc.SameTransport.trans (k := { j with rp := [c.jv.statusOk] }) ⟨rfl, rfl, rfl, rfl, rfl, rfl⟩
    (dispatchLoop_transport c node pad _ _ _)

/-- The encoder changes its working state and the log alone. -/
theorem Jvsc.encode_frame (c : Cfg) (j : Jvsc) (node : Byte) (p : List Byte) :
    (j.encode c node p).2 = { j with enc := (j.encode c node p).2.enc, log := (j.encode c node p).2.log } := by
  unfold Jvsc.encode
  simp only
  split <;> rfl

/-! ## The call that carries one frame -/

/-- The receiver's working state after a complete frame. -/
def Rx.done (o : HdrOrder) (node : Byte) (p : List Byte) : Rx := { Rx.due o node p with state := .waitSync }

/-- The receiver applied to the chunk that holds one frame: the payload is dispatched and the reply payload framed. -/
theorem Jvsc.rxChunk_frame (c : Cfg) (pad : PadStatus) (node : Byte) (p : List Byte) (j : Jvsc) (hf : c.jv.framingSound = true)
    (hp : p.length ≤ 254) :
    j.rxChunk c pad (jvsFrame c.jv node p) =
      (let d := Jvsc.dispatch c node p pad { j with rx := Rx.done c.jv.hdrOrder node p }
       d.encode c c.jv.hostNode d.rp) := by
  have hrx := Jvsc.rxBytes_frame c pad node (jvsSum (byteOf (p.length + 1)) node p) p [] j hf hp
  have hd := (Jvsc.dispatch_transport c node p pad { j with rx := Rx.done c.jv.hdrOrder node p }).rx
  have hfr : c.jv.sync :: stuff c.jv (jvsHeader c.jv.hdrOrder (byteOf (p.length + 1)) node ++ p ++
      [jvsSum (byteOf (p.length + 1)) node p]) = jvsFrame c.jv node p := rfl
  rw [List.append_nil, hfr] at hrx
  generalize jvsFrame c.jv node p = fr at hrx ⊢
  unfold Jvsc.rxChunk
  rw [hrx]
  simp only [Jvsc.rxBytes, List.append_nil, Jvsc.frameDone, Rx.due_sum, if_true, Rx.due_node, Rx.due_buf]
  refine (if_pos ?_).trans rfl
  rw [Jvsc.encode_frame]
  exact congrArg Rx.state hd

/-- An `SI.Command` call that carries one chunk runs that chunk and delays its reply. -/
theorem chunkCall_eq (cop : Byte) (d : List Byte) (pad : PadStatus) (s : State) (hc : s.cfg.codesDistinct = true)
    (hd : d.length ≤ 255) :
    chunkCall cop d pad s =
      (let q := runChunk s.cfg pad cop d { s.jvsc with cur := [] }
       .next (s.withJvsc { q with prevReply := q.cur } (.reply q.prevReply q.prevReply.length))) := by
  have hn : (byteOf d.length).toNat = d.length := by
    simp only [byteOf, BitVec.toNat_ofNat]
    omega
  have hl : chunkLoop s.cfg pad (chunkBytes cop d).length (chunkBytes cop d) { s.jvsc with cur := [] } =
      runChunk s.cfg pad cop d { s.jvsc with cur := [] } := by
    simp only [chunkBytes, List.length_cons, chunkLoop, hn, Nat.lt_irrefl, if_false, List.take_length, List.drop_length]
  simp only [chunkCall, serialCall, Jvsc.runBuffer, if_neg (Ne.symm (siOps_ne hc)), if_true, Jvsc.siCommand, hl,
    Jvsc.delayReply]

theorem Jvsc.appendChunk_frame (j : Jvsc) (cop : Byte) (r : List Byte) :
    j.appendChunk cop r = { j with cur := (j.appendChunk cop r).cur, log := (j.appendChunk cop r).log } := by
  unfold Jvsc.appendChunk
  split <;> rfl

/-- The call that carries one frame: its payload is dispatched, the reply payload framed, the reply frame wrapped as the one
chunk of the reply held back, and the reply of the call before is returned. -/
theorem frameCall_eq (node : Byte) (p : List Byte) (pad : PadStatus) (s : State) (hc : s.cfg.codesDistinct = true)
    (hs : s.cfg.jv.framingSound = true) (hp : p.length ≤ 254) (hf : (jvsFrame s.cfg.jv node p).length ≤ 255) :
    frameCall node p pad s =
      (let d := Jvsc.dispatch s.cfg node p pad { s.jvsc with cur := [], rx := Rx.done s.cfg.jv.hdrOrder node p }
       let r := d.encode s.cfg s.cfg.jv.hostNode d.rp
       let q := r.2.appendChunk s.cfg.jv.chJvs r.1
       .next (s.withJvsc { q with prevReply := q.cur } (.reply s.jvsc.prevReply s.jvsc.prevReply.length))) := by
  have hd := (Jvsc.dispatch_transport s.cfg node p pad
    { s.jvsc with cur := [], rx := Rx.done s.cfg.jv.hdrOrder node p }).prevReply
  rw [frameCall, chunkCall_eq _ _ _ _ hc hf]
  simp only [runChunk, chOpOf_chJvs hc, ruleChJVS, Jvsc.rxChunk_frame s.cfg pad node p _ hs hp]
  have hq : (((Jvsc.dispatch s.cfg node p pad { s.jvsc with cur := [], rx := Rx.done s.cfg.jv.hdrOrder node p }).encode
      s.cfg s.cfg.jv.hostNode (Jvsc.dispatch s.cfg node p pad
        { s.jvsc with cur := [], rx := Rx.done s.cfg.jv.hdrOrder node p }).rp).2.appendChunk s.cfg.jv.chJvs
      ((Jvsc.dispatch s.cfg node p pad { s.jvsc with cur := [], rx := Rx.done s.cfg.jv.hdrOrder node p }).encode
      s.cfg s.cfg.jv.hostNode (Jvsc.dispatch s.cfg node p pad
        { s.jvsc with cur := [], rx := Rx.done s.cfg.jv.hdrOrder node p }).rp).1).prevReply = s.jvsc.prevReply := by
    rw [Jvsc.appendChunk_frame, Jvsc.encode_frame]
    exact hd
  rw [hq]

end Sys2Proof.Machine
end

