-- ==== Sys2Proof/Laws/Memory.lean ====
section
/-! SUPPORT. The laws of byte memories: what a read sees after a write, the canonical form kept, the bound kept; then the
same for the backup store and the mailbox record. -/

namespace Sys2Proof.Machine

open Sys2Proof

/-! ## Cells -/

theorem cellsLookup_insert (a : Nat) (v : Byte) (l : List Host.Cell) (x : Nat) :
    cellsLookup x (cellsInsert a v l) = if x = a then some v else cellsLookup x l := by
  induction l with
  | nil => simp [cellsInsert, cellsLookup, eq_comm]
  | cons p rest ih =>
    obtain ⟨b, w⟩ := p
    simp only [cellsInsert]
    split
    · simp [cellsLookup, eq_comm]
    · split
      · subst_vars
        by_cases h : x = b
        · simp [cellsLookup, h]
        · simp [cellsLookup, h, Ne.symm h]
      · simp only [cellsLookup, ih]
        split <;> split <;> simp_all

theorem cellsLookup_erase_ne (a : Nat) (l : List Host.Cell) (x : Nat) (h : x ≠ a) :
    cellsLookup x (cellsErase a l) = cellsLookup x l := by
  induction l with
  | nil => rfl
  | cons p rest ih =>
    obtain ⟨b, w⟩ := p
    simp only [cellsErase]
    split
    · subst_vars; simp [cellsLookup, Ne.symm h]
    · simp [cellsLookup, ih]

/-- Every address of the list is above `a`. -/
def cellsAbove (a : Nat) (l : List Host.Cell) : Prop := ∀ x ∈ l, a < x.1

theorem cellsRise_cons (a : Nat) (v : Byte) (l : List Host.Cell) :
    cellsRise ((a, v) :: l) = true ↔ cellsAbove a l ∧ cellsRise l = true := by
  induction l generalizing a v with
  | nil => simp [cellsRise, cellsAbove]
  | cons p rest ih =>
    obtain ⟨b, w⟩ := p
    simp only [cellsRise, Bool.and_eq_true, decide_eq_true_eq]
    constructor
    · rintro ⟨hab, hr⟩
      refine ⟨?_, hr⟩
      have h2 := (ih b w).1 hr
      intro x hx
      rcases List.mem_cons.1 hx with rfl | hx
      · exact hab
      · exact Nat.lt_trans hab (h2.1 x hx)
    · rintro ⟨ha, hr⟩
      exact ⟨ha (b, w) (by simp), hr⟩

theorem cellsLookup_above (a : Nat) (l : List Host.Cell) (h : cellsAbove a l) : cellsLookup a l = none := by
  induction l with
  | nil => rfl
  | cons p rest ih =>
    obtain ⟨b, w⟩ := p
    have hb : a < b := h (b, w) (by simp)
    have : b ≠ a := by omega
    simp [cellsLookup, this, ih (fun x hx => h x (by simp [hx]))]

theorem cellsLookup_erase (a : Nat) (l : List Host.Cell) (h : cellsRise l = true) :
    cellsLookup a (cellsErase a l) = none := by
  induction l with
  | nil => rfl
  | cons p rest ih =>
    obtain ⟨b, w⟩ := p
    obtain ⟨h1, h2⟩ := (cellsRise_cons b w rest).1 h
    simp only [cellsErase]
    split
    · subst_vars; exact cellsLookup_above _ _ h1
    · simp [cellsLookup, *]

theorem mem_cellsInsert {a : Nat} {v : Byte} {l : List Host.Cell} {x : Host.Cell} (h : x ∈ cellsInsert a v l) :
    x = (a, v) ∨ x ∈ l := by
  induction l with
  | nil => simpa [cellsInsert] using h
  | cons p rest ih =>
    obtain ⟨b, w⟩ := p
    simp only [cellsInsert] at h
    split at h
    · simpa using h
    · split at h
      · rcases List.mem_cons.1 h with rfl | h <;> simp_all
      · rcases List.mem_cons.1 h with rfl | h
        · simp
        · rcases ih h with h | h <;> simp [h]

theorem mem_cellsErase {a : Nat} {l : List Host.Cell} {x : Host.Cell} (h : x ∈ cellsErase a l) : x ∈ l := by
  induction l with
  | nil => simp [cellsErase] at h
  | cons p rest ih =>
    obtain ⟨b, w⟩ := p
    simp only [cellsErase] at h
    split at h
    · simp [h]
    · rcases List.mem_cons.1 h with rfl | h
      · simp
      · simp [ih h]

theorem cellsRise_insert (a : Nat) (v : Byte) (l : List Host.Cell) (h : cellsRise l = true) :
    cellsRise (cellsInsert a v l) = true := by
  induction l with
  | nil => rfl
  | cons p rest ih =>
    obtain ⟨b, w⟩ := p
    obtain ⟨h1, h2⟩ := (cellsRise_cons b w rest).1 h
    simp only [cellsInsert]
    split
    · next hab =>
      rw [cellsRise_cons]
      refine ⟨?_, h⟩
      intro x hx
      rcases List.mem_cons.1 hx with rfl | hx
      · exact hab
      · exact Nat.lt_trans hab (h1 x hx)
    · split
      · subst_vars; exact (cellsRise_cons _ _ _).2 ⟨h1, h2⟩
      · rw [cellsRise_cons]
        refine ⟨?_, ih h2⟩
        intro x hx
        rcases mem_cellsInsert hx with rfl | hx
        · simp only; omega
        · exact h1 x hx

theorem cellsRise_erase (a : Nat) (l : List Host.Cell) (h : cellsRise l = true) : cellsRise (cellsErase a l) = true := by
  induction l with
  | nil => rfl
  | cons p rest ih =>
    obtain ⟨b, w⟩ := p
    obtain ⟨h1, h2⟩ := (cellsRise_cons b w rest).1 h
    simp only [cellsErase]
    split
    · exact h2
    · exact (cellsRise_cons _ _ _).2 ⟨fun x hx => h1 x (mem_cellsErase hx), ih h2⟩

/-! ## Memories -/

/-- What a read sees after a write: the byte written there, and elsewhere what it saw before. -/
theorem Memory.read_write (d : Option Byte) (m : Memory) (a : Nat) (v : Byte) (x : Nat) (h : m.wf d = true) :
    (m.write d a v).read d x = if x = a then some v else m.read d x := by
  simp only [Memory.wf, Bool.and_eq_true] at h
  by_cases hv : some v = d
  · subst hv
    by_cases hx : x = a
    · subst hx; simp [Memory.write, Memory.read, cellsLookup_erase _ _ h.1]
    · simp [Memory.write, Memory.read, hx, cellsLookup_erase_ne _ _ _ hx]
  · by_cases hx : x = a
    · simp [Memory.write, Memory.read, hv, hx, cellsLookup_insert]
    · simp [Memory.write, Memory.read, hv, hx, cellsLookup_insert]

/-- The same for a memory whose unlisted bytes have no value, in any form. -/
theorem Memory.read_write_none (m : Memory) (a : Nat) (v : Byte) (x : Nat) :
    (m.write none a v).read none x = if x = a then some v else m.read none x := by
  by_cases hx : x = a
  · simp [Memory.write, Memory.read, hx, cellsLookup_insert]
  · simp [Memory.write, Memory.read, hx, cellsLookup_insert]

/-- A write keeps the canonical form. -/
theorem Memory.wf_write (d : Option Byte) (m : Memory) (a : Nat) (v : Byte) (h : m.wf d = true) :
    (m.write d a v).wf d = true := by
  simp only [Memory.wf, Bool.and_eq_true, List.all_eq_true, decide_eq_true_eq] at h ⊢
  simp only [Memory.write]
  split
  · exact ⟨cellsRise_erase _ _ h.1, fun x hx => h.2 x (mem_cellsErase hx)⟩
  · next hv =>
    refine ⟨cellsRise_insert _ _ _ h.1, fun x hx => ?_⟩
    rcases mem_cellsInsert hx with rfl | hx
    · exact hv
    · exact h.2 x hx

/-- A write below a bound keeps every listed address below it. -/
theorem Memory.below_write (n : Nat) (d : Option Byte) (m : Memory) (a : Nat) (v : Byte) (ha : a < n)
    (h : m.below n = true) : (m.write d a v).below n = true := by
  simp only [Memory.below, List.all_eq_true, decide_eq_true_eq] at h ⊢
  simp only [Memory.write]
  split
  · exact fun x hx => h x (mem_cellsErase hx)
  · intro x hx
    rcases mem_cellsInsert hx with rfl | hx
    · exact ha
    · exact h x hx

/-- The memories of the state after reset are in canonical form. -/
theorem reset_memories_wf : State.reset.bmsc.bk.wf none = true ∧ State.reset.mbmp.mb.wf (some 0) = true
    ∧ State.reset.jvsc.card.image.wf none = true ∧ State.reset.jvsc.iccard.pages.wf none = true := by
  refine ⟨?_, ?_, ?_, ?_⟩ <;> rfl

/-- After power-on the persistent stores read as they were loaded, the card images from their title's store (R31, R49, R255). -/
theorem reset_stores_loaded : (∀ a, State.reset.bmsc.bkRead State.reset.cfg a = Config.backupInit (bkOffset State.reset.cfg a))
    ∧ (∀ (c : Cfg) (a : Nat), State.reset.jvsc.card.imageByte c a = Config.cardInit c.profile.title a)
    ∧ ∀ (c : Cfg) (a : Fin iccSize), State.reset.jvsc.iccard.pageByte c a = Config.iccInit c.profile.title a :=
  ⟨fun _ => rfl, fun _ _ => rfl, fun _ _ => rfl⟩

/-! ## The backup store -/

/-- A byte stored in `BK` is what a read of its offset sees; every other offset reads as before. -/
theorem Bmsc.bkRead_bkWrite (c : Cfg) (b : Bmsc) (a : Nat) (v : Byte) (x : Nat) :
    (b.bkWrite c a v).bkRead c x = if x % c.bm.backupSize = a % c.bm.backupSize then v else b.bkRead c x := by
  simp only [Bmsc.bkRead, Bmsc.bkWrite, bkOffset, Memory.read_write_none]
  split <;> simp_all

/-- Reads of `BK` depend on the store alone. -/
theorem Bmsc.bkRead_congr (c : Cfg) {b b' : Bmsc} (h : b'.bk = b.bk) (x : Nat) : b'.bkRead c x = b.bkRead c x := by
  simp [Bmsc.bkRead, h]

@[simp] theorem Bmsc.bkRead_mod (c : Cfg) (b : Bmsc) (a : Nat) : b.bkRead c (a % c.bm.backupSize) = b.bkRead c a := by
  simp [Bmsc.bkRead, bkOffset]

/-! ## The mailbox record -/

/-- A byte stored in the record is what a read of its offset sees; every other offset reads as before. -/
theorem mbByte_mbSetByte (m : Memory) (a : Nat) (v : Byte) (x : Nat) (h : m.wf (some 0) = true) :
    mbByte (mbSetByte m a v) x = if x = a then v else mbByte m x := by
  simp only [mbByte, mbSetByte, Memory.read_write _ _ _ _ _ h]
  split <;> simp

theorem mbSetByte_wf (m : Memory) (a : Nat) (v : Byte) (h : m.wf (some 0) = true) :
    (mbSetByte m a v).wf (some 0) = true := Memory.wf_write _ _ _ _ h

/-- Storing bytes keeps the canonical form. -/
theorem mbWriteBytes_wf (m : Memory) (a : Nat) (l : List Byte) (h : m.wf (some 0) = true) :
    (mbWriteBytes m a l).wf (some 0) = true := by
  induction l generalizing m a with
  | nil => exact h
  | cons v vs ih => exact ih _ _ (mbSetByte_wf _ _ _ h)

/-- Storing bytes below a bound keeps every listed address below it. -/
theorem mbWriteBytes_below (n : Nat) (m : Memory) (a : Nat) (l : List Byte) (ha : a + l.length ≤ n)
    (h : m.below n = true) : (mbWriteBytes m a l).below n = true := by
  induction l generalizing m a with
  | nil => exact h
  | cons v vs ih =>
    simp only [List.length_cons] at ha
    exact ih _ _ (by omega) (Memory.below_write _ _ _ _ _ (by omega) h)

/-- What a read sees after bytes are stored: theirs inside the range, elsewhere what it saw before. -/
theorem mbByte_mbWriteBytes (m : Memory) (a : Nat) (l : List Byte) (x : Nat) (h : m.wf (some 0) = true) :
    mbByte (mbWriteBytes m a l) x = if a ≤ x ∧ x < a + l.length then l.getD (x - a) 0 else mbByte m x := by
  induction l generalizing m a with
  | nil =>
    have : ¬(a ≤ x ∧ x < a) := by omega
    simp [mbWriteBytes, this]
  | cons v vs ih =>
    simp only [mbWriteBytes, ih _ _ (mbSetByte_wf _ _ _ h), mbByte_mbSetByte _ _ _ _ h, List.length_cons]
    by_cases h1 : x = a
    · subst h1
      have h2 : ¬(x + 1 ≤ x ∧ x < x + 1 + vs.length) := by omega
      have h3 : x ≤ x ∧ x < x + (vs.length + 1) := by omega
      simp
    · by_cases h2 : a + 1 ≤ x ∧ x < a + 1 + vs.length
      · have h3 : a ≤ x ∧ x < a + (vs.length + 1) := by omega
        have h4 : x - a = (x - (a + 1)) + 1 := by omega
        rw [if_pos h2, if_pos h3, h4]
        simp
      · have h3 : ¬(a ≤ x ∧ x < a + (vs.length + 1)) := by omega
        rw [if_neg h2, if_neg h3, if_neg h1]

@[simp] theorem mbReadBytes_length (m : Memory) (a n : Nat) : (mbReadBytes m a n).length = n := by
  induction n generalizing a with
  | zero => rfl
  | succ n ih => simp [mbReadBytes, ih]

/-- The bytes of a read, one by one. -/
theorem mbReadBytes_getD (m : Memory) (a n k : Nat) (h : k < n) : (mbReadBytes m a n).getD k 0 = mbByte m (a + k) := by
  induction n generalizing a k with
  | zero => omega
  | succ n ih =>
    cases k with
    | zero => simp [mbReadBytes]
    | succ k =>
      have := ih (a + 1) k (by omega)
      simp only [mbReadBytes, List.getD_cons_succ, this]
      congr 1; omega

/-- Bytes just stored are what a read of their range returns. -/
theorem mbReadBytes_mbWriteBytes (m : Memory) (a : Nat) (l : List Byte) (h : m.wf (some 0) = true) :
    mbReadBytes (mbWriteBytes m a l) a l.length = l := by
  apply List.ext_getElem
  · simp
  · intro k h1 h2
    have h3 := mbReadBytes_getD (mbWriteBytes m a l) a l.length k h2
    rw [mbByte_mbWriteBytes _ _ _ _ h, if_pos (by omega)] at h3
    simpa [List.getD_eq_getElem?_getD, h2, h1] using h3

/-- Two records that agree on a range return the same bytes of it. -/
theorem mbReadBytes_congr (m m' : Memory) (a n : Nat) (h : ∀ x, a ≤ x → x < a + n → mbByte m x = mbByte m' x) :
    mbReadBytes m a n = mbReadBytes m' a n := by
  induction n generalizing a with
  | zero => rfl
  | succ n ih =>
    simp only [mbReadBytes]
    rw [h a (by omega) (by omega), ih (a + 1) (fun x h1 h2 => h x (by omega) (by omega))]

end Sys2Proof.Machine
end

