-- ==== Sys2Proof/Laws/Mailbox.lean ====
section
/-! SUPPORT. What the mailbox operations build: where a window lies, how long a result is, the bytes of an outbound region, and
the write of a whole inbound region. -/

namespace Sys2Proof.Machine

open Sys2Proof

/-- A legal window lies inside the record, and its code and completion byte inside their regions. -/
theorem windowBase_legal {c : Cfg} (h : c.legal = true) (w : Window) :
    windowBase c w + 0x40 ≤ mailboxSize ∧ c.mb.cmdOff + 2 ≤ regionSize ∧ c.mb.doneOff < regionSize := by
  have := Cfg.legal_windows h
  have h300 : mailboxSize = 0x300 := rfl
  cases w <;> simp only [windowBase] <;> omega

theorem inBase_eq (c : Cfg) (w : Window) : inBase c w = windowBase c w := by simp [inBase]

theorem outBase_eq (c : Cfg) (w : Window) : outBase c w = windowBase c w + 32 := by simp [outBase, regionSize]

/-- Every command's result is 28 bytes. -/
theorem mbResultOf_length (c : Cfg) (code : Word16) (inb : List Byte) (sock : Option (Vector Byte 28)) :
    (mbResultOf c code inb sock).1.length = 28 := by
  have h1 : (dimmSizeResult c).length = 28 := by
    simp only [dimmSizeResult, bytes32]
    cases c.mb.endian <;> rfl
  have h2 : (openResult c code inb).length = 28 := by simp [openResult]
  have h3 : (socketResult sock).length = 28 := by cases sock <;> simp [socketResult, zeroResult]
  unfold mbResultOf
  split <;> simp only [h1, h2, h3]
  rfl

theorem outboundBytes_length (c : Cfg) (inb r : List Byte) (h1 : inb.length = 32) (h2 : r.length = 28) :
    (outboundBytes c inb r).length = 32 := by
  simp [outboundBytes, setDone, h1, h2]

/-- A byte of the outbound region: the echo or the result, with the completion mask in its byte. -/
theorem outboundBytes_getD (c : Cfg) (inb r : List Byte) (k : Nat) (hk : k < 32) (h1 : inb.length = 32) (h2 : r.length = 28) :
    (outboundBytes c inb r).getD k 0 = answerByte c inb r k := by
  have h0 : (List.take 4 inb ++ r).getD k 0 = if k < 4 then inb.getD k 0 else r.getD (k - 4) 0 := by
    simp only [List.getD_eq_getElem?_getD, List.getElem?_append, List.length_take, h1, List.getElem?_take]
    by_cases h : k < 4
    · simp [h]
    · simp [h]
  have hlen : k < (List.take 4 inb ++ r).length := by
    simp [h1, h2]
    omega
  simp only [outboundBytes, setDone, answerByte, ← h0]
  simp only [List.getD_eq_getElem?_getD, List.getElem?_modify]
  rw [List.getElem?_eq_getElem hlen]
  by_cases h : c.mb.doneOff = k
  · simp [h]
  · have : ¬ k = c.mb.doneOff := fun e => h e.symm
    simp [h, this]

/-- The write of a whole inbound region is in bounds. -/
theorem Mbmp.write_inbound (c : Cfg) (m : Mbmp) (w : Window) (code : Word16) (rest : List Byte) (hc : c.legal = true)
    (hr : rest.length = 30) :
    m.write c w 0 (inboundBytes c code rest) = { m with mb := mbWriteBytes m.mb (windowBase c w) (inboundBytes c code rest) } := by
  have hw := windowBase_legal hc w
  have hl := inboundBytes_length c code rest hr hw.2.1
  have h32 : regionSize = 32 := rfl
  unfold Mbmp.write passesEnd
  rw [if_neg (by rw [hl, h32, decide_eq_true_eq]; omega)]
  rfl

/-- Byte `k` of bytes just stored. -/
theorem mbByte_mbWriteBytes_at (m : Memory) (hm : m.wf (some 0) = true) (a : Nat) (l : List Byte) (k : Nat)
    (hk : k < l.length) : mbByte (mbWriteBytes m a l) (a + k) = l.getD k 0 := by
  rw [mbByte_mbWriteBytes _ _ _ _ hm, if_pos (by omega), show a + k - a = k by omega]

end Sys2Proof.Machine
end

