-- ==== Sys2Proof/Laws/PerInstr.lean ====
section
/-! SUPPORT. A statement about every instruction as it is written: the format that carries it, whatever the configuration. -/

namespace Sys2Proof.Laws

open Sys2Proof

/-- The formats of spec/30_encoding.md; a bus operation has none, it is a call with operands. -/
inductive Format where
  | bus
  | bm
  | si
  | ch
  | jp
  | mi
  deriving DecidableEq, Repr

/-- The format of a request. -/
def requestFormat (r : Request) : Format :=
  match r with
  | .setChipSelect _ => .bus
  | .transferByte _ => .bus
  | .dmaWrite _ _ _ => .bus
  | .dmaRead _ _ _ => .bus
  | .pollInterrupt => .bus
  | .reset _ => .bus
  | .runBuffer _ _ => .bus
  | .mbWrite _ _ _ => .bus
  | .mbRead _ _ _ => .bus
  | .mbExecute _ _ => .bus
  | .frame _ => .bm
  | .serial _ _ => .si
  | .chunk _ _ => .ch
  | .payload _ _ _ => .jp
  | .inbound _ _ _ => .mi

/-- The format of an instruction's row in the opcode table. -/
def formatOf (i : Instr) : Format :=
  match i with
  | .backupOffsetSet _ _ _ => .bm
  | .backupWrite _ _ _ _ => .bm
  | .backupRead _ _ _ _ => .bm
  | .dmaOffsetLengthSet _ _ _ => .bm
  | .readISR _ _ _ _ => .bm
  | .writeISR _ _ _ _ => .bm
  | .readIMR _ _ _ _ => .bm
  | .writeIMR _ _ _ _ => .bm
  | .writeLANCNT _ _ _ _ => .bm
  | .serialID _ _ _ => .bm
  | .bmUnhandled _ _ _ _ _ => .bm
  | .setChipSelect _ => .bus
  | .transferByte _ => .bus
  | .dmaWrite _ _ _ => .bus
  | .dmaRead _ _ _ => .bus
  | .pollInterrupt => .bus
  | .reset _ => .bus
  | .runBuffer _ _ => .bus
  | .siReset _ => .si
  | .siCommand _ _ => .si
  | .siUnhandled _ _ => .si
  | .chJVS _ _ => .ch
  | .chCard _ => .ch
  | .chICCard _ => .ch
  | .chUnhandled _ _ => .ch
  | .jBoardID _ => .jp
  | .jCommandRev _ => .jp
  | .jJVRev _ => .jp
  | .jCommRev _ => .jp
  | .jCapabilities _ => .jp
  | .jSwitchInput _ _ _ _ => .jp
  | .jCoinInput _ _ _ => .jp
  | .jAnalogInput _ _ _ => .jp
  | .jPositionInput _ _ _ => .jp
  | .jCoinSub _ _ _ _ => .jp
  | .jDriverOutput _ _ => .jp
  | .jCoinAdd _ _ _ _ => .jp
  | .jNAMCO _ _ => .jp
  | .jReset _ _ => .jp
  | .jSetAddress _ _ => .jp
  | .jUnhandled _ _ _ => .jp
  | .mbWrite _ _ _ => .bus
  | .mbRead _ _ _ => .bus
  | .mbExecute _ _ => .bus
  | .mbGetDIMMSize _ _ => .mi
  | .mbGetStatus _ _ => .mi
  | .mbAccept _ _ _ => .mi
  | .mbBind _ _ _ => .mi
  | .mbConnect _ _ _ => .mi
  | .mbInetAddr _ _ _ => .mi
  | .mbListen _ _ _ => .mi
  | .mbRecv _ _ _ => .mi
  | .mbSend _ _ _ => .mi
  | .mbSocket _ _ _ => .mi
  | .mbSelect _ _ _ => .mi
  | .mbSetSockOpt _ _ _ => .mi
  | .mbSetTimeOuts _ _ _ => .mi
  | .mbGetLastError _ _ _ => .mi
  | .mbModifyMyIPaddr _ _ _ => .mi
  | .mbSerialInit _ _ => .mi
  | .mbUnhandled _ _ _ => .mi

/-- The encoder writes the instruction in its row's format, under every configuration. -/
def EncodingFormat.Statement (i : Instr) : Prop := ∀ c : Cfg, requestFormat (encode c i) = formatOf i

theorem EncodingFormat.backupOffsetSet (off16 : Word16) (chk : Byte) (stream : Nat) : EncodingFormat.Statement
    (.backupOffsetSet off16 chk stream) := fun _ => rfl

theorem EncodingFormat.backupWrite (d u2 chk : Byte) (stream : Nat) : EncodingFormat.Statement
    (.backupWrite d u2 chk stream) := fun _ => rfl

theorem EncodingFormat.backupRead (u1 u2 chk : Byte) (stream : Nat) : EncodingFormat.Statement
    (.backupRead u1 u2 chk stream) := fun _ => rfl

theorem EncodingFormat.dmaOffsetLengthSet (off16 : Word16) (len8 : Byte) (stream : Nat) : EncodingFormat.Statement
    (.dmaOffsetLengthSet off16 len8 stream) := fun _ => rfl

theorem EncodingFormat.readISR (u1 u2 chk : Byte) (stream : Nat) : EncodingFormat.Statement
    (.readISR u1 u2 chk stream) := fun _ => rfl

theorem EncodingFormat.writeISR (v u2 chk : Byte) (stream : Nat) : EncodingFormat.Statement
    (.writeISR v u2 chk stream) := fun _ => rfl

theorem EncodingFormat.readIMR (u1 u2 chk : Byte) (stream : Nat) : EncodingFormat.Statement
    (.readIMR u1 u2 chk stream) := fun _ => rfl

theorem EncodingFormat.writeIMR (v u2 chk : Byte) (stream : Nat) : EncodingFormat.Statement
    (.writeIMR v u2 chk stream) := fun _ => rfl

theorem EncodingFormat.writeLANCNT (a b chk : Byte) (stream : Nat) : EncodingFormat.Statement
    (.writeLANCNT a b chk stream) := fun _ => rfl

theorem EncodingFormat.serialID (u2 u3 : Byte) (stream : Nat) : EncodingFormat.Statement
    (.serialID u2 u3 stream) := fun _ => rfl

theorem EncodingFormat.bmUnhandled (op p1 p2 chk : Byte) (stream : Nat) : EncodingFormat.Statement
    (.bmUnhandled op p1 p2 chk stream) := fun _ => rfl

theorem EncodingFormat.setChipSelect (level : Bool) : EncodingFormat.Statement (.setChipSelect level) := fun _ => rfl

theorem EncodingFormat.transferByte (io : SlotInput) : EncodingFormat.Statement (.transferByte io) := fun _ => rfl

theorem EncodingFormat.dmaWrite (addr len : Nat) (gm : List Host.Cell) : EncodingFormat.Statement
    (.dmaWrite addr len gm) := fun _ => rfl

theorem EncodingFormat.dmaRead (addr len : Nat) (gm : List Host.Cell) : EncodingFormat.Statement
    (.dmaRead addr len gm) := fun _ => rfl

theorem EncodingFormat.pollInterrupt : EncodingFormat.Statement .pollInterrupt := fun _ => rfl

theorem EncodingFormat.reset (block : Block) : EncodingFormat.Statement (.reset block) := fun _ => rfl

theorem EncodingFormat.runBuffer (bytes : List Byte) (pad : PadStatus) : EncodingFormat.Statement
    (.runBuffer bytes pad) := fun _ => rfl

theorem EncodingFormat.siReset (rest : List Byte) : EncodingFormat.Statement (.siReset rest) := fun _ => rfl

theorem EncodingFormat.siCommand (chunks : List Byte) (pad : PadStatus) : EncodingFormat.Statement
    (.siCommand chunks pad) := fun _ => rfl

theorem EncodingFormat.siUnhandled (op : Byte) (rest : List Byte) : EncodingFormat.Statement
    (.siUnhandled op rest) := fun _ => rfl

theorem EncodingFormat.chJVS (d : List Byte) (pad : PadStatus) : EncodingFormat.Statement (.chJVS d pad) := fun _ => rfl

theorem EncodingFormat.chCard (d : List Byte) : EncodingFormat.Statement (.chCard d) := fun _ => rfl

theorem EncodingFormat.chICCard (d : List Byte) : EncodingFormat.Statement (.chICCard d) := fun _ => rfl

theorem EncodingFormat.chUnhandled (cop : Byte) (d : List Byte) : EncodingFormat.Statement
    (.chUnhandled cop d) := fun _ => rfl

theorem EncodingFormat.jBoardID (node : Byte) : EncodingFormat.Statement (.jBoardID node) := fun _ => rfl

theorem EncodingFormat.jCommandRev (node : Byte) : EncodingFormat.Statement (.jCommandRev node) := fun _ => rfl

theorem EncodingFormat.jJVRev (node : Byte) : EncodingFormat.Statement (.jJVRev node) := fun _ => rfl

theorem EncodingFormat.jCommRev (node : Byte) : EncodingFormat.Statement (.jCommRev node) := fun _ => rfl

theorem EncodingFormat.jCapabilities (node : Byte) : EncodingFormat.Statement (.jCapabilities node) := fun _ => rfl

theorem EncodingFormat.jSwitchInput (node players bpp : Byte) (pad : PadStatus) : EncodingFormat.Statement
    (.jSwitchInput node players bpp pad) := fun _ => rfl

theorem EncodingFormat.jCoinInput (node slots : Byte) (pad : PadStatus) : EncodingFormat.Statement
    (.jCoinInput node slots pad) := fun _ => rfl

theorem EncodingFormat.jAnalogInput (node ch : Byte) (pad : PadStatus) : EncodingFormat.Statement
    (.jAnalogInput node ch pad) := fun _ => rfl

theorem EncodingFormat.jPositionInput (node ch : Byte) (pad : PadStatus) : EncodingFormat.Statement
    (.jPositionInput node ch pad) := fun _ => rfl

theorem EncodingFormat.jCoinSub (node slot hi lo : Byte) : EncodingFormat.Statement
    (.jCoinSub node slot hi lo) := fun _ => rfl

theorem EncodingFormat.jDriverOutput (node : Byte) (d : List Byte) : EncodingFormat.Statement
    (.jDriverOutput node d) := fun _ => rfl

theorem EncodingFormat.jCoinAdd (node slot hi lo : Byte) : EncodingFormat.Statement
    (.jCoinAdd node slot hi lo) := fun _ => rfl

theorem EncodingFormat.jNAMCO (node : Byte) (tail : List Byte) : EncodingFormat.Statement
    (.jNAMCO node tail) := fun _ => rfl

theorem EncodingFormat.jReset (node magic : Byte) : EncodingFormat.Statement (.jReset node magic) := fun _ => rfl

theorem EncodingFormat.jSetAddress (node addr : Byte) : EncodingFormat.Statement (.jSetAddress node addr) := fun _ => rfl

theorem EncodingFormat.jUnhandled (node jop : Byte) (tail : List Byte) : EncodingFormat.Statement
    (.jUnhandled node jop tail) := fun _ => rfl

theorem EncodingFormat.mbWrite (w : Window) (off : Nat) (bytes : List Byte) : EncodingFormat.Statement
    (.mbWrite w off bytes) := fun _ => rfl

theorem EncodingFormat.mbRead (w : Window) (off n : Nat) : EncodingFormat.Statement (.mbRead w off n) := fun _ => rfl

theorem EncodingFormat.mbExecute (w : Window) (sock : Option (Vector Byte 28)) : EncodingFormat.Statement
    (.mbExecute w sock) := fun _ => rfl

theorem EncodingFormat.mbGetDIMMSize (w : Window) (rest : List Byte) : EncodingFormat.Statement
    (.mbGetDIMMSize w rest) := fun _ => rfl

theorem EncodingFormat.mbGetStatus (w : Window) (rest : List Byte) : EncodingFormat.Statement
    (.mbGetStatus w rest) := fun _ => rfl

theorem EncodingFormat.mbAccept (w : Window) (rest : List Byte) (sock : Option (Vector Byte 28)) : EncodingFormat.Statement
    (.mbAccept w rest sock) := fun _ => rfl

theorem EncodingFormat.mbBind (w : Window) (rest : List Byte) (sock : Option (Vector Byte 28)) : EncodingFormat.Statement
    (.mbBind w rest sock) := fun _ => rfl

theorem EncodingFormat.mbConnect (w : Window) (rest : List Byte) (sock : Option (Vector Byte 28)) : EncodingFormat.Statement
    (.mbConnect w rest sock) := fun _ => rfl

theorem EncodingFormat.mbInetAddr (w : Window) (rest : List Byte) (sock : Option (Vector Byte 28)) : EncodingFormat.Statement
    (.mbInetAddr w rest sock) := fun _ => rfl

theorem EncodingFormat.mbListen (w : Window) (rest : List Byte) (sock : Option (Vector Byte 28)) : EncodingFormat.Statement
    (.mbListen w rest sock) := fun _ => rfl

theorem EncodingFormat.mbRecv (w : Window) (rest : List Byte) (sock : Option (Vector Byte 28)) : EncodingFormat.Statement
    (.mbRecv w rest sock) := fun _ => rfl

theorem EncodingFormat.mbSend (w : Window) (rest : List Byte) (sock : Option (Vector Byte 28)) : EncodingFormat.Statement
    (.mbSend w rest sock) := fun _ => rfl

theorem EncodingFormat.mbSocket (w : Window) (rest : List Byte) (sock : Option (Vector Byte 28)) : EncodingFormat.Statement
    (.mbSocket w rest sock) := fun _ => rfl

theorem EncodingFormat.mbSelect (w : Window) (rest : List Byte) (sock : Option (Vector Byte 28)) : EncodingFormat.Statement
    (.mbSelect w rest sock) := fun _ => rfl

theorem EncodingFormat.mbSetSockOpt (w : Window) (rest : List Byte) (sock : Option (Vector Byte 28)) : EncodingFormat.Statement
    (.mbSetSockOpt w rest sock) := fun _ => rfl

theorem EncodingFormat.mbSetTimeOuts (w : Window) (rest : List Byte) (sock : Option (Vector Byte 28)) : EncodingFormat.Statement
    (.mbSetTimeOuts w rest sock) := fun _ => rfl

theorem EncodingFormat.mbGetLastError (w : Window) (rest : List Byte) (sock : Option (Vector Byte 28)) : EncodingFormat.Statement
    (.mbGetLastError w rest sock) := fun _ => rfl

theorem EncodingFormat.mbModifyMyIPaddr (w : Window) (rest : List Byte) (sock : Option (Vector Byte 28)) : EncodingFormat.Statement
    (.mbModifyMyIPaddr w rest sock) := fun _ => rfl

theorem EncodingFormat.mbSerialInit (w : Window) (rest : List Byte) : EncodingFormat.Statement
    (.mbSerialInit w rest) := fun _ => rfl

theorem EncodingFormat.mbUnhandled (w : Window) (code : Word16) (rest : List Byte) : EncodingFormat.Statement
    (.mbUnhandled w code rest) := fun _ => rfl

end Sys2Proof.Laws
end

