-- ==== Sys2Proof/Laws/Transfer.lean ====
section
/-! SUPPORT. What the BMSC's shared operations can do: a command slot, a whole frame, the stream after it, a transaction. -/

namespace Sys2Proof.Machine

open Sys2Proof

/-- Every function of three bytes is the check function of some table (R9, U2). -/
theorem checkByte_table (f : Byte → Byte → Byte → Byte) : ∃ values : List Byte, ∀ (c : Cfg) (b0 b1 b2 : Byte),
    c.bm.checkFn = .table values → checkByte c b0 b1 b2 = f b0 b1 b2 := by
  refine ⟨(List.range 16777216).map fun k => f (byteOf (k / 65536)) (byteOf (k / 256)) (byteOf k), ?_⟩
  intro c b0 b1 b2 h
  have h0 := b0.isLt
  have h1 := b1.isLt
  have h2 := b2.isLt
  have hk : b0.toNat * 65536 + b1.toNat * 256 + b2.toNat < 16777216 := by omega
  have hb : ∀ (b : Byte) (k : Nat), k % 256 = b.toNat → byteOf k = b := by
    intro b k e
    apply BitVec.eq_of_toNat_eq
    simp only [byteOf, BitVec.toNat_ofNat]
    omega
  simp only [checkByte, h, List.getD_eq_getElem?_getD, List.getElem?_map, List.getElem?_range hk, Option.map_some,
    Option.getD_some]
  rw [hb b0 _ (by omega), hb b1 _ (by omega), hb b2 _ (by omega)]

/-- The BMSC after the four frame slots of a transaction outside ID mode: at slot 4, the frame latched, the check made. -/
def Bmsc.latched (c : Cfg) (b : Bmsc) (op p1 p2 chk : Byte) : Bmsc :=
  { b with cs := true, pos := 4, x0 := op, x1 := p1, x2 := p2, x3 := chk, bitcnt := 0,
           log := b.log ++ checkEvents c op p1 p2 chk }

/-- A selected byte slot from slot 4 on, outside ID mode: the command's byte and the command's state change. -/
theorem Bmsc.transferByte_command (c : Cfg) (b : Bmsc) (v : Byte) (hc : b.cs = true) (hp : 4 ≤ b.pos)
    (hi : b.idMode = false) : b.transferByte c v = (cmdOut c b, { cmdNext c b with pos := b.pos + 1 }) := by
  have h1 : ¬ b.pos < 2 := by omega
  have h2 : ¬ b.pos < 4 := by omega
  have h3 : ∀ x : Byte, b.latch x = b := by
    intro x
    unfold Bmsc.latch
    split <;> first | omega | rfl
  have h4 : b.checkSlot c v = b := by
    unfold Bmsc.checkSlot
    rw [if_neg]; omega
  simp [Bmsc.transferByte, hc, Bmsc.slotOut, Bmsc.slotNext, h1, h2, h3, h4, hi, Bmsc.commandSlot, hp]

theorem Bmsc.idMode_false {b : Bmsc} (h : b.x0 ≠ 0 ∨ b.x1 ≠ 0) : b.idMode = false := by
  unfold Bmsc.idMode
  rcases h with h | h <;> rw [decide_eq_false h] <;> simp

/-- The four frame slots of a transaction outside ID mode return idle bytes and leave the frame latched; the later slots go
on from there. -/
theorem Bmsc.transferBytes_frame (c : Cfg) (b : Bmsc) (op p1 p2 chk : Byte) (rest : List Byte)
    (h : ¬(op = 0 ∧ p1 = 0)) :
    (b.chipSelect true).transferBytes c (op :: p1 :: p2 :: chk :: rest) =
      (List.replicate 4 c.bm.idleByte ++ ((b.latched c op p1 p2 chk).transferBytes c rest).1,
        ((b.latched c op p1 p2 chk).transferBytes c rest).2) := by
  have hid : ∀ x : Bmsc, x.x0 = op → x.x1 = p1 → x.idMode = false := by
    intro x h0 h1
    apply Bmsc.idMode_false
    rw [h0, h1]
    exact not_and_or.1 h
  by_cases hk : chk = checkByte c op p1 p2 <;>
    simp [Bmsc.chipSelect, Bmsc.transferBytes, Bmsc.transferByte, Bmsc.slotOut, Bmsc.slotNext, Bmsc.latch, Bmsc.checkSlot,
      Bmsc.commandSlot, hid, Bmsc.checkValue, Bmsc.latched, checkEvents, hk, Bmsc.raise, List.replicate]

/-- A whole mnemonic outside ID mode: its command slots run on the latched frame, then chip-select is deasserted. -/
theorem runTransaction_frame (op p1 p2 chk : Byte) (n : Nat) (s : State) (h : ¬(op = 0 ∧ p1 = 0)) :
    runTransaction (frameBytes op p1 p2 chk n) s =
      (let r := (s.bmsc.latched s.cfg op p1 p2 chk).transferBytes s.cfg (dummySlots n)
       .next (s.withBmsc (r.2.chipSelect false) (framedOut s.cfg r.1))) := by
  simp [runTransaction, Bmsc.transaction, frameBytes, Bmsc.transferBytes_frame _ _ _ _ _ _ _ h, framedOut]

/-- The transaction of any bytes answers a next state. -/
theorem runTransaction_next (ins : List Byte) (s : State) :
    runTransaction ins s = .next (s.withBmsc (s.bmsc.transaction s.cfg ins).2 (.bytes (s.bmsc.transaction s.cfg ins).1)) :=
  rfl

/-- A stream in which the command always returns `v` and changes nothing: `n` times `v`, and only the position moves. -/
theorem Bmsc.transferBytes_idle (c : Cfg) (v : Byte) (n : Nat) (b : Bmsc) (hc : b.cs = true) (hp : 4 ≤ b.pos)
    (hi : b.x0 ≠ 0 ∨ b.x1 ≠ 0) (hout : ∀ k, b.pos ≤ k → cmdOut c { b with pos := k } = v)
    (hnext : ∀ k, b.pos ≤ k → cmdNext c { b with pos := k } = { b with pos := k }) :
    b.transferBytes c (List.replicate n 0) = (List.replicate n v, { b with pos := b.pos + n }) := by
  induction n generalizing b with
  | zero => rfl
  | succ n ih =>
    have hid : b.idMode = false := Bmsc.idMode_false hi
    have h0 := hout b.pos (Nat.le_refl _)
    have h1 := hnext b.pos (Nat.le_refl _)
    rw [List.replicate_succ, Bmsc.transferBytes, Bmsc.transferByte_command c b 0 hc hp hid]
    have hb : { b with pos := b.pos } = b := rfl
    rw [hb] at h0 h1
    rw [h0, h1]
    have := ih { b with pos := b.pos + 1 } hc (by simp only; omega) hi
      (fun k hk => hout k (by simp only at hk; omega)) (fun k hk => hnext k (by simp only at hk; omega))
    simp only [this, List.replicate_succ]
    congr 2
    omega

/-- A mnemonic whose command acts once, in slot 4, by `f`, and returns `v` in every command slot. -/
theorem runTransaction_once (s : State) (op p1 p2 chk : Byte) (n : Nat) (f : Bmsc → Bmsc) (v : Byte)
    (h : ¬(op = 0 ∧ p1 = 0)) (hout : ∀ b : Bmsc, b.x0 = op → cmdOut s.cfg b = v)
    (h4 : ∀ b : Bmsc, b.x0 = op → b.pos = 4 → cmdNext s.cfg b = f b)
    (h5 : ∀ b : Bmsc, b.x0 = op → 4 < b.pos → cmdNext s.cfg b = b)
    (hf : ∀ b : Bmsc, (f b).x0 = b.x0 ∧ (f b).x1 = b.x1 ∧ (f b).cs = b.cs) :
    runTransaction (frameBytes op p1 p2 chk n) s =
      .next (s.withBmsc { f (s.bmsc.latched s.cfg op p1 p2 chk) with cs := false, pos := 5 + n, bitcnt := 0 }
        (framedOut s.cfg (List.replicate (n + 1) v))) := by
  rw [runTransaction_frame _ _ _ _ _ _ h]
  have hx : (s.bmsc.latched s.cfg op p1 p2 chk).x0 = op := rfl
  have hx1 : (s.bmsc.latched s.cfg op p1 p2 chk).x1 = p1 := rfl
  have hp : (s.bmsc.latched s.cfg op p1 p2 chk).pos = 4 := rfl
  have hc : (s.bmsc.latched s.cfg op p1 p2 chk).cs = true := rfl
  generalize s.bmsc.latched s.cfg op p1 p2 chk = b at hx hx1 hp hc
  obtain ⟨f0, f1, f2⟩ := hf b
  have hi : b.x0 ≠ 0 ∨ b.x1 ≠ 0 := by
    rw [hx, hx1]
    exact not_and_or.1 h
  rw [dummySlots, List.replicate_succ, Bmsc.transferBytes,
    Bmsc.transferByte_command _ _ _ hc (by omega) (Bmsc.idMode_false hi), hout b hx, h4 b hx hp]
  have := Bmsc.transferBytes_idle s.cfg v n { f b with pos := b.pos + 1 } (by simpa [f2] using hc) (by simp [hp])
    (by simpa only [f0, f1] using hi) (fun k _ => hout _ (by simp [f0, hx]))
    (fun k hk => h5 _ (by simp [f0, hx]) (by simp only at hk ⊢; omega))
  simp only [this]
  simp [Bmsc.chipSelect, hp, List.replicate_succ]

/-- The slots of two lists of bytes, one list after the other. -/
theorem Bmsc.transferBytes_append (c : Cfg) (b : Bmsc) (xs ys : List Byte) :
    b.transferBytes c (xs ++ ys) =
      (let r := b.transferBytes c xs
       let q := r.2.transferBytes c ys
       (r.1 ++ q.1, q.2)) := by
  induction xs generalizing b with
  | nil => rfl
  | cons x xs ih => simp [Bmsc.transferBytes, ih]

end Sys2Proof.Machine
end

