-- ==== Sys2Proof/Tests/Slice0.lean ====
section
/-! SUPPORT. Tests: well-formedness, decoding of words written out from spec/30_encoding.md, single steps on the vectors of
spec/95_test_vectors.md (named in each comment), and a witness for the hypotheses of each statement. -/

namespace Sys2Proof.Tests

open Sys2Proof Sys2Proof.Machine

set_option Elab.async false

/-! ## Well-formedness: an ill-formed term for each check -/

theorem test_wf_unhandled_known : (Instr.bmUnhandled 0x01 0 0 0 0).wf Cfg.default = false := by decide
theorem test_wf_unhandled_id : (Instr.bmUnhandled 0 0 0 0 0).wf Cfg.default = false := by decide
theorem test_wf_serial_reset : (Instr.siUnhandled 0x00 []).wf Cfg.default = false := by decide
theorem test_wf_serial_command : (Instr.siUnhandled 0x70 []).wf Cfg.default = false := by decide
theorem test_wf_chunk_long : (Instr.chJVS (List.replicate 256 0) noPad).wf Cfg.default = false := by decide +kernel
theorem test_wf_card_long : (Instr.chCard (List.replicate 256 0)).wf Cfg.default = false := by decide +kernel
theorem test_wf_iccard_long : (Instr.chICCard (List.replicate 256 0)).wf Cfg.default = false := by decide +kernel
theorem test_wf_chunk_known : (Instr.chUnhandled 0x31 []).wf Cfg.default = false := by decide
theorem test_wf_chunk_unknown_long : (Instr.chUnhandled 0x55 (List.replicate 256 0)).wf Cfg.default = false := by decide +kernel
theorem test_wf_driver_long : (Instr.jDriverOutput 1 (List.replicate 256 0)).wf Cfg.default = false := by decide +kernel
theorem test_wf_driver_frame : (Instr.jDriverOutput 1 (List.replicate 254 0)).wf Cfg.default = false := by decide +kernel
theorem test_wf_driver_stuffed : (Instr.jDriverOutput 1 (List.replicate 130 0xE0)).wf Cfg.default = false := by decide +kernel
theorem test_wf_jvs_known : (Instr.jUnhandled 1 0x10 []).wf Cfg.default = false := by decide +kernel
theorem test_wf_jvs_long : (Instr.jUnhandled 1 0x99 (List.replicate 255 0)).wf Cfg.default = false := by decide +kernel
theorem test_wf_mailbox_size : (Instr.mbBind .legacy (List.replicate 29 0) none).wf Cfg.default = false := by decide
theorem test_wf_mailbox_known : (Instr.mbUnhandled .legacy 0x0402 (List.replicate 30 0)).wf Cfg.default = false := by decide
theorem test_wf_mailbox_unknown_size : (Instr.mbUnhandled .legacy 0 []).wf Cfg.default = false := by decide

/-- Bytes after the ones the profile consumes are another group. -/
theorem test_wf_namco_rest (r : List Byte) (h : Config.namco Cfg.default.profile [0x01] = some (0, r)) :
    (Instr.jNAMCO 1 [0x01]).wf Cfg.default = false := by
  rw [Instr.wf, namcoWhole, h]
  rfl

/-! ## Decoding of words written out from the formats -/

theorem test_decode_backupOffsetSet :
    decode Cfg.default (.frame [0x01, 0x12, 0x34, 0x12, 0x00]) = .ok (.backupOffsetSet 0x1234 0x12 0) := rfl
theorem test_decode_backupWrite :
    decode Cfg.default (.frame [0x02, 0xAB, 0x77, 0xB8, 0x00, 0x00]) = .ok (.backupWrite 0xAB 0x77 0xB8 1) := rfl
theorem test_decode_backupRead :
    decode Cfg.default (.frame [0x03, 0x01, 0x02, 0xCE, 0x00]) = .ok (.backupRead 0x01 0x02 0xCE 0) := rfl
theorem test_decode_dmaOffsetLengthSet :
    decode Cfg.default (.frame [0x05, 0x12, 0x34, 0x20, 0x00]) = .ok (.dmaOffsetLengthSet 0x1234 0x20 0) := rfl
theorem test_decode_readISR :
    decode Cfg.default (.frame [0x82, 0x01, 0x02, 0x0F, 0x00, 0x00]) = .ok (.readISR 0x01 0x02 0x0F 1) := rfl
theorem test_decode_writeISR :
    decode Cfg.default (.frame [0x83, 0x5A, 0x01, 0x3B, 0x00]) = .ok (.writeISR 0x5A 0x01 0x3B 0) := rfl
theorem test_decode_readIMR :
    decode Cfg.default (.frame [0x86, 0x01, 0x02, 0xF5, 0x00]) = .ok (.readIMR 0x01 0x02 0xF5 0) := rfl
theorem test_decode_writeIMR :
    decode Cfg.default (.frame [0x87, 0xA5, 0x01, 0x9A, 0x00]) = .ok (.writeIMR 0xA5 0x01 0x9A 0) := rfl
theorem test_decode_writeLANCNT :
    decode Cfg.default (.frame [0xFF, 0x02, 0x01, 0x63, 0x00]) = .ok (.writeLANCNT 0x02 0x01 0x63 0) := rfl
theorem test_decode_serialID :
    decode Cfg.default (.frame [0x00, 0x00, 0x55, 0x66, 0x00, 0x00]) = .ok (.serialID 0x55 0x66 1) := rfl
theorem test_decode_bmUnhandled :
    decode Cfg.default (.frame [0x00, 0x01, 0x00, 0x5E, 0x00]) = .ok (.bmUnhandled 0x00 0x01 0x00 0x5E 0) := rfl
theorem test_decode_shortFrame : decode Cfg.default (.frame [0x02, 0xAB, 0x00, 0xB8]) = .error .shortFrame := rfl
theorem test_decode_setChipSelect : decode Cfg.default (.setChipSelect true) = .ok (.setChipSelect true) := rfl
theorem test_decode_transferByte : decode Cfg.default (.transferByte (.bit true)) = .ok (.transferByte (.bit true)) := rfl
theorem test_decode_dmaWrite : decode Cfg.default (.dmaWrite 1 2 [(1, 3)]) = .ok (.dmaWrite 1 2 [(1, 3)]) := rfl
theorem test_decode_dmaRead : decode Cfg.default (.dmaRead 1 2 [(1, 3)]) = .ok (.dmaRead 1 2 [(1, 3)]) := rfl
theorem test_decode_pollInterrupt : decode Cfg.default .pollInterrupt = .ok .pollInterrupt := rfl
theorem test_decode_reset : decode Cfg.default (.reset .jvsc) = .ok (.reset .jvsc) := rfl
theorem test_decode_runBuffer : decode Cfg.default (.runBuffer [0x70] noPad) = .ok (.runBuffer [0x70] noPad) := rfl
theorem test_decode_siReset : decode Cfg.default (.serial [0x00, 0x01] noPad) = .ok (.siReset [0x01]) := rfl
theorem test_decode_siCommand :
    decode Cfg.default (.serial [0x70, 0x40, 0x00] noPad) = .ok (.siCommand [0x40, 0x00] noPad) := rfl
theorem test_decode_siUnhandled : decode Cfg.default (.serial [0x42, 0x01] noPad) = .ok (.siUnhandled 0x42 [0x01]) := rfl
theorem test_decode_emptyBuffer : decode Cfg.default (.serial [] noPad) = .error .emptyBuffer := rfl
theorem test_decode_chJVS :
    decode Cfg.default (.chunk [0x40, 0x02, 0xE0, 0x01] noPad) = .ok (.chJVS [0xE0, 0x01] noPad) := rfl
theorem test_decode_chCard : decode Cfg.default (.chunk [0x31, 0x01, 0x00] noPad) = .ok (.chCard [0x00]) := rfl
theorem test_decode_chICCard : decode Cfg.default (.chunk [0x32, 0x01, 0x00] noPad) = .ok (.chICCard [0x00]) := rfl
theorem test_decode_chUnhandled : decode Cfg.default (.chunk [0x55, 0x01, 0xAA] noPad) = .ok (.chUnhandled 0x55 [0xAA]) := rfl
theorem test_decode_chunkLength : decode Cfg.default (.chunk [0x40, 0x05, 0xE0] noPad) = .error .chunkLength := rfl
theorem test_decode_shortChunk : decode Cfg.default (.chunk [0x40] noPad) = .error .shortChunk := rfl
theorem test_decode_jBoardID : decode Cfg.default (.payload 0x01 [0x10] noPad) = .ok (.jBoardID 0x01) := rfl
theorem test_decode_jCommandRev : decode Cfg.default (.payload 0x01 [0x11] noPad) = .ok (.jCommandRev 0x01) := rfl
theorem test_decode_jJVRev : decode Cfg.default (.payload 0x01 [0x12] noPad) = .ok (.jJVRev 0x01) := rfl
theorem test_decode_jCommRev : decode Cfg.default (.payload 0x01 [0x13] noPad) = .ok (.jCommRev 0x01) := rfl
theorem test_decode_jCapabilities : decode Cfg.default (.payload 0x01 [0x14] noPad) = .ok (.jCapabilities 0x01) := rfl
theorem test_decode_jSwitchInput :
    decode Cfg.default (.payload 0x01 [0x20, 0x02, 0x03] ⟨7⟩) = .ok (.jSwitchInput 0x01 0x02 0x03 ⟨7⟩) := rfl
theorem test_decode_jCoinInput :
    decode Cfg.default (.payload 0x01 [0x21, 0x02] ⟨7⟩) = .ok (.jCoinInput 0x01 0x02 ⟨7⟩) := rfl
theorem test_decode_jAnalogInput :
    decode Cfg.default (.payload 0x01 [0x22, 0x08] ⟨7⟩) = .ok (.jAnalogInput 0x01 0x08 ⟨7⟩) := rfl
theorem test_decode_jPositionInput :
    decode Cfg.default (.payload 0x01 [0x25, 0x01] ⟨7⟩) = .ok (.jPositionInput 0x01 0x01 ⟨7⟩) := rfl
theorem test_decode_jCoinSub :
    decode Cfg.default (.payload 0x01 [0x30, 0x01, 0x02, 0x03] noPad) = .ok (.jCoinSub 0x01 0x01 0x02 0x03) := rfl
theorem test_decode_jDriverOutput :
    decode Cfg.default (.payload 0x01 [0x32, 0x02, 0xE0, 0xD0] noPad) = .ok (.jDriverOutput 0x01 [0xE0, 0xD0]) := rfl
theorem test_decode_jCoinAdd :
    decode Cfg.default (.payload 0x01 [0x35, 0x02, 0x40, 0x01] noPad) = .ok (.jCoinAdd 0x01 0x02 0x40 0x01) := rfl
theorem test_decode_jNAMCO : decode Cfg.default (.payload 0x01 [0x70] noPad) = .ok (.jNAMCO 0x01 []) := by
  show decodePayload Cfg.default 0x01 0x70 [] noPad = _
  rw [decodePayload, decodeGroup, show jopOf Cfg.default 0x70 = some .namco from rfl]
  simp only [argCount]
  cases Config.namco Cfg.default.profile [] with
  | none => rfl
  | some r => cases h : r.1 <;> simp [h, jopInstr]
theorem test_decode_jReset : decode Cfg.default (.payload 0xFF [0xF0, 0xD9] noPad) = .ok (.jReset 0xFF 0xD9) := rfl
theorem test_decode_jSetAddress : decode Cfg.default (.payload 0xFF [0xF1, 0x01] noPad) = .ok (.jSetAddress 0xFF 0x01) := rfl
theorem test_decode_jUnhandled :
    decode Cfg.default (.payload 0x01 [0x99, 0x12] noPad) = .ok (.jUnhandled 0x01 0x99 [0x12]) := rfl
theorem test_decode_emptyPayload : decode Cfg.default (.payload 0x01 [] noPad) = .error .emptyPayload := rfl
theorem test_decode_argsTruncated : decode Cfg.default (.payload 0x01 [0x21] noPad) = .error (.argsTruncated 0x21) := rfl
theorem test_decode_trailingBytes : decode Cfg.default (.payload 0x01 [0x11, 0x12] noPad) = .error .trailingBytes := rfl
theorem test_decode_frameTooLong :
    decode Cfg.default (.payload 0x01 (0x99 :: List.replicate 254 0) noPad) = .error .frameTooLong := by
  have h : ¬jvsFits Cfg.default.jv 0x01 (0x99 :: List.replicate 254 0) = true := by decide +kernel
  simp only [decode, if_neg h]
theorem test_decode_mbWrite : decode Cfg.default (.mbWrite .revised 1 [2]) = .ok (.mbWrite .revised 1 [2]) := rfl
theorem test_decode_mbRead : decode Cfg.default (.mbRead .revised 1 2) = .ok (.mbRead .revised 1 2) := rfl
theorem test_decode_mbExecute : decode Cfg.default (.mbExecute .revised none) = .ok (.mbExecute .revised none) := rfl

/-- An inbound region whose code bytes, at offsets 2 and 3, are `lo` and `hi`. -/
def region (lo hi : Byte) : List Byte := [0xAA, 0xBB, lo, hi] ++ List.replicate 28 0x5C

/-- The same region without its code bytes. -/
def others : List Byte := [0xAA, 0xBB] ++ List.replicate 28 0x5C

theorem test_decode_mbGetDIMMSize :
    decode Cfg.default (.inbound .legacy (region 0x01 0x00) none) = .ok (.mbGetDIMMSize .legacy others) := rfl
theorem test_decode_mbGetStatus :
    decode Cfg.default (.inbound .revised (region 0x00 0x01) none) = .ok (.mbGetStatus .revised others) := rfl
theorem test_decode_mbAccept :
    decode Cfg.default (.inbound .legacy (region 0x01 0x04) none) = .ok (.mbAccept .legacy others none) := rfl
theorem test_decode_mbBind :
    decode Cfg.default (.inbound .legacy (region 0x02 0x04) none) = .ok (.mbBind .legacy others none) := rfl
theorem test_decode_mbConnect :
    decode Cfg.default (.inbound .legacy (region 0x04 0x04) none) = .ok (.mbConnect .legacy others none) := rfl
theorem test_decode_mbInetAddr :
    decode Cfg.default (.inbound .legacy (region 0x06 0x04) none) = .ok (.mbInetAddr .legacy others none) := rfl
theorem test_decode_mbListen :
    decode Cfg.default (.inbound .legacy (region 0x08 0x04) none) = .ok (.mbListen .legacy others none) := rfl
theorem test_decode_mbRecv :
    decode Cfg.default (.inbound .legacy (region 0x09 0x04) none) = .ok (.mbRecv .legacy others none) := rfl
theorem test_decode_mbSend :
    decode Cfg.default (.inbound .legacy (region 0x0A 0x04) none) = .ok (.mbSend .legacy others none) := rfl
theorem test_decode_mbSocket :
    decode Cfg.default (.inbound .legacy (region 0x0B 0x04) none) = .ok (.mbSocket .legacy others none) := rfl
theorem test_decode_mbSelect :
    decode Cfg.default (.inbound .legacy (region 0x0C 0x04) none) = .ok (.mbSelect .legacy others none) := rfl
theorem test_decode_mbSetSockOpt :
    decode Cfg.default (.inbound .legacy (region 0x0E 0x04) none) = .ok (.mbSetSockOpt .legacy others none) := rfl
theorem test_decode_mbSetTimeOuts :
    decode Cfg.default (.inbound .legacy (region 0x10 0x04) none) = .ok (.mbSetTimeOuts .legacy others none) := rfl
theorem test_decode_mbGetLastError :
    decode Cfg.default (.inbound .legacy (region 0x11 0x04) none) = .ok (.mbGetLastError .legacy others none) := rfl
theorem test_decode_mbModifyMyIPaddr :
    decode Cfg.default (.inbound .legacy (region 0x15 0x04) none) = .ok (.mbModifyMyIPaddr .legacy others none) := rfl
theorem test_decode_mbSerialInit :
    decode Cfg.default (.inbound .legacy (region 0x01 0x06) none) = .ok (.mbSerialInit .legacy others) := rfl
theorem test_decode_mbUnhandled :
    decode Cfg.default (.inbound .legacy (region 0x34 0x12) none) = .ok (.mbUnhandled .legacy 0x1234 others) := rfl
theorem test_decode_inboundSize : decode Cfg.default (.inbound .legacy [] none) = .error .inboundSize := rfl

/-! ## Single steps -/

/-- The illustration profile `P0` and the suggested serial and device bytes of spec/95_test_vectors.md, in place of the OPEN
values. -/
def testCfg : Cfg where
  bm := { Cfg.default.bm with serialId := #v[0x06, 0x04, 0x10, 0x00] }
  jv := { Cfg.default.jv with deviceId := #v[0x10, 0x11, 0x08, 0x00] }
  mb := Cfg.default.mb
  profile :=
    { title := 0, storageMedium := .opticalDisc, quirks := [], boardId := [0x41, 0x00], cmdRev := 0x13, jvRev := 0x30,
      commRev := 0x10 }

/-- The machine after reset under the test configuration. -/
def start : State := { State.reset with cfg := testCfg, bmsc := Bmsc.reset testCfg, jvsc := Jvsc.reset testCfg }

/-- A check on the state instructions end in; a stop fails it. -/
def ends (is : List Instr) (s : State) (p : State → Bool) : Bool :=
  match execAll is s with
  | .next t => p t
  | .fault _ => false
  | .refused _ => false

/-- `start` with the cursor at an offset. -/
def atCursor (o : Word16) : State := { start with bmsc := { start.bmsc with cursor := o } }

/-- B14: the interrupt asserted. -/
def asserted : State := { start with bmsc := { start.bmsc with irqPending := true, isr := 0x02 } }

/-- B1. -/
theorem test_offsetSet : ends [.backupOffsetSet 0x0010 0x18 0] start (fun t =>
    t.bmsc.cursor == 0x0010 && t.result == .bytes [0xFF, 0xFF, 0xFF, 0xFF, 0x01] && t.bmsc.log == []) = true := by
  decide +kernel
/-- B7. -/
theorem test_wrong_check : ends [.backupOffsetSet 0x0010 0x00 0] start (fun t =>
    t.bmsc.cursor == 0x0010 && t.bmsc.log == [.crcMismatch 0x01 0x00 0x10 0x00 0x18]) = true := by decide +kernel
/-- B2. -/
theorem test_write : ends [.backupWrite 0xAB 0x00 0xB8 0] (atCursor 0x0010) (fun t =>
    t.bmsc.bkRead t.cfg 0x0010 == 0xAB && t.bmsc.cursor == 0x0011) = true := by decide +kernel
/-- P2 step 3 and B5: two more slots, one write only, the cursor past the end. -/
theorem test_write_wraps : ends [.backupWrite 0x22 0x00 0xF4 2] (atCursor 0xFFFF) (fun t =>
    t.bmsc.bk.cells == [(0xFFFF, 0x22)] && t.bmsc.cursor == 0x0000) = true := by decide +kernel
/-- B4. -/
theorem test_read_wraps : ends [.backupRead 0 0 0xCE 3]
    { start with bmsc := { start.bmsc with cursor := 0xFFFE, bk := ⟨[(0, 0x33), (1, 0x44), (0xFFFE, 0x11), (0xFFFF, 0x22)]⟩ } }
    (fun t => t.result == .bytes [0xFF, 0xFF, 0xFF, 0xFF, 0x11, 0x22, 0x33, 0x44] && t.bmsc.cursor == 0x0002) = true := by
  decide +kernel
/-- B8. -/
theorem test_dmaSet : ends [.dmaOffsetLengthSet 0x1234 0x20 1] start (fun t =>
    t.bmsc.dmaOff == 0x1234 && t.bmsc.dmaLen == 0x20 && t.bmsc.log == [.crcMismatch 0x05 0x12 0x34 0x20 0xE8]) = true := by
  decide +kernel
/-- B15. -/
theorem test_readISR : ends [.readISR 0 0 0x0F 0] asserted (fun t =>
    t.result == .bytes [0xFF, 0xFF, 0xFF, 0xFF, 0x02] && t.bmsc.irqPending && t.bmsc.isr == 0x02) = true := by decide +kernel
/-- B16. -/
theorem test_readISR_clears : ends [.readISR 0 0 0x0F 2] asserted (fun t =>
    t.result == .bytes [0xFF, 0xFF, 0xFF, 0xFF, 0x02, 0x02, 0x00] && !t.bmsc.irqPending && t.bmsc.isr == 0) = true := by
  decide +kernel
/-- B19. -/
theorem test_writeISR : ends [.writeISR 0xFF 0 0xE7 0] start (fun t => t.bmsc.isr == 0xFF && !t.bmsc.irqPending) = true := by
  decide +kernel
/-- B22. -/
theorem test_readIMR : ends [.readIMR 0 0 0xF5 1] { start with bmsc := { start.bmsc with imr := 0xA5 } }
    (fun t => t.result == .bytes [0xFF, 0xFF, 0xFF, 0xFF, 0xA5, 0xA5]) = true := by decide +kernel
/-- B21. -/
theorem test_writeIMR : ends [.writeIMR 0xA5 0 0x9A 0] start (fun t => t.bmsc.imr == 0xA5) = true := by decide +kernel
/-- B14. -/
theorem test_lancnt_assert : ends [.writeLANCNT 0 0 0xC4 0] start (fun t =>
    t.bmsc.irqPending && t.bmsc.irqCount == 0 && t.bmsc.isr == 0x02) = true := by decide +kernel
/-- B17. -/
theorem test_lancnt_clear : ends [.writeLANCNT 2 1 0x63 0] asserted (fun t => !t.bmsc.irqPending && t.bmsc.isr == 0) = true := by
  decide +kernel
/-- B10. -/
theorem test_serialID : ends [.serialID 0 0 3] start (fun t =>
    t.result == .bytes [0xFF, 0xFF, 0x06, 0x04, 0x10, 0x00, 0x06, 0x04] && t.bmsc.log == []) = true := by decide +kernel
/-- B12. -/
theorem test_unhandled : ends [.bmUnhandled 0x04 0 0 0xFA 1] start (fun t =>
    t.result == .bytes [0xFF, 0xFF, 0xFF, 0xFF, 0xFF, 0xFF] && t.bmsc.log == [.bmUnhandled 0x04]) = true := by decide +kernel
/-- B24. -/
theorem test_chipSelect : ends [.setChipSelect true] { start with bmsc := { start.bmsc with cs := true, pos := 2, x0 := 0x02 } }
    (fun t => t.bmsc.cs && t.bmsc.pos == 0 && t.bmsc.x0 == 0x02) = true := by decide +kernel
/-- B23. -/
theorem test_transfer_unselected : ends [.transferByte (.byte 0x03)] start (fun t =>
    t.result == .byte 0xFF && t.bmsc.pos == 0) = true := by decide +kernel
/-- Section 2.4: the eighth clock period of slot 0 of B1. -/
theorem test_transfer_bit : ends [.transferByte (.bit true)]
    { start with bmsc := { start.bmsc with cs := true, bitcnt := 7, txSr := 0x80, rxSr := 0x00 } }
    (fun t => t.result == .bit true && t.bmsc.x0 == 0x01 && t.bmsc.pos == 1 && t.bmsc.bitcnt == 0) = true := by decide +kernel
/-- B32. -/
theorem test_dmaWrite : ends [.dmaWrite 0x10 2 [(0x10, 0x01), (0x11, 0x02)]]
    { start with bmsc := { start.bmsc with dmaOff := 0xFFFF } }
    (fun t => t.bmsc.bk.cells == [(0x0000, 0x02), (0xFFFF, 0x01)] && t.bmsc.cursor == 0x0001) = true := by decide +kernel
/-- B31, two bytes. -/
theorem test_dmaRead : ends [.dmaRead 0x2000 2 [(0x2000, 0), (0x2001, 0)]]
    { start with bmsc := { start.bmsc with dmaOff := 0x0100, bk := ⟨[(0x0100, 0xDE), (0x0101, 0xAD)]⟩ } }
    (fun t => t.bmsc.guestOut == [(0x2000, 0xDE), (0x2001, 0xAD)] && t.bmsc.cursor == 0x0102) = true := by decide +kernel
/-- U6: an address the guest does not back. -/
theorem test_dma_unbacked : exec (.dmaRead 0x2000 2 [(0x2000, 0)]) start = .refused .guestRangeNotBacked := rfl
/-- B34, the thirteenth poll. -/
theorem test_poll : ends [.pollInterrupt] { asserted with bmsc := { asserted.bmsc with irqCount := 12 } } (fun t =>
    t.result == .bit true && !t.bmsc.irqPending && t.bmsc.irqCount == 13 && t.bmsc.isr == 0x02) = true := by decide +kernel
/-- R331. -/
theorem test_reset : ends [.reset .bmsc]
    { start with bmsc := { asserted.bmsc with bk := ⟨[(0x0100, 0xDE)]⟩, cursor := 5 } }
    (fun t => t.bmsc.bk.cells == [(0x0100, 0xDE)] && t.bmsc.cursor == 0 && !t.bmsc.irqPending) = true := by decide +kernel
/-- J42. -/
theorem test_runBuffer : ends [.runBuffer [0x70, 0x55, 0x01, 0xAA, 0x31, 0x01, 0x00] noPad] start (fun t =>
    t.jvsc.prevReply == [0x31, 0x00] && t.result == .reply [] 0
      && t.jvsc.log == [.chunkUnhandled 0x55, .cardRefused [0x00]]) = true := by decide +kernel
/-- J40. -/
theorem test_siReset : ends [.siReset []] start (fun t => t.result == .reply [0x10, 0x11, 0x08, 0x00] 4) = true := by
  decide +kernel
/-- J44. -/
theorem test_siCommand : ends [.siCommand [0x40, 0x05, 0xE0, 0x02] noPad] start (fun t =>
    t.jvsc.log == [.chunkTruncated 0x40 5 2] && t.jvsc.prevReply == []) = true := by decide +kernel
/-- J41. -/
theorem test_siUnhandled : ends [.siUnhandled 0x42 [0x01]] start (fun t =>
    t.result == .reply [] 0 && t.jvsc.log == [.siUnhandled 0x42]) = true := by decide +kernel
/-- J11. -/
theorem test_chJVS : ends [.chJVS [0xE0, 0x05, 0x01, 0x11, 0xE0, 0x02, 0x01, 0x12, 0x15] noPad] start (fun t =>
    t.jvsc.prevReply == [0x40, 0x07, 0xE0, 0x04, 0x00, 0x01, 0x01, 0x30, 0x36]
      && t.jvsc.log == [.jvsFrameAborted .payload]) = true := by decide +kernel
/-- J9. -/
theorem test_chJVS_truncated : ends [.chJVS [0xE0, 0x03, 0x01, 0x11] noPad] start (fun t =>
    t.jvsc.prevReply == [0x40, 0x00] && t.jvsc.log == [.jvsFrameTruncated .payload]) = true := by decide +kernel
/-- J42. -/
theorem test_chCard : ends [.chCard [0x00]] start (fun t =>
    t.jvsc.prevReply == [0x31, 0x00] && t.jvsc.log == [.cardRefused [0x00]]) = true := by decide +kernel
/-- R251. -/
theorem test_chICCard : ends [.chICCard [0x07]] start (fun t =>
    t.jvsc.prevReply == [0x32, 0x00] && t.jvsc.log == [.icCardRefused [0x07]]) = true := by decide +kernel
/-- J42. -/
theorem test_chUnhandled : ends [.chUnhandled 0x55 [0xAA]] start (fun t =>
    t.jvsc.prevReply == [] && t.jvsc.log == [.chunkUnhandled 0x55]) = true := by decide +kernel
/-- J20 and the exchange of section 4. -/
theorem test_boardID : ends [.jBoardID 0x01] start (fun t =>
    t.jvsc.prevReply == [0x40, 0x08, 0xE0, 0x05, 0x00, 0x01, 0x01, 0x41, 0x00, 0x48] && t.result == .reply [] 0) = true := by
  decide +kernel
/-- J8, its reply frame. -/
theorem test_commandRev : ends [.jCommandRev 0x01] start (fun t =>
    t.jvsc.prevReply == [0x40, 0x07, 0xE0, 0x04, 0x00, 0x01, 0x01, 0x13, 0x19]) = true := by decide +kernel
/-- J12, its second reply frame. -/
theorem test_jvRev : ends [.jJVRev 0x01] start (fun t =>
    t.jvsc.prevReply == [0x40, 0x07, 0xE0, 0x04, 0x00, 0x01, 0x01, 0x30, 0x36]) = true := by decide +kernel
/-- J21, its last two bytes; sum 04 + 00 + 01 + 01 + 10. -/
theorem test_commRev : ends [.jCommRev 0x01] start (fun t =>
    t.jvsc.prevReply == [0x40, 0x07, 0xE0, 0x04, 0x00, 0x01, 0x01, 0x10, 0x16]) = true := by decide +kernel
/-- J22: the dip switch is what the profile is asked with. -/
theorem test_capabilities (j : Jvsc) (h : j.dipSwitch = true) :
    (ruleCapabilities testCfg j).rp = j.rp ++ 0x01 :: Config.capabilities testCfg.profile true := by
  rw [← h]
  rfl
/-- J23: players, then bytes per player. -/
theorem test_switchInput (j : Jvsc) (pad : PadStatus) :
    (ruleSwitchInput testCfg 2 3 pad j).rp = j.rp ++ 0x01 :: Config.switchReport testCfg.profile pad 2 3 := rfl
/-- R241. -/
theorem test_analogInput (j : Jvsc) (pad : PadStatus) :
    (ruleAnalogInput testCfg 8 pad j).rp = j.rp ++ 0x01 :: Config.analogReport testCfg.profile pad 8 := rfl
/-- R242. -/
theorem test_positionInput (j : Jvsc) (pad : PadStatus) :
    (rulePositionInput testCfg 1 pad j).rp = j.rp ++ 0x01 :: Config.positionReport testCfg.profile pad 1 := rfl
/-- J31: a held trigger does not count. -/
theorem test_coin_held (pad : PadStatus) :
    coinAfter testCfg pad { start.jvsc with coinCount := [1, 0], coinPrev := [true, false] } 0 = 1 := by
  simp [coinAfter]
/-- J38: a slot past the last reports zero. -/
theorem test_coin_report :
    Jvsc.coinReport testCfg { start.jvsc with coinCount := [2, 0x0102] } 3 = [0x00, 0x02, 0x01, 0x02, 0x00, 0x00] := by
  decide +kernel
/-- J35: subtraction saturates at 0. -/
theorem test_coinSub : ends [.jCoinSub 0x01 0x01 0x00 0x09] { start with jvsc := { start.jvsc with coinCount := [1, 1] } }
    (fun t => t.jvsc.coinCount == [0, 1]
      && t.jvsc.prevReply == [0x40, 0x06, 0xE0, 0x03, 0x00, 0x01, 0x01, 0x05]) = true := by decide +kernel
/-- J37. -/
theorem test_coinSub_slot : ends [.jCoinSub 0x01 0x03 0x00 0x01] { start with jvsc := { start.jvsc with coinCount := [1, 1] } }
    (fun t => t.jvsc.coinCount == [1, 1] && t.jvsc.log == [.jvsBadSlot 0x03]) = true := by decide +kernel
/-- J36. -/
theorem test_coinAdd : ends [.jCoinAdd 0x01 0x02 0x40 0x00] { start with jvsc := { start.jvsc with coinCount := [0, 1] } }
    (fun t => t.jvsc.coinCount == [0, 0x3FFF]) = true := by decide +kernel
/-- J7. -/
theorem test_driverOutput : ends [.jDriverOutput 0x01 [0xE0, 0xD0]] start (fun t =>
    t.jvsc.driverOut == [[0xE0, 0xD0]] && t.jvsc.rx.buf == [0x32, 0x02, 0xE0, 0xD0]
      && t.jvsc.prevReply == [0x40, 0x06, 0xE0, 0x03, 0x00, 0x01, 0x01, 0x05]) = true := by decide +kernel
/-- J29: the profile refuses. -/
theorem test_namco (j : Jvsc) (h : Config.namco testCfg.profile [0x01] = none) :
    ruleNAMCO testCfg [0x01] j = j.raise (.jvsArgsTruncated 0x70) := by
  simp only [ruleNAMCO, h]
  rfl
/-- J24. -/
theorem test_jReset : ends [.jReset 0xFF 0xD9] { start with jvsc := { start.jvsc with jvsAddr := 5 } } (fun t =>
    t.jvsc.dipSwitch && t.jvsc.jvsAddr == 0) = true := by decide +kernel
/-- J26. -/
theorem test_jReset_magic : ends [.jReset 0xFF 0x00] start (fun t =>
    !t.jvsc.dipSwitch && t.jvsc.log == [.jvsBadResetMagic 0x00]) = true := by decide +kernel
/-- J25. -/
theorem test_setAddress : ends [.jSetAddress 0xFF 0x01] { start with jvsc := { start.jvsc with dipSwitch := true } } (fun t =>
    t.jvsc.jvsAddr == 0x01 && !t.jvsc.dipSwitch) = true := by decide +kernel
/-- J27, from the unknown opcode on. -/
theorem test_jUnhandled : ends [.jUnhandled 0x01 0x99 [0x12]] start (fun t =>
    t.jvsc.prevReply == [0x40, 0x05, 0xE0, 0x02, 0x00, 0x01, 0x03] && t.jvsc.log == [.jvsUnhandled 0x99]) = true := by
  decide +kernel
/-- J6: the checksum itself needs stuffing. -/
theorem test_encode : (start.jvsc.encode testCfg 0x00 [0xDE]).1 = [0xE0, 0x02, 0x00, 0xDE, 0xD0, 0xDF] := by decide +kernel
/-- M6, at the last bytes of the record. -/
theorem test_mbWrite : ends [.mbWrite .revised 0xFE [0x11, 0x22]] start (fun t =>
    t.mbmp.mb.cells == [(0x2FE, 0x11), (0x2FF, 0x22)] && t.mbmp.log == []) = true := by decide +kernel
/-- M5. -/
theorem test_mbWrite_bounds : ends [.mbWrite .legacy 0x2F0 (List.replicate 0x11 1)] start (fun t =>
    t.mbmp.mb.cells == [] && t.mbmp.log == [.mbBounds .legacy 0x2F0 0x11]) = true := by decide +kernel
/-- M7. -/
theorem test_mbRead_bounds : ends [.mbRead .revised 0xFF 2] start (fun t =>
    t.result == .bytes [0, 0] && t.mbmp.log == [.mbBounds .revised 0xFF 2]) = true := by decide +kernel
/-- M3. -/
theorem test_mbExecute : ends [.mbExecute .legacy none] { start with mbmp := { start.mbmp with
      mb := ⟨[(0, 0xAA), (1, 0xBB), (2, 0x34), (3, 0x12)]⟩ } }
    (fun t => t.mbmp.mb.cells == [(0x20, 0xAA), (0x21, 0xBB), (0x22, 0x34), (0x23, 0x92)]
      && t.mbmp.log == [.mbUnhandled 0x1234] && t.mbmp.intOut == [0x10]) = true := by decide +kernel
/-- M4: the code 0x0000 of a cleared region. -/
theorem test_mbUnhandled : ends [.mbUnhandled .revised 0x0000 (List.replicate 30 0)] start (fun t =>
    t.mbmp.mb.cells == [(0x223, 0x80)] && t.mbmp.log == [.mbUnhandled 0] && t.mbmp.intOut == [0x04]) = true := by
  decide +kernel
/-- M1: only four result bytes carry the size. -/
theorem test_dimmSize : (dimmSizeResult testCfg).drop 4 = List.replicate 24 0 ∧
    (dimmSizeResult testCfg).take 1 = [(Config.dimmSize .opticalDisc).extractLsb' 0 8] := ⟨rfl, rfl⟩

/-- The end of a socket command of the given code bytes with the answer `r`: the envelope of M8, and no event. -/
def answered (lo hi r : Byte) (t : State) : Bool :=
  t.mbmp.mb.cells == [(0x22, lo), (0x23, hi), (0x24, r), (0x3F, r)] && t.mbmp.log == [] && t.mbmp.intOut == [0x10]

/-- An oracle's answer that starts and ends with 0x77. -/
def oracle : Option (Vector Byte 28) := some (((Vector.replicate 28 0).set 0 0x77).set 27 0x77)

/-- M8: each code of the map with an oracle. -/
theorem test_accept : ends [.mbAccept .legacy (List.replicate 30 0) oracle] start (answered 0x01 0x84 0x77) = true := by
  decide +kernel
theorem test_bind : ends [.mbBind .legacy (List.replicate 30 0) oracle] start (answered 0x02 0x84 0x77) = true := by
  decide +kernel
theorem test_connect : ends [.mbConnect .legacy (List.replicate 30 0) oracle] start (answered 0x04 0x84 0x77) = true := by
  decide +kernel
theorem test_inetAddr : ends [.mbInetAddr .legacy (List.replicate 30 0) oracle] start (answered 0x06 0x84 0x77) = true := by
  decide +kernel
theorem test_listen : ends [.mbListen .legacy (List.replicate 30 0) oracle] start (answered 0x08 0x84 0x77) = true := by
  decide +kernel
theorem test_recv : ends [.mbRecv .legacy (List.replicate 30 0) oracle] start (answered 0x09 0x84 0x77) = true := by
  decide +kernel
theorem test_send : ends [.mbSend .legacy (List.replicate 30 0) oracle] start (answered 0x0A 0x84 0x77) = true := by
  decide +kernel
theorem test_socket : ends [.mbSocket .legacy (List.replicate 30 0) oracle] start (answered 0x0B 0x84 0x77) = true := by
  decide +kernel
theorem test_select : ends [.mbSelect .legacy (List.replicate 30 0) oracle] start (answered 0x0C 0x84 0x77) = true := by
  decide +kernel
theorem test_setSockOpt : ends [.mbSetSockOpt .legacy (List.replicate 30 0) oracle] start (answered 0x0E 0x84 0x77) = true := by
  decide +kernel
theorem test_setTimeOuts : ends [.mbSetTimeOuts .legacy (List.replicate 30 0) oracle] start (answered 0x10 0x84 0x77) = true := by
  decide +kernel
theorem test_getLastError :
    ends [.mbGetLastError .legacy (List.replicate 30 0) oracle] start (answered 0x11 0x84 0x77) = true := by decide +kernel
theorem test_modifyMyIPaddr :
    ends [.mbModifyMyIPaddr .legacy (List.replicate 30 0) oracle] start (answered 0x15 0x84 0x77) = true := by decide +kernel
/-- M8 with no oracle. -/
theorem test_socket_stub : ends [.mbSocket .legacy (List.replicate 30 0) none] start (fun t =>
    t.mbmp.mb.cells == [(0x22, 0x0B), (0x23, 0x84)] && t.mbmp.log == [.mbSocketStub 0x040B]) = true := by decide +kernel
/-- M9: the open function's code is the command's. -/
theorem test_openResult (inb : List Byte) :
    mbResultOf testCfg 0x0100 inb none = ((Config.mbResult 0x0100 inb testCfg.profile).toList, []) ∧
      mbResultOf testCfg 0x0601 inb none = ((Config.mbResult 0x0601 inb testCfg.profile).toList, []) := ⟨rfl, rfl⟩
/-- R9, U2: the configuration names the check function; this one's table gives 0x5A for three zero bytes, and 0 otherwise. -/
theorem test_checkTable : checkByte { testCfg with bm := { testCfg.bm with checkFn := .table [0x5A] } } 0 0 0 = 0x5A
    ∧ checkByte { testCfg with bm := { testCfg.bm with checkFn := .table [0x5A] } } 1 0 0x10 = 0 := by decide +kernel
/-- R49, R70, R255: a page byte nothing has written is as loaded from its title's store, the last of the 2048 too. -/
theorem test_pageByte : start.jvsc.iccard.pageByte { testCfg with profile := { testCfg.profile with title := 5 } }
    ⟨2047, by decide⟩ = Config.iccInit 5 2047 := rfl
/-- One step takes the oldest request. -/
theorem test_step : (match step { start with pending := [.frame [0x87, 0xA5, 0x00, 0x9A, 0x00], .pollInterrupt] } with
    | .next t => t.bmsc.imr == 0xA5 && t.pending == [.pollInterrupt]
    | .fault _ => false
    | .refused _ => false) = true := by decide +kernel

/-! ## Witnesses: the hypotheses of each statement that has any are met -/

/-- The default configuration meets the side conditions that the statements ask for. -/
theorem cfg_legal : start.cfg.legal = true ∧ start.cfg.codesDistinct = true := by decide +kernel
theorem cfg_framing : start.cfg.jv.framingSound = true := by decide +kernel

/-- A configuration with the other bit order, header order and byte order, the framing bytes exchanged, a check function of its
own, other interrupt flags, codes as in the default. -/
def otherCfg : Cfg where
  bm := { testCfg.bm with bitOrder := .lsbFirst, backupSize := 1, checkFn := .table [0x5A] }
  jv := { testCfg.jv with hdrOrder := .nodeLen, sync := 0xD0, mark := 0xE0, coinSlots := 255 }
  mb := { testCfg.mb with endian := .big, doneOff := 31, cmdOff := 30, legacyBase := 0x2C0, revisedBase := 0x280,
                          intLegacy := 0x20, intRevised := 0x40 }
  profile := testCfg.profile

/-- The machine after reset under the other configuration. -/
def otherStart : State := { State.reset with cfg := otherCfg, bmsc := Bmsc.reset otherCfg, jvsc := Jvsc.reset otherCfg }

/-- The side conditions also hold at their bounds: a store of one byte, windows at the end of the record. -/
theorem otherCfg_legal : otherStart.cfg.legal = true ∧ otherStart.cfg.codesDistinct = true := by decide +kernel
theorem otherCfg_framing : otherStart.cfg.jv.framingSound = true := by decide +kernel

theorem witness_OffsetCommandsSetTheirRegisters : start.cfg.legal = true := cfg_legal.1
theorem witness_BackupWriteStoresOneByte : start.cfg.legal = true ∧ 0xFFFF < start.cfg.bm.backupSize := by decide +kernel
theorem witness_BackupReadStreamsFromCursor : otherStart.cfg.legal = true := otherCfg_legal.1
theorem witness_BackupByteReadsBack : (atCursor 0xFFFF).cfg.legal = true := cfg_legal.1
theorem witness_ReadISRStreamsThenClears : asserted.cfg.legal = true := cfg_legal.1
theorem witness_StatusAndMaskAreStoredAndMaskRead : asserted.cfg.legal = true := cfg_legal.1
theorem witness_LanControlDrivesInterrupt : asserted.cfg.legal = true ∧ ((0x00 : Byte), (0x00 : Byte)) = asserted.cfg.bm.lancntAssert
    ∧ ((0x02 : Byte), (0x01 : Byte)) ≠ asserted.cfg.bm.lancntAssert
    ∧ ((0x02 : Byte), (0x01 : Byte)) = asserted.cfg.bm.lancntClear
    ∧ ((0x01 : Byte), (0x01 : Byte)) ≠ asserted.cfg.bm.lancntAssert
    ∧ ((0x01 : Byte), (0x01 : Byte)) ≠ asserted.cfg.bm.lancntClear := by decide +kernel
theorem witness_UnhandledOpcodeIsSignalled : (Instr.bmUnhandled 0x04 0 0 0 0).wf start.cfg = true
    ∧ (Instr.bmUnhandled 0x00 0x01 0 0 0).wf start.cfg = true := by decide +kernel

/-- A selected BMSC at a position, with two latched bytes and a bit count. -/
def selected (pos : Nat) (x0 x1 : Byte) (bits : BitVec 3) : State :=
  { start with bmsc := { start.bmsc with cs := true, pos := pos, x0 := x0, x1 := x1, bitcnt := bits } }

theorem witness_UnselectedTransferChangesNothing : start.bmsc.cs = false := rfl
theorem witness_FrameSlotsLatchTheFrame : (selected 0 1 2 0).bmsc.cs = true ∧ (selected 0 1 2 0).bmsc.pos < 4
    ∧ (selected 3 0 0 0).bmsc.cs = true ∧ (selected 3 0 0 0).bmsc.pos < 4 := by decide +kernel
theorem witness_ClockPeriodShiftsOneBit : (selected 4 3 0 6).bmsc.cs = true ∧ (selected 4 3 0 6).bmsc.bitcnt ≠ 7
    ∧ (selected 4 3 0 6).cfg.bm.bitOrder = .msbFirst ∧ otherStart.cfg.bm.bitOrder = .lsbFirst := by decide +kernel
theorem witness_EightClockPeriodsMakeOneSlot : (selected 4 3 0 0).bmsc.cs = true ∧ (selected 4 3 0 0).bmsc.bitcnt = 0 := by
  decide +kernel
theorem witness_MnemonicIsItsBusOperations :
    encode start.cfg (.backupWrite 0xAB 0 0xB8 1) = .frame [0x02, 0xAB, 0x00, 0xB8, 0x00, 0x00] := rfl
theorem witness_ShortTransactionExecutesNothing : ([] : List Byte).length ≤ 4 ∧ ([2, 0xAB, 0, 0xB8] : List Byte).length ≤ 4 := by
  decide

/-- Two guest bytes at the end of a 32-bit space, the store's DMA offset at its last byte. -/
def dmaState : State := { start with bmsc := { start.bmsc with dmaOff := 0xFFFF } }

theorem witness_DmaWriteStoresGuestBytes : dmaState.cfg.legal = true ∧ dmaState.bmsc.inv dmaState.cfg = true
    ∧ guestRead [(0x10, 0x01), (0x11, 0x02)] 0x10 2 = some [0x01, 0x02] ∧ guestRead [] 0x10 0 = some []
    ∧ (0xFFFF + 0) % dmaState.cfg.bm.backupSize ≠ (0xFFFF + 1) % dmaState.cfg.bm.backupSize := by decide +kernel
theorem witness_DmaReadSendsStoreBytes : dmaState.cfg.legal = true ∧ dmaState.bmsc.inv dmaState.cfg = true
    ∧ (guestRead [(0x10, 0x01), (0x11, 0x02)] 0x10 2).isSome = true := by decide +kernel
theorem witness_PollCountsAndAutoClears : asserted.bmsc.irqPending = true ∧ start.bmsc.irqPending = false
    ∧ asserted.cfg.bm.irqPollLimit < 12 + 1 ∧ ¬asserted.cfg.bm.irqPollLimit < 11 + 1 := by decide +kernel
theorem witness_CountdownEndsAfterTheLimit : asserted.bmsc.irqPending = true ∧ asserted.bmsc.irqCount = 0 := by decide +kernel
theorem witness_PendingFlagChangesOnlyThere : start.cfg.legal = true ∧ (Instr.writeLANCNT 0 0 0xC4 0).wf start.cfg = true
    ∧ ends [.writeLANCNT 0 0 0xC4 0] start (fun t => t.bmsc.irqPending != start.bmsc.irqPending) = true := by decide +kernel
theorem witness_SerialOpcodesOutsideTheCommandPath : (Instr.siUnhandled 0x42 [0x01]).wf start.cfg = true := by decide +kernel
theorem witness_ReplyIsOneCallLate : start.cfg.codesDistinct = true := cfg_legal.2
theorem witness_ChunkStreamRunsInOrder : (∀ x ∈ [((0x40 : Byte), ([] : List Byte)), (0x31, List.replicate 255 0)], x.2.length ≤ 255)
    ∧ ([] : List Byte).length < (1 : Byte).toNat ∧ (List.replicate 254 (0 : Byte)).length < (0xFF : Byte).toNat := by
  decide +kernel
theorem witness_JvsChunkIsReceivedAndWrapped : start.cfg.codesDistinct = true ∧ (List.replicate 255 (0 : Byte)).length ≤ 255 := by
  decide +kernel
theorem witness_CardAndUnknownChunksOnlyLog : start.cfg.codesDistinct = true ∧ (List.replicate 255 (0 : Byte)).length ≤ 255
    ∧ (Instr.chUnhandled 0x55 (List.replicate 255 0)).wf start.cfg = true := by decide +kernel
theorem witness_DestuffUndoesStuff : start.cfg.jv.framingSound = true ∧ start.cfg.jv.sync = 0xE0 ∧ start.cfg.jv.mark = 0xD0 := by
  decide +kernel
theorem witness_ReceiverRecoversEncodedFrame : start.cfg.jv.framingSound = true ∧ (0x01 : Byte) ≠ start.cfg.jv.sync
    ∧ (0x01 : Byte) ≠ start.cfg.jv.mark ∧ (List.replicate 0xCE (0xE0 : Byte)).length ≤ 0xCE
    ∧ byteOf ((List.replicate 0xCE (0xE0 : Byte)).length + 1) ≠ start.cfg.jv.sync
    ∧ byteOf ((List.replicate 0xCE (0xE0 : Byte)).length + 1) ≠ start.cfg.jv.mark := by decide +kernel
theorem witness_WrongChecksumStillDispatches : start.cfg.jv.framingSound = true ∧ ([0x11] : List Byte).length ≤ 254
    ∧ (0xEB : Byte) ≠ jvsSum (byteOf (([0x11] : List Byte).length + 1)) 0x01 [0x11] := by decide +kernel
theorem witness_EncoderWritesTheFrame : (List.replicate 0xCE (0 : Byte)).length + 1 < 0xD0
    ∧ 0xD0 ≤ (List.replicate 0xCF (0 : Byte)).length + 1 := by decide +kernel
theorem witness_ReportOpcodesAnswerTheProfile : start.cfg.codesDistinct = true ∧ start.cfg.jv.framingSound = true :=
  ⟨cfg_legal.2, cfg_framing⟩
theorem witness_CoinInputCountsRisingEdges : otherStart.cfg.codesDistinct = true ∧ otherStart.cfg.jv.framingSound = true :=
  ⟨otherCfg_legal.2, otherCfg_framing⟩
theorem witness_HeldCoinCountsOnce : start.cfg.codesDistinct = true ∧ start.cfg.jv.framingSound = true ∧ 1 < start.cfg.jv.coinSlots := by decide +kernel
theorem witness_CoinAdjustmentsSaturate : start.cfg.codesDistinct = true ∧ start.cfg.jv.framingSound = true ∧ (3 : Byte) ≠ 0 ∧ start.cfg.jv.coinSlots < (3 : Byte).toNat
    ∧ ¬((1 : Byte) = 0 ∨ start.cfg.jv.coinSlots < (1 : Byte).toNat)
    ∧ ¬((2 : Byte) = 0 ∨ start.cfg.jv.coinSlots < (2 : Byte).toNat) := by decide +kernel
theorem witness_DriverOutputHandsBytesToProfile : start.cfg.codesDistinct = true ∧ start.cfg.jv.framingSound = true
    ∧ (Instr.jDriverOutput 1 []).wf start.cfg = true ∧ (Instr.jDriverOutput 1 (List.replicate 249 0)).wf start.cfg = true := by
  decide +kernel
theorem witness_VendorOpcodeAsksTheProfile : start.cfg.codesDistinct = true ∧ start.cfg.jv.framingSound = true
    ∧ (Instr.jNAMCO 1 []).wf start.cfg = true := by
  refine ⟨cfg_legal.2, cfg_framing, ?_⟩
  rw [Instr.wf, Bool.and_eq_true]
  refine ⟨?_, by decide +kernel⟩
  unfold namcoWhole
  split
  · rfl
  · simp
theorem witness_BusOpcodesSetAddressAndDipSwitch : start.cfg.codesDistinct = true ∧ start.cfg.jv.framingSound = true :=
  ⟨cfg_legal.2, cfg_framing⟩
theorem witness_UnknownJvsOpcodeStopsDispatch : start.cfg.codesDistinct = true ∧ start.cfg.jv.framingSound = true
    ∧ (Instr.jUnhandled 1 0x99 [0x12]).wf start.cfg = true := by decide +kernel
theorem witness_DispatchRunsGroupsInOrder : start.cfg.codesDistinct = true
    ∧ ∀ i ∈ [Instr.jCommandRev 1, .jDriverOutput 1 (List.replicate 255 0), .jCoinInput 1 2 noPad],
      isGroup 1 noPad i = true := by decide +kernel
theorem witness_CoinsChangeOnlyThere : start.cfg.codesDistinct = true ∧ start.cfg.jv.framingSound = true ∧ (Instr.jCoinAdd 1 1 0 1).wf start.cfg = true
    ∧ ends [.jCoinAdd 1 1 0 1] start (fun t => t.jvsc.coinCount != start.jvsc.coinCount) = true := by decide +kernel
theorem witness_MailboxAccessesAreBounded : start.mbmp.inv = true
    ∧ windowBase start.cfg .revised + 0xFF + ([1] : List Byte).length ≤ 0x300
    ∧ 0x300 < windowBase start.cfg .revised + 0x100 + ([1] : List Byte).length
    ∧ windowBase start.cfg .revised + 0xFE + 2 ≤ 0x300 ∧ 0x300 < windowBase start.cfg .revised + 0xFF + 2 := by decide +kernel
theorem witness_ExecuteStepAnswersTheWindow : otherStart.cfg.legal = true ∧ otherStart.mbmp.inv = true
    ∧ start.cfg.legal = true ∧ start.mbmp.inv = true ∧ start.cfg.mb.intLegacy = 0x10 ∧ start.cfg.mb.intRevised = 0x04 := by
  decide +kernel
theorem witness_SizeQueryAnswersTheMedium : start.cfg.legal = true ∧ start.mbmp.inv = true
    ∧ (List.replicate 30 (0 : Byte)).length = 30 ∧ start.cfg.mb.doneOff < 4 := by decide +kernel
theorem witness_OpenAndUnknownCommandsAnswer : otherStart.cfg.legal = true ∧ otherStart.cfg.codesDistinct = true
    ∧ otherStart.mbmp.inv = true ∧ (List.replicate 30 (0 : Byte)).length = 30 ∧ mbOpOf otherStart.cfg 0x0000 = none
    ∧ mbOpOf otherStart.cfg 0xFFFF = none := by decide +kernel
theorem witness_SocketCommandsAnswerTheOracle : start.cfg.legal = true ∧ start.cfg.codesDistinct = true
    ∧ start.mbmp.inv = true ∧ (List.replicate 30 (0 : Byte)).length = 30 := by decide +kernel

/-- `start` with a byte stored outside the legacy window. -/
def elsewhere : State := { start with mbmp := { start.mbmp with mb := mbSetByte start.mbmp.mb 0x40 5 } }

theorem witness_WindowsAreIndependent : start.cfg.legal = true ∧ elsewhere.cfg = start.cfg ∧ start.mbmp.inv = true
    ∧ elsewhere.mbmp.inv = true ∧ ∀ a, windowBase start.cfg .legacy ≤ a → a < windowBase start.cfg .legacy + 0x40 →
      mbByte start.mbmp.mb a = mbByte elsewhere.mbmp.mb a := by
  refine ⟨cfg_legal.1, rfl, by decide +kernel, by decide +kernel, fun a _ h => ?_⟩
  have h0 : windowBase start.cfg .legacy = 0 := rfl
  rw [show elsewhere.mbmp.mb = mbSetByte start.mbmp.mb 0x40 5 from rfl, mbByte_mbSetByte _ _ _ _ (by decide +kernel),
    if_neg (by omega)]
theorem witness_CheckByteIsLinear : start.cfg.bm.checkFn = .reduction := rfl
theorem witness_DispatchGoesOnOrStopsAfterGroups : start.cfg.codesDistinct = true
    ∧ (∀ i ∈ [Instr.jCommandRev 1, .jCoinInput 1 2 noPad], isGroup 1 noPad i = true)
    ∧ jopOf start.cfg 0x99 = none ∧ jopOf start.cfg 0x30 = some .coinSub
    ∧ argCount start.cfg .coinSub [1, 0] = some 3 ∧ ([1, 0] : List Byte).length < 3 := by decide +kernel
theorem witness_TypedAccessorKeepsByteLayout : (mbSetByte ⟨[]⟩ 0x2FF 5).wf (some 0) = true := by decide +kernel
theorem witness_EveryInstructionCompletes :
    ∃ k : Nat, k < 2 ∧ cellsLookup (0x2000 + k) [(0x2000, (0 : Byte))] = none := ⟨1, by decide, by decide⟩
theorem witness_BlocksShareNoState : ends [.writeISR 1 0 0 0] start (fun t => t.bmsc != start.bmsc) = true
    ∧ blockOf (.writeISR 1 0 0 0) = .bmsc := by decide +kernel
theorem witness_BackupStoreChangesOnlyThere : start.cfg.legal = true ∧ (Instr.backupWrite 0xAB 0 0xB8 0).wf start.cfg = true
    ∧ ends [.backupWrite 0xAB 0 0xB8 0] start (fun t => t.bmsc.bk != start.bmsc.bk) = true := by decide +kernel
theorem witness_StepRunsTheDecodedInstruction : start.cfg.legal = true ∧ start.pending = []
    ∧ decode start.cfg .pollInterrupt = .ok .pollInterrupt ∧ decode start.cfg (.frame []) = .error .shortFrame :=
  ⟨cfg_legal.1, rfl, rfl, rfl⟩
theorem witness_DecodeUndoesEncode : otherCfg.legal = true ∧ otherCfg.codesDistinct = true
    ∧ (Instr.backupOffsetSet 0xFFFF 0xFF 0).wf otherCfg = true
    ∧ (Instr.jDriverOutput 1 (List.replicate 249 0xFF)).wf otherCfg = true := by decide +kernel
theorem witness_EveryStepKeepsTheInvariant : start.inv = true ∧ dmaState.inv = true
    ∧ step { start with pending := [.pollInterrupt] } = .next (start.withBmsc start.bmsc (.bit false)) :=
  ⟨by decide +kernel, by decide +kernel, rfl⟩

end Sys2Proof.Tests
end

section
/-! One step of the machine under a legal configuration: an equation for each branch of `step`, and the statement that puts
them together. -/

namespace Sys2Proof.Machine

open Sys2Proof

section
variable {s : State} {r : Request} {rest : List Request}

/-- With nothing pending the blocks do nothing (R317). -/
theorem step_of_pending_nil (hl : s.cfg.legal = true) (hp : s.pending = []) : step s = .next s := by
  simp only [step, hp, hl, if_true]

/-- The oldest request leaves the queue before its instruction runs, so the instruction sees the requests behind it only. -/
theorem step_of_decode_ok {i : Instr} (hl : s.cfg.legal = true) (hp : s.pending = r :: rest)
    (hd : decode s.cfg r = .ok i) : step s = exec i { s with pending := rest } := by
  simp only [step, hp, hl, hd, if_true]

/-- The refusal names the decoder's reason (log entry 20). -/
theorem step_of_decode_error {e : DecodeError} (hl : s.cfg.legal = true) (hp : s.pending = r :: rest)
    (hd : decode s.cfg r = .error e) : step s = .refused (.malformedRequest e) := by
  simp only [step, hp, hl, hd, if_true]

end

/-- Settles O55: one equation of `step` for an empty queue, and one for each answer of the decoder to the oldest request. -/
theorem stepRunsTheDecodedInstruction : Obligations.StepRunsTheDecodedInstruction := by
  intro s r rest hl
  refine ⟨step_of_pending_nil hl, fun hp => ⟨?ok, ?error⟩⟩
  case ok => exact fun i hd => step_of_decode_ok hl hp hd
  case error => exact fun e hd => step_of_decode_error hl hp hd

end Sys2Proof.Machine
end

section
/-! What an instruction can do, said once: the operation it runs on the record of its own block. The statements about every
instruction are case analyses over these operations. -/

namespace Sys2Proof.Machine

open Sys2Proof

/-- What an instruction carried by the expansion bus does to the BMSC (R130 to R146, R165, R166, R306, R330). -/
inductive Bmsc.Runs (c : Cfg) (b : Bmsc) : Instr → Bmsc → Prop
  | transaction {i : Instr} {ins : List Byte} (h : encode c i = .frame ins) : Runs c b i (b.transaction c ins).2
  | chipSelect (level : Bool) : Runs c b (.setChipSelect level) (b.chipSelect level)
  | byteSlot (v : Byte) : Runs c b (.transferByte (.byte v)) (b.transferByte c v).2
  | clockPeriod (sdi : Bool) : Runs c b (.transferByte (.bit sdi)) (b.shiftBit c sdi).2
  | dmaWrite (addr len : Nat) (gm : List Host.Cell) (vs : List Byte) :
      Runs c b (.dmaWrite addr len gm) (b.seekDma.storeAll c vs)
  | dmaRead (addr len : Nat) (gm : List Host.Cell) : Runs c b (.dmaRead addr len gm) (b.seekDma.loadAll c addr len)
  | poll : Runs c b .pollInterrupt (b.poll c).2
  | reset : Runs c b (.reset .bmsc) (b.resetBlock c)

/-- What an instruction carried by the serial bus does to the JVSC (R200, R330). -/
inductive Jvsc.Runs (c : Cfg) (j : Jvsc) : Instr → Jvsc → Prop
  | call (i : Instr) (pad : PadStatus) (bytes : List Byte) : Runs c j i (j.runBuffer c pad bytes).2
  | reset : Runs c j (.reset .jvsc) (j.resetBlock c)

/-- What an instruction carried by the disc bus does to the MBMP (R271 to R274, R287, R330). -/
inductive Mbmp.Runs (c : Cfg) (m : Mbmp) : Instr → Mbmp → Prop
  | write (w : Window) (off : Nat) (bytes : List Byte) : Runs c m (.mbWrite w off bytes) (m.write c w off bytes)
  | read (w : Window) (off n : Nat) : Runs c m (.mbRead w off n) (m.read c w off n).2
  | execute (w : Window) (sock : Option (Vector Byte 28)) : Runs c m (.mbExecute w sock) (m.execute c w sock)
  | command (i : Instr) (w : Window) (inb : List Byte) (sock : Option (Vector Byte 28)) :
      Runs c m i ((m.write c w 0 inb).execute c w sock)
  | reset : Runs c m (.reset .mbmp) Mbmp.reset

/-- Everything an instruction that completes can have done to the machine: one operation on its own block's record, and the
value returned. -/
inductive State.Runs (s : State) (i : Instr) : State → Prop
  | bmsc {b : Bmsc} (r : Result) (block : blockOf i = .bmsc) (run : Bmsc.Runs s.cfg s.bmsc i b) : Runs s i (s.withBmsc b r)
  | jvsc {j : Jvsc} (r : Result) (block : blockOf i = .jvsc) (run : Jvsc.Runs s.cfg s.jvsc i j) : Runs s i (s.withJvsc j r)
  | mbmp {m : Mbmp} (r : Result) (block : blockOf i = .mbmp) (run : Mbmp.Runs s.cfg s.mbmp i m) : Runs s i (s.withMbmp m r)

section
variable {i : Instr} {s t : State}

theorem runs_of_frame {ins : List Byte} (block : blockOf i = .bmsc) (hi : encode s.cfg i = .frame ins)
    (h : exec i s = .next t) : s.Runs i t := by
  rw [exec_frame i ins s hi, runTransaction_next] at h
  exact next_inj h ▸ .bmsc _ block (.transaction hi)

theorem runs_of_serialCall {bytes : List Byte} {pad : PadStatus} (block : blockOf i = .jvsc)
    (h : serialCall bytes pad s = .next t) : s.Runs i t := by
  rw [serialCall_next] at h
  exact next_inj h ▸ .jvsc _ block (.call i pad bytes)

theorem runs_of_chunkCall {cop : Byte} {d : List Byte} {pad : PadStatus} (block : blockOf i = .jvsc)
    (h : chunkCall cop d pad s = .next t) : s.Runs i t := runs_of_serialCall block h

theorem runs_of_frameCall {node : Byte} {p : List Byte} {pad : PadStatus} (block : blockOf i = .jvsc)
    (h : frameCall node p pad s = .next t) : s.Runs i t := runs_of_chunkCall block h

theorem runs_of_mailboxCall {w : Window} {code : Word16} {rest : List Byte} {sock : Option (Vector Byte 28)}
    (block : blockOf i = .mbmp) (h : mailboxCall w code rest sock s = .next t) : s.Runs i t := by
  rw [mailboxCall_next] at h
  exact next_inj h ▸ .mbmp _ block (.command i w _ sock)

/-- An instruction that completes has run one operation of its own block (R318). -/
theorem runs_of_exec (h : exec i s = .next t) : s.Runs i t := by
  cases i
  case backupOffsetSet | backupWrite | backupRead | dmaOffsetLengthSet | readISR | writeISR | readIMR | writeIMR
      | writeLANCNT | serialID | bmUnhandled => exact runs_of_frame rfl rfl h
  case setChipSelect level => exact next_inj h ▸ .bmsc _ rfl (.chipSelect level)
  case transferByte io =>
    cases io with
    | byte v => exact next_inj h ▸ .bmsc _ rfl (.byteSlot v)
    | bit sdi => exact next_inj h ▸ .bmsc _ rfl (.clockPeriod sdi)
  case dmaWrite addr len gm =>
    rw [exec_dmaWrite, execDmaWrite] at h
    split at h
    · exact next_inj h ▸ .bmsc _ rfl (.dmaWrite addr len gm _)
    · cases h
  case dmaRead addr len gm =>
    rw [exec_dmaRead, execDmaRead] at h
    split at h
    · exact next_inj h ▸ .bmsc _ rfl (.dmaRead addr len gm)
    · cases h
  case pollInterrupt => exact next_inj h ▸ .bmsc _ rfl .poll
  case reset block =>
    cases block with
    | bmsc => exact next_inj h ▸ .bmsc _ rfl .reset
    | jvsc => exact next_inj h ▸ .jvsc _ rfl .reset
    | mbmp => exact next_inj h ▸ .mbmp _ rfl .reset
  case runBuffer bytes pad => exact runs_of_serialCall rfl (exec_runBuffer bytes pad s ▸ h)
  case siReset rest => exact runs_of_serialCall rfl (exec_siReset rest s ▸ h)
  case siCommand chunks pad => exact runs_of_serialCall rfl (exec_siCommand chunks pad s ▸ h)
  case siUnhandled op rest => exact runs_of_serialCall rfl (exec_siUnhandled op rest s ▸ h)
  case chJVS | chCard | chICCard | chUnhandled => exact runs_of_chunkCall rfl h
  case jBoardID | jCommandRev | jJVRev | jCommRev | jCapabilities | jSwitchInput | jCoinInput | jAnalogInput
      | jPositionInput | jCoinSub | jDriverOutput | jCoinAdd | jNAMCO | jReset | jSetAddress | jUnhandled =>
    exact runs_of_frameCall rfl h
  case mbWrite w off bytes => exact next_inj h ▸ .mbmp _ rfl (.write w off bytes)
  case mbRead w off n => exact next_inj h ▸ .mbmp _ rfl (.read w off n)
  case mbExecute w sock => exact next_inj h ▸ .mbmp _ rfl (.execute w sock)
  case mbGetDIMMSize | mbGetStatus | mbAccept | mbBind | mbConnect | mbInetAddr | mbListen | mbRecv | mbSend | mbSocket
      | mbSelect | mbSetSockOpt | mbSetTimeOuts | mbGetLastError | mbModifyMyIPaddr | mbSerialInit | mbUnhandled =>
    exact runs_of_mailboxCall rfl h

end

/-- Settles O53: the operation an instruction runs writes the record of the instruction's block, and nothing else but the
value returned. -/
theorem blocksShareNoState : Obligations.BlocksShareNoState := by
  intro i s t h
  cases runs_of_exec h with
  | bmsc r block run => exact ⟨rfl, rfl, fun hb => absurd block hb, fun _ => rfl, fun _ => rfl⟩
  | jvsc r block run => exact ⟨rfl, rfl, fun _ => rfl, fun hb => absurd block hb, fun _ => rfl⟩
  | mbmp r block run => exact ⟨rfl, rfl, fun _ => rfl, fun _ => rfl, fun hb => absurd block hb⟩

end Sys2Proof.Machine
end

section
/-! The bit-serial form of a slot (R146): a clock period moves the shift registers and the bit count, and the last of eight
runs the slot. No byte-level operation reads or writes these three (R34), so the slot can be taken out of the shifting. -/

namespace Sys2Proof.Machine

open Sys2Proof

/-- The state with the shift registers and the bit count replaced. -/
def Bmsc.withSerial (b : Bmsc) (rx tx : Byte) (k : BitVec 3) : Bmsc := { b with rxSr := rx, txSr := tx, bitcnt := k }

/-- The byte a clock period drives a bit of: the slot's own at the first period, what is left of it later (R146). -/
def Bmsc.driving (c : Cfg) (b : Bmsc) : Byte := if b.bitcnt = 0 then b.slotOut c else b.txSr

/-- The bits that `n` periods drive from a byte, in order. -/
def driven (o : BitOrder) (t : Byte) : Nat → List Bool
  | 0 => []
  | n + 1 => (shiftOut o t).1 :: driven o (shiftOut o t).2 n

/-- What `n` periods leave of a byte in the transmit register. -/
def undriven (o : BitOrder) (t : Byte) : Nat → Byte
  | 0 => t
  | n + 1 => undriven o (shiftOut o t).2 n

/-! ## The byte level does not see the shift registers (R34) -/

section
variable (c : Cfg) (b : Bmsc) (rx tx : Byte) (k : BitVec 3)

theorem Bmsc.latch_withSerial (v : Byte) : (b.withSerial rx tx k).latch v = (b.latch v).withSerial rx tx k := by
  unfold Bmsc.latch
  simp only [Bmsc.withSerial]
  split <;> rfl

theorem Bmsc.checkSlot_withSerial (v : Byte) :
    (b.withSerial rx tx k).checkSlot c v = (b.checkSlot c v).withSerial rx tx k := by
  simp only [Bmsc.checkSlot, apply_ite (Bmsc.withSerial · rx tx k)]
  rfl

theorem Bmsc.lanControl_withSerial : (b.withSerial rx tx k).lanControl c = (b.lanControl c).withSerial rx tx k := by
  simp only [Bmsc.lanControl, apply_ite (Bmsc.withSerial · rx tx k)]
  rfl

theorem cmdNext_withSerial : cmdNext c (b.withSerial rx tx k) = (cmdNext c b).withSerial rx tx k := by
  have hx : (b.withSerial rx tx k).x0 = b.x0 := rfl
  unfold cmdNext
  rw [hx]
  cases bmOpOf c b.x0 with
  | none =>
    simp only [bmUnhandledNext, apply_ite (Bmsc.withSerial · rx tx k)]
    rfl
  | some op =>
    cases op with
    | read | imrRead => rfl
    | lancntWrite =>
      simp only [writeLANCNTNext, apply_ite (Bmsc.withSerial · rx tx k), Bmsc.lanControl_withSerial]
      rfl
    | offsetSet | write | dmaSet | isrRead | isrWrite | imrWrite =>
      simp only [backupOffsetSetNext, backupWriteNext, dmaOffsetLengthSetNext, readISRNext, writeISRNext, writeIMRNext,
        apply_ite (Bmsc.withSerial · rx tx k)]
      rfl

theorem Bmsc.commandSlot_withSerial :
    (b.withSerial rx tx k).commandSlot c = (b.commandSlot c).withSerial rx tx k := by
  simp only [Bmsc.commandSlot, apply_ite (Bmsc.withSerial · rx tx k), cmdNext_withSerial]
  rfl

/-- A byte slot leaves the shift registers and the bit count, and does not depend on them. -/
theorem Bmsc.slotNext_withSerial (v : Byte) :
    (b.withSerial rx tx k).slotNext c v = (b.slotNext c v).withSerial rx tx k := by
  simp only [Bmsc.slotNext, Bmsc.latch_withSerial, Bmsc.checkSlot_withSerial, Bmsc.commandSlot_withSerial]
  rfl

end

/-! ## One clock period -/

section
variable {c : Cfg} {b : Bmsc}

theorem Bmsc.shiftBit_unselected (hcs : b.cs = false) (sdi : Bool) : b.shiftBit c sdi = (true, b) := by
  simp [Bmsc.shiftBit, hcs]

/-- A period before the eighth shifts both registers and counts. -/
theorem Bmsc.shiftBit_inside (hcs : b.cs = true) (hk : b.bitcnt ≠ 7) (sdi : Bool) :
    b.shiftBit c sdi = ((shiftOut c.bm.bitOrder (b.driving c)).1,
      b.withSerial (shiftIn c.bm.bitOrder b.rxSr sdi) (shiftOut c.bm.bitOrder (b.driving c)).2 (b.bitcnt + 1)) := by
  unfold Bmsc.shiftBit
  rw [if_pos hcs]
  exact if_neg hk

/-- The eighth period runs the slot with the byte received and starts a new count. -/
theorem Bmsc.shiftBit_last (hcs : b.cs = true) (hk : b.bitcnt = 7) (sdi : Bool) :
    b.shiftBit c sdi = ((shiftOut c.bm.bitOrder (b.driving c)).1,
      (b.slotNext c (shiftIn c.bm.bitOrder b.rxSr sdi)).withSerial (shiftIn c.bm.bitOrder b.rxSr sdi)
        (shiftOut c.bm.bitOrder (b.driving c)).2 0) := by
  rw [← Bmsc.slotNext_withSerial]
  unfold Bmsc.shiftBit
  rw [if_pos hcs]
  exact if_pos hk

/-- What a clock period leaves: the state before it or, of a selected slot, the state after the slot, but for the serial
registers. -/
theorem Bmsc.shiftBit_state (c : Cfg) (b : Bmsc) (sdi : Bool) : ∃ (rx tx : Byte) (k : BitVec 3),
    (b.shiftBit c sdi).2 = b.withSerial rx tx k
      ∨ b.cs = true ∧ ∃ v, (b.shiftBit c sdi).2 = (b.slotNext c v).withSerial rx tx k := by
  cases hcs : b.cs with
  | false => exact ⟨b.rxSr, b.txSr, b.bitcnt, .inl (by rw [Bmsc.shiftBit_unselected hcs]; rfl)⟩
  | true =>
    by_cases hk : b.bitcnt = 7
    · exact ⟨_, _, _, .inr ⟨rfl, _, by rw [Bmsc.shiftBit_last hcs hk]⟩⟩
    · exact ⟨_, _, _, .inl (by rw [Bmsc.shiftBit_inside hcs hk])⟩

/-! ## Eight clock periods -/

theorem bitcnt_add_one {k : BitVec 3} (hk : k ≠ 7) : (k + 1).toNat = k.toNat + 1 := by
  have hlt := k.isLt
  have hne : k.toNat ≠ 7 := fun h => hk (BitVec.eq_of_toNat_eq h)
  exact BitVec.toNat_add_of_lt (show k.toNat + 1 < 8 by omega)

/-- The periods that complete a byte drive what is left of the byte sent, and end in the slot of the byte that the bits
received complete. -/
theorem Bmsc.shiftBits_complete (bits : List Bool) (hcs : b.cs = true) (hn : b.bitcnt.toNat + bits.length = 8) :
    b.shiftBits c bits =
      (driven c.bm.bitOrder (b.driving c) bits.length,
        (b.slotNext c (bits.foldl (shiftIn c.bm.bitOrder) b.rxSr)).withSerial
          (bits.foldl (shiftIn c.bm.bitOrder) b.rxSr) (undriven c.bm.bitOrder (b.driving c) bits.length) 0) := by
  induction bits generalizing b with
  | nil =>
    have hlt := b.bitcnt.isLt
    simp only [List.length_nil] at hn
    omega
  | cons sdi bits ih =>
    rw [List.length_cons] at hn
    by_cases hk : b.bitcnt = 7
    · have h7 : b.bitcnt.toNat = 7 := by rw [hk]; rfl
      obtain rfl : bits = [] := List.length_eq_zero_iff.1 (by omega)
      rw [Bmsc.shiftBits, Bmsc.shiftBit_last hcs hk]
      rfl
    · have hcount := bitcnt_add_one hk
      have hdrv (rx tx : Byte) : (b.withSerial rx tx (b.bitcnt + 1)).driving c = tx :=
        if_neg fun h => Nat.succ_ne_zero _ (hcount.symm.trans (congrArg BitVec.toNat h))
      have hrest (rx tx : Byte) := ih (b := b.withSerial rx tx (b.bitcnt + 1)) hcs
        (show (b.bitcnt + 1).toNat + bits.length = 8 by omega)
      rw [Bmsc.shiftBits, Bmsc.shiftBit_inside hcs hk]
      simp only [hrest, hdrv, Bmsc.slotNext_withSerial]
      rfl

/-- The bits of a byte sent most or least significant first, one per period (R147). -/
theorem driven_eight (o : BitOrder) (t : Byte) : driven o t 8 = wireBits o t := by
  cases o <;> simp [driven, shiftOut, wireBits]

/-- Nothing is left of a byte after eight periods. -/
theorem undriven_eight (o : BitOrder) (t : Byte) : undriven o t 8 = 0 := by
  cases o with
  | msbFirst =>
    calc undriven .msbFirst t 8
      _ = t <<< 8 := by simp [undriven, shiftOut, ← BitVec.shiftLeft_add]
      _ = 0 := BitVec.shiftLeft_eq_zero (Nat.le_refl 8)
  | lsbFirst =>
    calc undriven .lsbFirst t 8
      _ = t >>> 8 := by simp [undriven, shiftOut, ← BitVec.shiftRight_add]
      _ = 0 := BitVec.ushiftRight_eq_zero (Nat.le_refl 8)

/-- Eight bits received replace whatever the receive register held. -/
theorem shiftIn_wireBits (o : BitOrder) (r v : Byte) : (wireBits o v).foldl (shiftIn o) r = v := by
  apply BitVec.eq_of_getLsbD_eq
  intro i hi
  cases o <;> interval_cases i <;> simp [wireBits, shiftIn]

/-- Eight periods from a bit count of zero are one slot (R149). -/
theorem Bmsc.shiftBits_wireBits (hcs : b.cs = true) (h0 : b.bitcnt = 0) (v : Byte) :
    b.shiftBits c (wireBits c.bm.bitOrder v) =
      (wireBits c.bm.bitOrder (b.slotOut c), (b.slotNext c v).withSerial v 0 0) := by
  have hlen : (wireBits c.bm.bitOrder v).length = 8 := by cases c.bm.bitOrder <;> rfl
  have hdrv : b.driving c = b.slotOut c := if_pos h0
  rw [Bmsc.shiftBits_complete _ hcs (by rw [h0, hlen]; rfl), hlen, hdrv, shiftIn_wireBits, driven_eight, undriven_eight]

end

/-- Settles O14: the byte form runs the slot on the same state, and eight periods from a bit count of zero run it with the
bits of the byte. -/
theorem eightClockPeriodsMakeOneSlot : Obligations.EightClockPeriodsMakeOneSlot := by
  intro v s hcs h0
  have hbyte : s.bmsc.transferByte s.cfg v = (s.bmsc.slotOut s.cfg, s.bmsc.slotNext s.cfg v) := if_pos hcs
  have hbit : (s.bmsc.slotNext s.cfg v).bitcnt = 0 := by
    have hs : s.bmsc.withSerial s.bmsc.rxSr s.bmsc.txSr 0 = s.bmsc := by rw [← h0]; rfl
    rw [← hs, Bmsc.slotNext_withSerial]
    rfl
  refine ⟨s.bmsc.slotOut s.cfg, s.withBmsc (s.bmsc.slotNext s.cfg v) (.byte (s.bmsc.slotOut s.cfg)), ?_, rfl, ?_, hbit⟩
  · rw [exec_transferByte, execTransferByte, hbyte]
  · rw [Bmsc.shiftBits_wireBits hcs h0]
    exact congrArg (fun k => (_, (s.bmsc.slotNext s.cfg v).withSerial v 0 k)) hbit.symm

end Sys2Proof.Machine
end

section
/-! Every BMSC operation keeps the BMSC invariant: one lemma per operation of Machine/Ops.lean, one per command's slot, then
the slot, the transaction and the bus operations built from them. -/

namespace Sys2Proof.Machine

open Sys2Proof

/-- `Bmsc.inv` as a proposition, a field per clause. -/
structure Bmsc.Inv (c : Cfg) (b : Bmsc) : Prop where
  cursor : b.cursor.toNat < c.bm.backupSize
  dmaOff : b.dmaOff.toNat < c.bm.backupSize
  count : b.irqCount ≤ c.bm.irqPollLimit + 1
  pending : b.irqPending = true → b.irqCount ≤ c.bm.irqPollLimit
  canonical : b.bk.wf none = true
  below : b.bk.below c.bm.backupSize = true

theorem Bmsc.inv_iff (c : Cfg) (b : Bmsc) : b.inv c = true ↔ b.Inv c := by
  simp only [Bmsc.inv, Bool.and_eq_true, decide_eq_true_eq]
  exact ⟨fun ⟨⟨⟨⟨⟨h1, h2⟩, h3⟩, h4⟩, h5⟩, h6⟩ => ⟨h1, h2, h3, h4, h5, h6⟩,
    fun ⟨h1, h2, h3, h4, h5, h6⟩ => ⟨⟨⟨⟨⟨h1, h2⟩, h3⟩, h4⟩, h5⟩, h6⟩⟩

/-- An offset taken modulo the size fits its 16 bits and lies inside the store (R11, U12). -/
theorem offset_lt_backupSize {c : Cfg} (hl : c.legal = true) (n : Nat) :
    (BitVec.ofNat 16 (n % c.bm.backupSize)).toNat < c.bm.backupSize := by
  obtain ⟨hpos, hle⟩ := Cfg.legal_backupSize hl
  have hlt := Nat.mod_lt n hpos
  rw [BitVec.toNat_ofNat, Nat.mod_eq_of_lt (by omega)]
  exact hlt

namespace Bmsc.Inv

variable {c : Cfg} {b b' : Bmsc}

/-- The invariant speaks of five registers; a state that has them as before keeps it. -/
theorem of_same (h : b.Inv c) (hcur : b'.cursor = b.cursor) (hoff : b'.dmaOff = b.dmaOff) (hcnt : b'.irqCount = b.irqCount)
    (hpend : b'.irqPending = b.irqPending) (hbk : b'.bk = b.bk) : b'.Inv c where
  cursor := hcur ▸ h.cursor
  dmaOff := hoff ▸ h.dmaOff
  count := hcnt ▸ h.count
  pending := hcnt ▸ hpend ▸ h.pending
  canonical := hbk ▸ h.canonical
  below := hbk ▸ h.below

theorem raise (h : b.Inv c) (e : BmEvent) : (b.raise e).Inv c := h.of_same rfl rfl rfl rfl rfl

theorem guestWrite (h : b.Inv c) (a : Nat) (v : Byte) : (b.guestWrite a v).Inv c := h.of_same rfl rfl rfl rfl rfl

theorem seek (hl : c.legal = true) (h : b.Inv c) (o : Word16) : (b.seek c o).Inv c :=
  { h with cursor := offset_lt_backupSize hl _ }

theorem advance (hl : c.legal = true) (h : b.Inv c) : (b.advance c).Inv c :=
  { h with cursor := offset_lt_backupSize hl _ }

theorem bkWrite (hl : c.legal = true) (h : b.Inv c) (a : Nat) (v : Byte) : (b.bkWrite c a v).Inv c :=
  { h with
    canonical := Memory.wf_write _ _ _ _ h.canonical
    below := Memory.below_write _ _ _ _ _ (Nat.mod_lt _ (Cfg.legal_backupSize hl).1) h.below }

theorem writeByte (hl : c.legal = true) (h : b.Inv c) (v : Byte) : (b.writeByte c v).Inv c :=
  (h.bkWrite hl _ v).advance hl

/-- Clearing the pending flag frees the count of its tighter bound (R30). -/
theorem clearPending (h : b.Inv c) (v : Byte) : Bmsc.Inv c { b with irqPending := false, isr := v } :=
  { h with pending := nofun }

theorem lanControl (h : b.Inv c) : (b.lanControl c).Inv c := by
  unfold Bmsc.lanControl
  split
  · exact { h with count := Nat.zero_le _, pending := fun _ => Nat.zero_le _ }
  · split
    · exact h.clearPending 0
    · exact h

/-- A command's part of a slot keeps the invariant, whatever command the opcode selects (R140 to R142). -/
theorem cmdNext (hl : c.legal = true) (h : b.Inv c) : (cmdNext c b).Inv c := by
  unfold Machine.cmdNext
  cases bmOpOf c b.x0 with
  | none =>
    simp only [bmUnhandledNext]
    split
    · exact h.raise _
    · exact h
  | some op =>
    cases op with
    | offsetSet =>
      simp only [backupOffsetSetNext]
      split
      · exact h.seek hl _
      · exact h
    | write =>
      simp only [backupWriteNext]
      split
      · exact h.writeByte hl _
      · exact h
    | read => exact h.advance hl
    | dmaSet =>
      simp only [dmaOffsetLengthSetNext]
      split
      · exact { h with dmaOff := offset_lt_backupSize hl _ }
      · exact h
    | isrRead =>
      simp only [readISRNext]
      split
      · exact h
      · exact h.clearPending 0
    | isrWrite =>
      simp only [writeISRNext]
      split
      · exact h.of_same rfl rfl rfl rfl rfl
      · exact h
    | imrRead => exact h
    | imrWrite =>
      simp only [writeIMRNext]
      split
      · exact h.of_same rfl rfl rfl rfl rfl
      · exact h
    | lancntWrite =>
      simp only [writeLANCNTNext]
      split
      · exact h.lanControl
      · exact h

theorem latch (h : b.Inv c) (v : Byte) : (b.latch v).Inv c := by
  unfold Bmsc.latch
  split <;> exact h.of_same rfl rfl rfl rfl rfl

theorem checkSlot (h : b.Inv c) (v : Byte) : (b.checkSlot c v).Inv c := by
  unfold Bmsc.checkSlot
  split
  · exact h.raise _
  · exact h

theorem commandSlot (hl : c.legal = true) (h : b.Inv c) : (b.commandSlot c).Inv c := by
  unfold Bmsc.commandSlot
  split
  · exact h.cmdNext hl
  · exact h

theorem slotNext (hl : c.legal = true) (h : b.Inv c) (v : Byte) : (b.slotNext c v).Inv c :=
  (((h.latch v).checkSlot v).commandSlot hl).of_same rfl rfl rfl rfl rfl

theorem transferByte (hl : c.legal = true) (h : b.Inv c) (v : Byte) : (b.transferByte c v).2.Inv c := by
  unfold Bmsc.transferByte
  split
  · exact h.slotNext hl v
  · exact h

theorem transferBytes (hl : c.legal = true) (h : b.Inv c) (ins : List Byte) : (b.transferBytes c ins).2.Inv c := by
  induction ins generalizing b with
  | nil => exact h
  | cons v vs ih => exact ih (h.transferByte hl v)

theorem chipSelect (h : b.Inv c) (level : Bool) : (b.chipSelect level).Inv c := by
  cases level <;> exact h.of_same rfl rfl rfl rfl rfl

theorem transaction (hl : c.legal = true) (h : b.Inv c) (ins : List Byte) : (b.transaction c ins).2.Inv c :=
  ((h.chipSelect true).transferBytes hl ins).chipSelect false

theorem withSerial (h : b.Inv c) (rx tx : Byte) (k : BitVec 3) : (b.withSerial rx tx k).Inv c :=
  h.of_same rfl rfl rfl rfl rfl

theorem shiftBit (hl : c.legal = true) (h : b.Inv c) (sdi : Bool) : (b.shiftBit c sdi).2.Inv c := by
  obtain ⟨rx, tx, k, hs | ⟨-, v, hs⟩⟩ := Bmsc.shiftBit_state c b sdi
  · exact hs ▸ h.withSerial rx tx k
  · exact hs ▸ (h.slotNext hl v).withSerial rx tx k

theorem seekDma (h : b.Inv c) : b.seekDma.Inv c := { h with cursor := h.dmaOff }

theorem storeAll (hl : c.legal = true) (h : b.Inv c) (vs : List Byte) : (b.storeAll c vs).Inv c := by
  induction vs generalizing b with
  | nil => exact h
  | cons v vs ih => exact ih (h.writeByte hl v)

theorem loadAll (hl : c.legal = true) (h : b.Inv c) (addr n : Nat) : (b.loadAll c addr n).Inv c := by
  induction n generalizing b addr with
  | zero => exact h
  | succ n ih => exact ih ((h.guestWrite addr _).advance hl) _

/-- A poll counts only while the flag is pending, and drops the flag at the count past the limit (R306). -/
theorem poll (h : b.Inv c) : (b.poll c).2.Inv c := by
  unfold Bmsc.poll
  split
  · next hp => exact { h with count := Nat.succ_le_succ (h.pending hp), pending := of_decide_eq_true }
  · exact h

/-- The reset table (R35) with any store that is in canonical form and inside its size. -/
theorem reset (hl : c.legal = true) {bk : Memory} (hwf : bk.wf none = true) (hb : bk.below c.bm.backupSize = true) :
    Bmsc.Inv c { Bmsc.reset c with bk := bk } where
  cursor := (Cfg.legal_backupSize hl).1
  dmaOff := (Cfg.legal_backupSize hl).1
  count := Nat.zero_le _
  pending := nofun
  canonical := hwf
  below := hb

/-- Whatever operation an instruction runs on the BMSC keeps the invariant. -/
theorem runs {i : Instr} (hl : c.legal = true) (h : b.Inv c) (run : Bmsc.Runs c b i b') : b'.Inv c := by
  cases run with
  | transaction _ => exact h.transaction hl _
  | chipSelect level => exact h.chipSelect level
  | byteSlot v => exact h.transferByte hl v
  | clockPeriod sdi => exact h.shiftBit hl sdi
  | dmaWrite addr len gm vs => exact h.seekDma.storeAll hl vs
  | dmaRead addr len gm => exact h.seekDma.loadAll hl addr len
  | poll => exact h.poll
  | reset => exact Bmsc.Inv.reset hl h.canonical h.below

end Bmsc.Inv

end Sys2Proof.Machine
end

section
/-! Every JVSC operation keeps the JVSC invariant. An opcode's rule is where a counter or a level changes; the receiver, the
encoder and the chunk stream only carry the dispatch. -/

namespace Sys2Proof.Machine

open Sys2Proof

/-- `Jvsc.inv` as a proposition, a field per clause. -/
structure Jvsc.Inv (c : Cfg) (j : Jvsc) : Prop where
  counters : j.coinCount.length = c.jv.coinSlots
  levels : j.coinPrev.length = c.jv.coinSlots
  coinMax : ∀ n ∈ j.coinCount, n ≤ c.jv.coinMax
  image : j.card.image.wf none = true
  pages : j.iccard.pages.wf none = true
  below : j.iccard.pages.below iccSize = true

theorem Jvsc.inv_iff (c : Cfg) (j : Jvsc) : j.inv c = true ↔ j.Inv c := by
  simp only [Jvsc.inv, Bool.and_eq_true, decide_eq_true_eq, List.all_eq_true]
  exact ⟨fun ⟨⟨⟨⟨⟨h1, h2⟩, h3⟩, h4⟩, h5⟩, h6⟩ => ⟨h1, h2, h3, h4, h5, h6⟩,
    fun ⟨h1, h2, h3, h4, h5, h6⟩ => ⟨⟨⟨⟨⟨h1, h2⟩, h3⟩, h4⟩, h5⟩, h6⟩⟩

/-- What every element of a list meets, every element meets after one of them is modified by a function that keeps it. -/
theorem forall_mem_modify {α : Type} {p : α → Prop} {f : α → α} {l : List α} (k : Nat) (h : ∀ x ∈ l, p x)
    (hf : ∀ x, p x → p (f x)) : ∀ x ∈ l.modify k f, p x := by
  intro x hx
  obtain ⟨n, hn⟩ := List.mem_iff_getElem?.1 hx
  rw [List.getElem?_modify] at hn
  obtain ⟨y, hy, rfl⟩ := Option.map_eq_some_iff.1 hn
  have hp := h y (List.mem_of_getElem? hy)
  split
  · exact hf y hp
  · exact hp

/-- A slot's counter after a poll stays in its range (R42, R239); a missing entry reads 0. -/
theorem coinAfter_le {c : Cfg} {j : Jvsc} (h : ∀ n ∈ j.coinCount, n ≤ c.jv.coinMax) (pad : PadStatus) (s : Nat) :
    coinAfter c pad j s ≤ c.jv.coinMax := by
  have hs : j.coinCount.getD s 0 ≤ c.jv.coinMax := by
    rw [List.getD_eq_getElem?_getD]
    cases hn : j.coinCount[s]? with
    | none => exact Nat.zero_le _
    | some n => exact h n (List.mem_of_getElem? hn)
  unfold coinAfter
  simp only
  split <;> omega

namespace Jvsc.Inv

variable {c : Cfg} {j j' : Jvsc}

/-- The invariant speaks of the counters, the levels and the two card states; a state that has them as before keeps it. -/
theorem of_same (h : j.Inv c) (hcount : j'.coinCount = j.coinCount) (hprev : j'.coinPrev = j.coinPrev)
    (hcard : j'.card = j.card) (hic : j'.iccard = j.iccard) : j'.Inv c where
  counters := hcount ▸ h.counters
  levels := hprev ▸ h.levels
  coinMax := hcount ▸ h.coinMax
  image := hcard ▸ h.image
  pages := hic ▸ h.pages
  below := hic ▸ h.below

theorem raise (h : j.Inv c) (e : JvEvent) : (j.raise e).Inv c := h.of_same rfl rfl rfl rfl

theorem report (h : j.Inv c) (data : List Byte) : (j.report c data).Inv c := h.of_same rfl rfl rfl rfl

theorem setRx (h : j.Inv c) (x : Rx) : Jvsc.Inv c { j with rx := x } := h.of_same rfl rfl rfl rfl

theorem setRp (h : j.Inv c) (p : List Byte) : Jvsc.Inv c { j with rp := p } := h.of_same rfl rfl rfl rfl

theorem setCur (h : j.Inv c) (l : List Byte) : Jvsc.Inv c { j with cur := l } := h.of_same rfl rfl rfl rfl

theorem sampleCoins (h : j.Inv c) (pad : PadStatus) : (j.sampleCoins c pad).Inv c :=
  { h with
    counters := by simp
    levels := by simp
    coinMax := by
      intro n hn
      obtain ⟨s, -, rfl⟩ := List.mem_map.1 hn
      exact coinAfter_le h.coinMax pad s }

theorem coinUpdate (h : j.Inv c) (slot : Byte) {f : Nat → Nat} (hf : ∀ n, n ≤ c.jv.coinMax → f n ≤ c.jv.coinMax) :
    (j.coinUpdate c slot f).Inv c := by
  unfold Jvsc.coinUpdate
  split
  · exact h.raise _
  · exact { h with
      counters := (List.length_modify _ _ _).trans h.counters
      coinMax := forall_mem_modify _ h.coinMax hf }

/-- The rule of any decoded opcode keeps the invariant (R231 to R248). -/
theorem runGroup (h : j.Inv c) (i : Instr) : (runGroup c i j).Inv c := by
  cases i
  case jCoinInput node slots pad => exact (h.sampleCoins pad).report _
  case jCoinSub node slot hi lo => exact (h.coinUpdate slot fun n hn => by omega).report _
  case jCoinAdd node slot hi lo => exact (h.coinUpdate slot fun n _ => Nat.min_le_left _ _).report _
  case jNAMCO node tail =>
    simp only [Machine.runGroup, ruleNAMCO]
    split
    · split
      · exact h.raise _
      · exact h.report _
    · exact h.raise _
  case jReset node magic =>
    simp only [Machine.runGroup, ruleReset]
    split <;> exact h.of_same rfl rfl rfl rfl
  all_goals exact h.of_same rfl rfl rfl rfl

theorem dispatchLoop (h : j.Inv c) (node : Byte) (pad : PadStatus) (n : Nat) (l : List Byte) :
    (dispatchLoop c node pad n l j).Inv c := by
  induction n generalizing l j with
  | zero => exact h
  | succ n ih =>
    cases l with
    | nil => exact h
    | cons jop tail =>
      simp only [Machine.dispatchLoop]
      split
      · exact h.runGroup _
      · exact h.raise _
      · exact ih (h.runGroup _) _

theorem dispatch (h : j.Inv c) (node : Byte) (buf : List Byte) (pad : PadStatus) : (j.dispatch c node buf pad).Inv c :=
  (h.setRp _).dispatchLoop node pad _ buf

theorem encode (h : j.Inv c) (node : Byte) (p : List Byte) : (j.encode c node p).2.Inv c := by
  rw [Jvsc.encode_frame]
  exact h.of_same rfl rfl rfl rfl

theorem frameDone (h : j.Inv c) (pad : PadStatus) (v : Byte) : (j.frameDone c pad v).2.Inv c := by
  refine encode (dispatch ?_ _ _ _) _ _
  split <;> exact h.of_same rfl rfl rfl rfl

theorem rxValue (h : j.Inv c) (pad : PadStatus) (v : Byte) : (j.rxValue c pad v).2.Inv c := by
  unfold Jvsc.rxValue
  split
  case h_3 =>
    simp only
    split <;> exact h.of_same rfl rfl rfl rfl
  case h_5 => exact h.frameDone pad v
  all_goals exact h.of_same rfl rfl rfl rfl

theorem rxByte (h : j.Inv c) (pad : PadStatus) (r : Byte) : (j.rxByte c pad r).2.Inv c := by
  unfold Jvsc.rxByte
  split
  · simp only
    split <;> exact h.of_same rfl rfl rfl rfl
  · split
    · exact h
    · split
      · exact h.of_same rfl rfl rfl rfl
      · exact (h.setRx _).rxValue pad _

theorem rxBytes (h : j.Inv c) (pad : PadStatus) (l : List Byte) : (j.rxBytes c pad l).2.Inv c := by
  induction l generalizing j with
  | nil => exact h
  | cons r rs ih => exact ih (h.rxByte pad r)

theorem rxChunk (h : j.Inv c) (pad : PadStatus) (d : List Byte) : (j.rxChunk c pad d).2.Inv c := by
  have hr := (h.setRx Rx.start).rxBytes pad d
  unfold Jvsc.rxChunk
  simp only
  split
  · exact hr
  · exact hr.raise _

theorem appendChunk (h : j.Inv c) (cop : Byte) (r : List Byte) : (j.appendChunk cop r).Inv c := by
  rw [Jvsc.appendChunk_frame]
  exact h.of_same rfl rfl rfl rfl

theorem runChunk (h : j.Inv c) (pad : PadStatus) (cop : Byte) (d : List Byte) : (runChunk c pad cop d j).Inv c := by
  unfold Machine.runChunk
  split
  · exact (h.rxChunk pad d).appendChunk cop _
  · exact (h.raise _).appendChunk cop _
  · exact (h.raise _).appendChunk cop _
  · exact h.raise _

theorem chunkLoop (h : j.Inv c) (pad : PadStatus) (k : Nat) (l : List Byte) : (chunkLoop c pad k l j).Inv c := by
  induction k generalizing l j with
  | zero => exact h
  | succ k ih =>
    match l with
    | [] => exact h
    | [cop] => exact h.raise _
    | cop :: n :: rest =>
      simp only [Machine.chunkLoop]
      split
      · exact h.raise _
      · exact ih (h.runChunk pad cop _) _

theorem siCommand (h : j.Inv c) (pad : PadStatus) (chunks : List Byte) : (j.siCommand c pad chunks).2.Inv c :=
  ((h.setCur []).chunkLoop pad chunks.length chunks).of_same rfl rfl rfl rfl

theorem runBuffer (h : j.Inv c) (pad : PadStatus) (bytes : List Byte) : (j.runBuffer c pad bytes).2.Inv c := by
  cases bytes with
  | nil => exact h
  | cons op rest =>
    simp only [Jvsc.runBuffer]
    split
    · exact h
    · split
      · exact h.siCommand pad rest
      · exact h.raise _

/-- The reset table (R49) with any card images that are in canonical form, the pages inside their 2048 bytes. -/
theorem reset {image pages : Memory} (hi : image.wf none = true) (hp : pages.wf none = true)
    (hb : pages.below iccSize = true) :
    Jvsc.Inv c { Jvsc.reset c with card := { CardState.reset with image := image }
                                   iccard := { ICCardState.reset with pages := pages } } where
  counters := List.length_replicate
  levels := List.length_replicate
  coinMax := fun _ hn => (List.eq_of_mem_replicate hn).trans_le (Nat.zero_le _)
  image := hi
  pages := hp
  below := hb

/-- Whatever operation an instruction runs on the JVSC keeps the invariant. -/
theorem runs {i : Instr} (h : j.Inv c) (run : Jvsc.Runs c j i j') : j'.Inv c := by
  cases run with
  | call i pad bytes => exact h.runBuffer pad bytes
  | reset => exact Jvsc.Inv.reset h.image h.pages h.below

end Jvsc.Inv

end Sys2Proof.Machine
end

section
/-! Every MBMP operation keeps the MBMP invariant: what is written lies inside the record, by the bounds check of a write and
by the windows' place under a legal configuration. -/

namespace Sys2Proof.Machine

open Sys2Proof

theorem Mbmp.inv_iff (m : Mbmp) : m.inv = true ↔ m.mb.wf (some 0) = true ∧ m.mb.below mailboxSize = true := by
  rw [Mbmp.inv, Bool.and_eq_true]

/-- Bytes written inside the record keep the invariant, whatever else the state holds. -/
theorem Mbmp.inv_of_mbWriteBytes {m m' : Mbmp} (h : m.inv = true) {a : Nat} {l : List Byte}
    (hm : m'.mb = mbWriteBytes m.mb a l) (hl : a + l.length ≤ mailboxSize) : m'.inv = true := by
  obtain ⟨hwf, hbelow⟩ := (Mbmp.inv_iff m).1 h
  rw [Mbmp.inv_iff, hm]
  exact ⟨mbWriteBytes_wf _ _ _ hwf, mbWriteBytes_below _ _ _ _ hl hbelow⟩

/-- A write that passes the end changes the log alone (R272); any other stays inside the record. -/
theorem Mbmp.inv_write (c : Cfg) {m : Mbmp} (h : m.inv = true) (w : Window) (off : Nat) (bytes : List Byte) :
    (m.write c w off bytes).inv = true := by
  unfold Mbmp.write
  split
  · exact h
  · next hp =>
    simp only [passesEnd, decide_eq_true_eq, Nat.not_lt] at hp
    exact Mbmp.inv_of_mbWriteBytes h rfl hp

theorem Mbmp.inv_read (c : Cfg) {m : Mbmp} (h : m.inv = true) (w : Window) (off n : Nat) :
    (m.read c w off n).2.inv = true := by
  unfold Mbmp.read
  split <;> exact h

/-- The execute step writes its window's two regions, which a legal configuration puts inside the record (R288). -/
theorem Mbmp.inv_execute {c : Cfg} (hl : c.legal = true) {m : Mbmp} (h : m.inv = true) (w : Window)
    (sock : Option (Vector Byte 28)) : (m.execute c w sock).inv = true := by
  obtain ⟨hwin, -, -⟩ := windowBase_legal hl w
  let inb := mbReadBytes m.mb (inBase c w) regionSize
  let result := (mbResultOf c (codeOf c inb) inb sock).1
  have hlen : (outboundBytes c inb result).length = 32 :=
    outboundBytes_length c inb result (mbReadBytes_length _ _ _) (mbResultOf_length _ _ _ _)
  have hout : Mbmp.inv { m with mb := mbWriteBytes m.mb (outBase c w) (outboundBytes c inb result) } = true :=
    Mbmp.inv_of_mbWriteBytes h rfl (by rw [hlen, outBase_eq]; omega)
  exact Mbmp.inv_of_mbWriteBytes hout (a := inBase c w) (l := List.replicate regionSize 0) rfl
    (by rw [List.length_replicate, inBase_eq, regionSize]; omega)

theorem Mbmp.inv_reset : Mbmp.reset.inv = true := rfl

/-- Whatever operation an instruction runs on the MBMP keeps the invariant. -/
theorem Mbmp.inv_runs {c : Cfg} (hl : c.legal = true) {m m' : Mbmp} {i : Instr} (h : m.inv = true)
    (run : Mbmp.Runs c m i m') : m'.inv = true := by
  cases run with
  | write w off bytes => exact Mbmp.inv_write c h w off bytes
  | read w off n => exact Mbmp.inv_read c h w off n
  | execute w sock => exact Mbmp.inv_execute hl h w sock
  | command i w inb sock => exact Mbmp.inv_execute hl (Mbmp.inv_write c h w 0 inb) w sock
  | reset => exact Mbmp.inv_reset

end Sys2Proof.Machine
end

section
/-! The invariant of the machine: it holds at reset, and every step keeps it. -/

namespace Sys2Proof.Machine

open Sys2Proof

/-- `State.inv` as a proposition, a field per block. -/
structure State.Inv (s : State) : Prop where
  legal : s.cfg.legal = true
  bmsc : s.bmsc.Inv s.cfg
  jvsc : s.jvsc.Inv s.cfg
  mbmp : s.mbmp.inv = true

theorem State.inv_iff (s : State) : s.inv = true ↔ s.Inv := by
  simp only [State.inv, Bool.and_eq_true, Bmsc.inv_iff, Jvsc.inv_iff]
  exact ⟨fun ⟨⟨⟨h1, h2⟩, h3⟩, h4⟩ => ⟨h1, h2, h3, h4⟩, fun ⟨h1, h2, h3, h4⟩ => ⟨⟨⟨h1, h2⟩, h3⟩, h4⟩⟩

/-- An instruction that completes keeps the invariant: it runs one operation, on its own block. -/
theorem State.Inv.exec {s t : State} {i : Instr} (h : s.Inv) (he : exec i s = .next t) : t.Inv := by
  cases runs_of_exec he with
  | bmsc r block run => exact { h with bmsc := h.bmsc.runs h.legal run }
  | jvsc r block run => exact { h with jvsc := h.jvsc.runs run }
  | mbmp r block run => exact { h with mbmp := Mbmp.inv_runs h.legal h.mbmp run }

/-- Settles O59: with nothing pending a step changes nothing, and otherwise it completes only by running the decoded
instruction, which keeps the invariant. -/
theorem everyStepKeepsTheInvariant : Obligations.EveryStepKeepsTheInvariant := by
  intro s t hs hstep
  rw [State.inv_iff] at hs ⊢
  cases hp : s.pending with
  | nil =>
    rw [step_of_pending_nil hs.legal hp] at hstep
    exact next_inj hstep ▸ hs
  | cons r rest =>
    cases hd : decode s.cfg r with
    | ok i =>
      rw [step_of_decode_ok hs.legal hp hd] at hstep
      have hq : State.Inv { s with pending := rest } := { hs with }
      exact hq.exec hstep
    | error e =>
      rw [step_of_decode_error hs.legal hp hd] at hstep
      cases hstep

theorem Cfg.default_legal : Cfg.default.legal = true := by decide

/-- Settles O58: the default configuration is legal, and each block's reset table meets the block's invariant with nothing
stored. -/
theorem invariantHoldsAtReset : Obligations.InvariantHoldsAtReset :=
  (State.inv_iff State.reset).2
    { legal := Cfg.default_legal
      bmsc := Bmsc.Inv.reset Cfg.default_legal rfl rfl
      jvsc := Jvsc.Inv.reset rfl rfl rfl
      mbmp := Mbmp.inv_reset }

end Sys2Proof.Machine
end

section
/-! Where the backup store can change: a byte slot stores only as slot 4 of the write command, and a transaction keeps the
opcode its first slot latched. -/

namespace Sys2Proof.Machine

open Sys2Proof

section
variable {c : Cfg} {b : Bmsc}

/-- The write command's opcode is the only one that selects the write command (R103). -/
theorem eq_opWrite_of_bmOpOf {x : Byte} (h : bmOpOf c x = some .write) : x = c.bm.opWrite := by
  have hm := mem_of_lookup _ _ _ h
  simpa [bmTable] using hm

/-- An opcode that selects another command, or none, is not the write command's. -/
theorem ne_opWrite_of_bmOpOf (hl : c.legal = true) {x : Byte} (h : bmOpOf c x ≠ some .write) : x ≠ c.bm.opWrite := by
  rintro rfl
  exact h (bmOpOf_opWrite hl)

theorem Bmsc.latch_bk (b : Bmsc) (v : Byte) : (b.latch v).bk = b.bk := by
  unfold Bmsc.latch
  split <;> rfl

/-- Only slot 0 latches the opcode (R133). -/
theorem Bmsc.latch_x0 (b : Bmsc) (v : Byte) : (b.latch v).x0 = if b.pos = 0 then v else b.x0 := by
  unfold Bmsc.latch
  split <;> simp_all

theorem Bmsc.latch_pos (b : Bmsc) (v : Byte) : (b.latch v).pos = b.pos := by
  unfold Bmsc.latch
  split <;> rfl

/-- The check of slot 3 changes the log alone (R138). -/
theorem Bmsc.checkSlot_frame (c : Cfg) (b : Bmsc) (v : Byte) :
    b.checkSlot c v = { b with log := (b.checkSlot c v).log } := by
  unfold Bmsc.checkSlot
  split <;> rfl

/-- The LAN-control write leaves the frame and the store (R185). -/
theorem Bmsc.lanControl_frame (c : Cfg) (b : Bmsc) :
    b.lanControl c = { b with irqPending := (b.lanControl c).irqPending, irqCount := (b.lanControl c).irqCount,
                              isr := (b.lanControl c).isr } := by
  unfold Bmsc.lanControl
  split
  · rfl
  · split <;> rfl

/-- A command's slot leaves the latched frame, and the store but in slot 4 of the write command (R161, R164). -/
theorem cmdNext_x0_bk (c : Cfg) (b : Bmsc) :
    (cmdNext c b).x0 = b.x0 ∧ (¬(b.pos = 4 ∧ b.x0 = c.bm.opWrite) → (cmdNext c b).bk = b.bk) := by
  unfold cmdNext
  cases ho : bmOpOf c b.x0 with
  | none =>
    simp only [bmUnhandledNext]
    split <;> exact ⟨rfl, fun _ => rfl⟩
  | some op =>
    cases op with
    | write =>
      simp only [backupWriteNext]
      split
      · next hp => exact ⟨rfl, fun hn => absurd ⟨hp, eq_opWrite_of_bmOpOf ho⟩ hn⟩
      · exact ⟨rfl, fun _ => rfl⟩
    | read | imrRead => exact ⟨rfl, fun _ => rfl⟩
    | lancntWrite =>
      simp only [writeLANCNTNext]
      rw [Bmsc.lanControl_frame]
      split <;> exact ⟨rfl, fun _ => rfl⟩
    | offsetSet | dmaSet | isrRead | isrWrite | imrWrite =>
      simp only [backupOffsetSetNext, dmaOffsetLengthSetNext, readISRNext, writeISRNext, writeIMRNext]
      split <;> exact ⟨rfl, fun _ => rfl⟩

theorem Bmsc.commandSlot_x0_bk (c : Cfg) (b : Bmsc) :
    (b.commandSlot c).x0 = b.x0 ∧ (¬(b.pos = 4 ∧ b.x0 = c.bm.opWrite) → (b.commandSlot c).bk = b.bk) := by
  unfold Bmsc.commandSlot
  split
  · exact cmdNext_x0_bk c b
  · exact ⟨rfl, fun _ => rfl⟩

/-- What a byte slot leaves of the opcode: slot 0 latches it, every later slot keeps it. -/
theorem Bmsc.slotNext_x0 (c : Cfg) (b : Bmsc) (v : Byte) : (b.slotNext c v).x0 = if b.pos = 0 then v else b.x0 :=
  calc (b.slotNext c v).x0
    _ = ((b.latch v).checkSlot c v).x0 := (Bmsc.commandSlot_x0_bk c _).1
    _ = (b.latch v).x0 := by rw [Bmsc.checkSlot_frame]
    _ = if b.pos = 0 then v else b.x0 := Bmsc.latch_x0 b v

/-- A byte slot stores only as slot 4 of the write command (R161). -/
theorem Bmsc.slotNext_bk (h : ¬(b.pos = 4 ∧ b.x0 = c.bm.opWrite)) (v : Byte) : (b.slotNext c v).bk = b.bk := by
  have hcheck : (b.latch v).checkSlot c v = { b.latch v with log := ((b.latch v).checkSlot c v).log } :=
    Bmsc.checkSlot_frame c _ v
  have hcmd : ¬(((b.latch v).checkSlot c v).pos = 4 ∧ ((b.latch v).checkSlot c v).x0 = c.bm.opWrite) := by
    rw [hcheck]
    simp only [Bmsc.latch_pos, Bmsc.latch_x0]
    rintro ⟨hp, hx⟩
    exact h ⟨hp, by simpa [hp] using hx⟩
  calc (b.slotNext c v).bk
    _ = ((b.latch v).checkSlot c v).bk := (Bmsc.commandSlot_x0_bk c _).2 hcmd
    _ = (b.latch v).bk := by rw [hcheck]
    _ = b.bk := Bmsc.latch_bk b v

/-- A byte slot that changes the store is the selected write command's slot 4. -/
theorem Bmsc.transferByte_bk {v : Byte} (h : (b.transferByte c v).2.bk ≠ b.bk) :
    b.cs = true ∧ b.pos = 4 ∧ b.x0 = c.bm.opWrite := by
  unfold Bmsc.transferByte at h
  split at h
  · next hcs => exact ⟨hcs, not_not.1 fun hn => h (Bmsc.slotNext_bk hn v)⟩
  · exact absurd rfl h

/-- A clock period that changes the store is the last of the selected write command's slot 4. -/
theorem Bmsc.shiftBit_bk {sdi : Bool} (h : (b.shiftBit c sdi).2.bk ≠ b.bk) :
    b.cs = true ∧ b.pos = 4 ∧ b.x0 = c.bm.opWrite := by
  obtain ⟨rx, tx, k, hs | ⟨hcs, v, hs⟩⟩ := Bmsc.shiftBit_state c b sdi
  · exact absurd (congrArg Bmsc.bk hs) h
  · exact ⟨hcs, not_not.1 fun hn => h ((congrArg Bmsc.bk hs).trans (Bmsc.slotNext_bk hn v))⟩

/-- The slots behind slot 0 store nothing where the latched opcode is not the write command's. -/
theorem Bmsc.transferBytes_bk (hp : b.pos ≠ 0) (hx : b.x0 ≠ c.bm.opWrite) (ins : List Byte) :
    (b.transferBytes c ins).2.bk = b.bk := by
  induction ins generalizing b with
  | nil => rfl
  | cons v vs ih =>
    have hbk : (b.transferByte c v).2.bk = b.bk := not_not.1 fun hn => hx (Bmsc.transferByte_bk hn).2.2
    have hrest : (b.transferByte c v).2.pos ≠ 0 ∧ (b.transferByte c v).2.x0 ≠ c.bm.opWrite := by
      unfold Bmsc.transferByte
      split
      · exact ⟨Nat.succ_ne_zero b.pos, by rwa [Bmsc.slotNext_x0, if_neg hp]⟩
      · exact ⟨hp, hx⟩
    exact (ih hrest.1 hrest.2).trans hbk

/-- A transaction whose opcode is not the write command's leaves the store. -/
theorem Bmsc.transaction_bk (b : Bmsc) {op : Byte} (hop : op ≠ c.bm.opWrite) (rest : List Byte) :
    (b.transaction c (op :: rest)).2.bk = b.bk := by
  have hx : ((b.chipSelect true).slotNext c op).x0 = op := Bmsc.slotNext_x0 c _ op
  calc (b.transaction c (op :: rest)).2.bk
    _ = (((b.chipSelect true).slotNext c op).transferBytes c rest).2.bk := rfl
    _ = ((b.chipSelect true).slotNext c op).bk := Bmsc.transferBytes_bk Nat.one_ne_zero (hx ▸ hop) rest
    _ = (b.chipSelect true).bk := Bmsc.slotNext_bk (by simp [Bmsc.chipSelect]) op

theorem Bmsc.loadAll_bk (c : Cfg) (b : Bmsc) (addr n : Nat) : (b.loadAll c addr n).bk = b.bk := by
  induction n generalizing b addr with
  | zero => rfl
  | succ n ih => exact ih _ _

theorem Bmsc.poll_bk (c : Cfg) (b : Bmsc) : (b.poll c).2.bk = b.bk := by
  unfold Bmsc.poll
  split <;> rfl

/-- A well-formed instruction that is a frame, and not the write command, starts with another opcode: ID mode's zero (R104),
another command's, or one outside the map. -/
theorem frame_opcode_ne_opWrite {i : Instr} {ins : List Byte} (hl : c.legal = true) (hwf : i.wf c = true)
    (he : encode c i = .frame ins) (hi : ∀ d u2 chk n, i ≠ .backupWrite d u2 chk n) :
    ∃ op rest, ins = op :: rest ∧ op ≠ c.bm.opWrite := by
  cases i <;> simp only [encode, Request.frame.injEq, reduceCtorEq] at he <;> subst he <;> refine ⟨_, _, rfl, ?_⟩
  case backupWrite d u2 chk n => exact absurd rfl (hi d u2 chk n)
  case serialID => exact (opWrite_ne_zero hl).symm
  case bmUnhandled op p1 p2 chk n =>
    have hnone : bmOpOf c op = none := by
      simp only [Instr.wf, Bool.and_eq_true, decide_eq_true_eq] at hwf
      exact hwf.1
    exact ne_opWrite_of_bmOpOf hl (by simp [hnone])
  case backupOffsetSet => exact ne_opWrite_of_bmOpOf hl (by simp [bmOpOf_opOffsetSet hl])
  case backupRead => exact ne_opWrite_of_bmOpOf hl (by simp [bmOpOf_opRead hl])
  case dmaOffsetLengthSet => exact ne_opWrite_of_bmOpOf hl (by simp [bmOpOf_opDmaSet hl])
  case readISR => exact ne_opWrite_of_bmOpOf hl (by simp [bmOpOf_opIsrRead hl])
  case writeISR => exact ne_opWrite_of_bmOpOf hl (by simp [bmOpOf_opIsrWrite hl])
  case readIMR => exact ne_opWrite_of_bmOpOf hl (by simp [bmOpOf_opImrRead hl])
  case writeIMR => exact ne_opWrite_of_bmOpOf hl (by simp [bmOpOf_opImrWrite hl])
  case writeLANCNT => exact ne_opWrite_of_bmOpOf hl (by simp [bmOpOf_opLancntWrite hl])

end

/-- Settles O54: of the operations of the BMSC, a transaction stores only for the write command, a byte slot or clock period
only in the write command's slot 4, and of the others only `dmaWrite` stores; the other blocks do not reach the store. -/
theorem backupStoreChangesOnlyThere : Obligations.BackupStoreChangesOnlyThere := by
  intro i s t hl hwf h hbk
  cases runs_of_exec h with
  | jvsc => exact absurd rfl hbk
  | mbmp => exact absurd rfl hbk
  | bmsc r block run =>
    rw [State.withBmsc_bmsc] at hbk
    cases run with
    | transaction he =>
      refine .inl (by_contra fun hn => hbk ?_)
      obtain ⟨op, rest, rfl, hop⟩ :=
        frame_opcode_ne_opWrite hl hwf he fun d u2 chk n hi => hn ⟨d, u2, chk, n, hi⟩
      exact Bmsc.transaction_bk s.bmsc hop rest
    | byteSlot v => exact .inr (.inr ⟨_, rfl, Bmsc.transferByte_bk hbk⟩)
    | clockPeriod sdi => exact .inr (.inr ⟨_, rfl, Bmsc.shiftBit_bk hbk⟩)
    | dmaWrite addr len gm vs => exact .inr (.inl ⟨addr, len, gm, rfl⟩)
    | dmaRead addr len gm => exact absurd (Bmsc.loadAll_bk _ _ addr len) hbk
    | poll => exact absurd (Bmsc.poll_bk _ _) hbk
    | chipSelect level => cases level <;> exact absurd rfl hbk
    | reset => exact absurd rfl hbk

end Sys2Proof.Machine
end

section
/-! Reset: what a block's reset puts, and what the machine holds right after power-on. -/

namespace Sys2Proof.Machine

open Sys2Proof

/-- A record with nothing listed reads zero everywhere (R50). -/
theorem mbByte_reset (a : Nat) : mbByte Mbmp.reset.mb a = 0 := rfl

/-- Settles O50: each block's reset is its table with the persistent stores put back, on the block's own record. -/
theorem resetPutsTheTableValues : Obligations.ResetPutsTheTableValues := by
  intro s
  refine ⟨s.withBmsc (s.bmsc.resetBlock s.cfg) .none, s.withJvsc (s.jvsc.resetBlock s.cfg) .none,
    s.withMbmp Mbmp.reset .none, exec_reset .bmsc s, exec_reset .jvsc s, exec_reset .mbmp s, rfl, rfl, rfl, ?bmsc, ?jvsc,
    mbByte_reset, rfl, rfl⟩
  case bmsc => rfl
  case jvsc => rfl

/-- The completion bit is clear in a record with nothing listed, under the default mask (R52). -/
theorem completionBit_reset (w : Window) : Mbmp.reset.completionBit Cfg.default w = false := by
  rw [Mbmp.completionBit, mbByte_reset]
  rfl

/-- An offset below the default size is its own offset into the store. -/
theorem bkOffset_default {a : Nat} (ha : a < 65536) : bkOffset Cfg.default a = a := Nat.mod_eq_of_lt ha

/-- Settles O51: the registers by the three reset tables, the stores as they were loaded. -/
theorem machineAfterReset : Obligations.MachineAfterReset := by
  obtain ⟨hbackup, hcard, hicc⟩ := reset_stores_loaded
  refine ⟨?bmsc, ?jvsc, ?mbmp⟩
  case bmsc =>
    repeat refine ⟨rfl, ?_⟩
    intro a ha
    exact (hbackup a).trans (congrArg Config.backupInit (bkOffset_default ha))
  case jvsc =>
    repeat refine ⟨rfl, ?_⟩
    exact ⟨hcard, hicc⟩
  case mbmp => exact ⟨rfl, rfl, mbByte_reset, completionBit_reset⟩

end Sys2Proof.Machine
end

section
/-! The typed accessors of the mailbox record (R76, R289): a field is the bytes at its ascending offsets, so what a get reads
and what a set leaves follow from what a byte reads after bytes are stored. -/

namespace Sys2Proof.Machine

open Sys2Proof

/-! ## The value of a field, by its bytes (R76) -/

/-- A byte appended below a quantity is its lowest digit in base 256. -/
theorem toNat_append_byte {n : Nat} (x : BitVec n) (y : Byte) : (x ++ y).toNat = 256 * x.toNat + y.toNat := by
  rw [BitVec.toNat_append, ← Nat.shiftLeft_add_eq_or_of_lt y.isLt, Nat.shiftLeft_eq]
  omega

theorem word16_little_toNat (b0 b1 : Byte) : (word16 .little b0 b1).toNat = b0.toNat + 256 * b1.toNat :=
  (toNat_append_byte b1 b0).trans (Nat.add_comm _ _)

theorem word16_big_toNat (b0 b1 : Byte) : (word16 .big b0 b1).toNat = 256 * b0.toNat + b1.toNat :=
  toNat_append_byte b0 b1

theorem word32_big_toNat (b0 b1 b2 b3 : Byte) : (word32 .big b0 b1 b2 b3).toNat =
    16777216 * b0.toNat + 65536 * b1.toNat + 256 * b2.toNat + b3.toNat := by
  simp only [word32, toNat_append_byte]
  omega

/-- The little-endian field is the big-endian field of the bytes in reverse. -/
theorem word32_little_toNat (b0 b1 b2 b3 : Byte) : (word32 .little b0 b1 b2 b3).toNat =
    b0.toNat + 256 * b1.toNat + 65536 * b2.toNat + 16777216 * b3.toNat := by
  have hrev : word32 .little b0 b1 b2 b3 = word32 .big b3 b2 b1 b0 := rfl
  rw [hrev, word32_big_toNat]
  omega

/-! ## A field after it is set (R289) -/

section
variable {m : Memory} (hm : m.wf (some 0) = true) (e : Endian) (a : Nat)
include hm

/-- A byte outside the bytes just stored reads as before. -/
theorem mbByte_mbWriteBytes_outside (l : List Byte) {k : Nat} (hk : k < a ∨ a + l.length ≤ k) :
    mbByte (mbWriteBytes m a l) k = mbByte m k := by
  rw [mbByte_mbWriteBytes m a l k hm, if_neg (by omega)]

theorem get16_set16 (v : Word16) : get16 e (set16 e m a v) a = v := by
  have hbyte (k : Nat) (hk : k < 2) : mbByte (set16 e m a v) (a + k) = (bytes16 e v).getD k 0 :=
    mbByte_mbWriteBytes_at m hm a _ k (by rwa [bytes16_length])
  have h0 : mbByte (set16 e m a v) a = (bytes16 e v).getD 0 0 := hbyte 0 (by decide)
  rw [get16, h0, hbyte 1 (by decide), word16_bytes16]

theorem get32_set32 (x : Word32) : get32 e (set32 e m a x) a = x := by
  have hbyte (k : Nat) (hk : k < 4) : mbByte (set32 e m a x) (a + k) = (bytes32 e x).getD k 0 :=
    mbByte_mbWriteBytes_at m hm a _ k (by rwa [bytes32_length])
  have h0 : mbByte (set32 e m a x) a = (bytes32 e x).getD 0 0 := hbyte 0 (by decide)
  rw [get32, h0, hbyte 1 (by decide), hbyte 2 (by decide), hbyte 3 (by decide), word32_bytes32]

theorem mbByte_set16_outside (v : Word16) {k : Nat} (hk : k < a ∨ a + 2 ≤ k) : mbByte (set16 e m a v) k = mbByte m k :=
  mbByte_mbWriteBytes_outside hm a _ (by rwa [bytes16_length])

theorem mbByte_set32_outside (x : Word32) {k : Nat} (hk : k < a ∨ a + 4 ≤ k) : mbByte (set32 e m a x) k = mbByte m k :=
  mbByte_mbWriteBytes_outside hm a _ (by rwa [bytes32_length])

end

/-- Settles O49: the value of a field by its bytes, and what a byte reads after the field's bytes are stored. -/
theorem typedAccessorKeepsByteLayout : Obligations.TypedAccessorKeepsByteLayout := by
  intro m a v x hm
  refine ⟨word16_little_toNat _ _, word16_big_toNat _ _, word32_little_toNat _ _ _ _, word32_big_toNat _ _ _ _, fun e => ?_⟩
  exact ⟨get16_set16 hm e a v, get32_set32 hm e a x,
    fun k => ⟨mbByte_set16_outside hm e a v, mbByte_set32_outside hm e a x⟩⟩

end Sys2Proof.Machine
end

section
/-! Which instructions complete (R300): all but the two DMA operations answer a next state always, and these two exactly where
the accessor backs the guest range (U6). -/

namespace Sys2Proof.Machine

open Sys2Proof

/-- The accessor reads no range in which it does not back some address (U6). -/
theorem guestRead_eq_none_iff (gm : List Host.Cell) (a n : Nat) :
    guestRead gm a n = none ↔ ∃ k : Nat, k < n ∧ cellsLookup (a + k) gm = none := by
  induction n generalizing a with
  | zero => simp [guestRead]
  | succ n ih =>
    have hhead : guestRead gm a (n + 1) = none ↔ cellsLookup a gm = none ∨ guestRead gm (a + 1) n = none := by
      rw [guestRead]
      cases cellsLookup a gm <;> cases guestRead gm (a + 1) n <;> simp
    have hrange : (∃ k, k < n + 1 ∧ cellsLookup (a + k) gm = none)
        ↔ cellsLookup a gm = none ∨ ∃ k, k < n ∧ cellsLookup (a + 1 + k) gm = none := by
      simp only [Nat.exists_lt_succ_left, Nat.add_zero, Nat.add_right_comm a 1, Nat.add_assoc]
    rw [hhead, hrange, ih]

section
variable {addr len : Nat} {gm : List Host.Cell} (s : State)

theorem exec_dmaWrite_of_backed {vs : List Byte} (h : guestRead gm addr len = some vs) :
    exec (.dmaWrite addr len gm) s = .next (s.withBmsc (s.bmsc.seekDma.storeAll s.cfg vs) .none) := by
  rw [exec_dmaWrite, execDmaWrite, h]

theorem exec_dmaWrite_of_unbacked (h : guestRead gm addr len = none) :
    exec (.dmaWrite addr len gm) s = .refused .guestRangeNotBacked := by
  rw [exec_dmaWrite, execDmaWrite, h]

theorem exec_dmaRead_of_backed {vs : List Byte} (h : guestRead gm addr len = some vs) :
    exec (.dmaRead addr len gm) s = .next (s.withBmsc (s.bmsc.seekDma.loadAll s.cfg addr len) .none) := by
  rw [exec_dmaRead, execDmaRead, h]

theorem exec_dmaRead_of_unbacked (h : guestRead gm addr len = none) :
    exec (.dmaRead addr len gm) s = .refused .guestRangeNotBacked := by
  rw [exec_dmaRead, execDmaRead, h]

end

/-- A BMSC mnemonic answers a next state: its transaction does (R124). -/
theorem exec_completes_of_frame {i : Instr} {ins : List Byte} (s : State) (h : encode s.cfg i = .frame ins) :
    ∃ t : State, exec i s = .next t :=
  ⟨_, (exec_frame i ins s h).trans (runTransaction_next ins s)⟩

/-- The call that carries one chunk answers a next state (log entry 5). -/
theorem chunkCall_completes (cop : Byte) (d : List Byte) (pad : PadStatus) (s : State) :
    ∃ t : State, chunkCall cop d pad s = .next t := ⟨_, serialCall_next _ pad s⟩

/-- The call that carries one JVS frame answers a next state (log entry 5). -/
theorem frameCall_completes (node : Byte) (p : List Byte) (pad : PadStatus) (s : State) :
    ∃ t : State, frameCall node p pad s = .next t := chunkCall_completes _ _ pad s

/-- An instruction that is no DMA answers a next state: it is a transaction, a serial-bus call, a mailbox call, or a bus
operation, and none of these stops. -/
theorem exec_completes_of_not_dma (i : Instr) (s : State)
    (hdma : ¬∃ addr len gm, i = .dmaWrite addr len gm ∨ i = .dmaRead addr len gm) : ∃ t : State, exec i s = .next t := by
  cases i
  case dmaWrite addr len gm => exact absurd ⟨addr, len, gm, .inl rfl⟩ hdma
  case dmaRead addr len gm => exact absurd ⟨addr, len, gm, .inr rfl⟩ hdma
  case backupOffsetSet | backupWrite | backupRead | dmaOffsetLengthSet | readISR | writeISR | readIMR | writeIMR
      | writeLANCNT | serialID | bmUnhandled => exact exec_completes_of_frame s rfl
  case runBuffer bytes pad => exact ⟨_, (exec_runBuffer bytes pad s).trans (serialCall_next _ _ s)⟩
  case siReset rest => exact ⟨_, (exec_siReset rest s).trans (serialCall_next _ _ s)⟩
  case siCommand chunks pad => exact ⟨_, (exec_siCommand chunks pad s).trans (serialCall_next _ _ s)⟩
  case siUnhandled op rest => exact ⟨_, (exec_siUnhandled op rest s).trans (serialCall_next _ _ s)⟩
  case chJVS | chCard | chICCard | chUnhandled => exact chunkCall_completes _ _ _ s
  case jBoardID | jCommandRev | jJVRev | jCommRev | jCapabilities | jSwitchInput | jCoinInput | jAnalogInput
      | jPositionInput | jCoinSub | jDriverOutput | jCoinAdd | jNAMCO | jReset | jSetAddress | jUnhandled =>
    exact frameCall_completes _ _ _ s
  case mbGetDIMMSize | mbGetStatus | mbAccept | mbBind | mbConnect | mbInetAddr | mbListen | mbRecv | mbSend | mbSocket
      | mbSelect | mbSetSockOpt | mbSetTimeOuts | mbGetLastError | mbModifyMyIPaddr | mbSerialInit | mbUnhandled =>
    exact ⟨_, mailboxCall_next _ _ _ _ s⟩
  case setChipSelect | pollInterrupt | mbWrite | mbRead | mbExecute => exact ⟨_, rfl⟩
  case transferByte io => cases io <;> exact ⟨_, rfl⟩
  case reset block => cases block <;> exact ⟨_, rfl⟩

/-- Settles O52: an instruction that is no DMA completes, and a DMA completes or is refused as the accessor reads its guest
range or does not. -/
theorem everyInstructionCompletes : Obligations.EveryInstructionCompletes := by
  intro i s unbacked
  refine ⟨fun hbacked => ?completes, ?refused⟩
  case refused =>
    rintro ⟨addr, len, gm, rfl | rfl, hrange⟩
    · exact exec_dmaWrite_of_unbacked s ((guestRead_eq_none_iff gm addr len).2 hrange)
    · exact exec_dmaRead_of_unbacked s ((guestRead_eq_none_iff gm addr len).2 hrange)
  case completes =>
    by_cases hdma : ∃ addr len gm, i = .dmaWrite addr len gm ∨ i = .dmaRead addr len gm
    · obtain ⟨addr, len, gm, hi⟩ := hdma
      have hread : guestRead gm addr len ≠ none := fun hn =>
        hbacked ⟨addr, len, gm, hi, (guestRead_eq_none_iff gm addr len).1 hn⟩
      obtain ⟨vs, hvs⟩ := Option.ne_none_iff_exists'.1 hread
      rcases hi with rfl | rfl
      · exact ⟨_, exec_dmaWrite_of_backed s hvs⟩
      · exact ⟨_, exec_dmaRead_of_backed s hvs⟩
    · exact exec_completes_of_not_dma i s hdma

end Sys2Proof.Machine
end

section
/-! Decoding undoes encoding: one lemma per format of spec/30_encoding.md, each going from the bytes a format's encoder writes
to the instruction they stand for. -/

namespace Sys2Proof.Machine

open Sys2Proof

/-! ## What the decoder reads from the bytes of a format -/

section
variable {c : Cfg}

/-- The dummy bytes of a frame say only how many slots follow slot 4 (R100, R124). -/
theorem decode_frameBytes (b0 b1 b2 b3 : Byte) (n : Nat) :
    decode c (.frame (frameBytes b0 b1 b2 b3 n)) = .ok (decodeFrame c b0 b1 b2 b3 n) := by
  simp [frameBytes, dummySlots, List.replicate_succ, decode]

/-- The count byte of a chunk is the number of its data bytes (R111). -/
theorem decode_chunkBytes {d : List Byte} (hd : d.length ≤ 255) (cop : Byte) (pad : PadStatus) :
    decode c (.chunk (chunkBytes cop d) pad) = .ok (decodeChunk c cop d pad) := by
  simp only [chunkBytes, decode, byteOf_toNat hd, if_true]

/-- An inbound region gives back the code and the other bytes it was put together from, wherever the configuration has the
code (R120). -/
theorem decode_inboundBytes (hl : c.legal = true) {rest : List Byte} (hr : restWhole rest = true) (w : Window)
    (code : Word16) (sock : Option (Vector Byte 28)) :
    decode c (.inbound w (inboundBytes c code rest) sock) = .ok (decodeMailbox c w code rest sock) := by
  obtain ⟨-, -, -, hoff, -⟩ := Cfg.legal_windows hl
  have hlen : rest.length = 30 := of_decide_eq_true hr
  simp only [decode, inboundBytes_length c code rest hlen hoff, codeOf_inboundBytes c code rest hlen hoff,
    withoutCode_inboundBytes c code rest hlen hoff, if_true]

/-- A payload that one frame carries is decoded by its one opcode group (R112, R115). -/
theorem decode_payload_of_fits {node jop : Byte} {tail : List Byte} (hf : jvsFits c.jv node (jop :: tail) = true)
    (pad : PadStatus) : decode c (.payload node (jop :: tail) pad) = decodePayload c node jop tail pad := if_pos hf

/-- An opcode with a fixed argument count: its group is the whole payload, nothing trails it (R236). -/
theorem decode_payload_group (hc : c.codesDistinct = true) {i : Instr} {node : Byte} {pad : PadStatus}
    (hi : isGroup node pad i = true) (hf : jvsFits c.jv node (payloadBytes c i) = true) :
    decode c (.payload node (payloadBytes c i) pad) = .ok i := by
  obtain ⟨jop, tail, hbytes, hgroup⟩ := decodeGroup_payloadBytes hc node pad i hi
  have hwhole : decodeGroup c node pad jop tail = .op i [] := by simpa using hgroup []
  rw [hbytes] at hf ⊢
  rw [decode_payload_of_fits hf, decodePayload, hwhole]
  rfl

/-- The vendor opcode takes every byte behind it, whether the profile consumes them or asks for more (R236, R244). -/
theorem decodePayload_namco (hc : c.codesDistinct = true) {tail : List Byte} (hw : namcoWhole c tail = true) (node : Byte)
    (pad : PadStatus) : decodePayload c node c.jv.jop.namco tail pad = .ok (.jNAMCO node tail) := by
  simp only [decodePayload, decodeGroup, jopOf_namco hc, argCount]
  cases hp : Config.namco c.profile tail with
  | none => simp
  | some answer =>
    have hall : tail.length ≤ answer.1 := by simpa [namcoWhole, hp] using hw
    by_cases hlt : tail.length < answer.1
    · simp [hlt]
    · have hdrop : tail.drop answer.1 = [] := List.drop_of_length_le hall
      simp [hlt, hdrop, jopInstr]

/-- An opcode outside the map takes every byte behind it (R248). -/
theorem decodePayload_unhandled {jop : Byte} (hn : jopOf c jop = none) (node : Byte) (tail : List Byte) (pad : PadStatus) :
    decodePayload c node jop tail pad = .ok (.jUnhandled node jop tail) := by
  simp only [decodePayload, decodeGroup, hn]

end

/-! ## Decoding what the encoder writes, by format -/

section
variable {c : Cfg} {i : Instr}

/-- A bus operation has no opcode: its request is the operation itself (R130). -/
theorem decode_encode_bus {r : Request} (he : encode c i = r) (hb : Laws.requestFormat r = .bus) : decode c r = .ok i := by
  subst he
  cases i <;> simp only [encode, Laws.requestFormat, reduceCtorEq] at hb <;> rfl

/-- F-BM (R103): no opcode of the map is ID mode's zero, and each selects its own row (R104). -/
theorem decode_encode_frame (hl : c.legal = true) (hwf : i.wf c = true) {ins : List Byte} (he : encode c i = .frame ins) :
    decode c (.frame ins) = .ok i := by
  cases i <;> simp only [encode, Request.frame.injEq, reduceCtorEq] at he <;> subst he <;> rw [decode_frameBytes]
  case serialID => rfl
  case bmUnhandled op p1 p2 chk n =>
    simp only [Instr.wf, Bool.and_eq_true, decide_eq_true_eq] at hwf
    obtain ⟨hnone, hid⟩ := hwf
    rw [decodeFrame, if_neg hid, hnone]
  case backupOffsetSet =>
    rw [decodeFrame, if_neg (not_and_of_not_left _ (opOffsetSet_ne_zero hl)), bmOpOf_opOffsetSet hl, hiLo_bytes]
  case backupWrite => rw [decodeFrame, if_neg (not_and_of_not_left _ (opWrite_ne_zero hl)), bmOpOf_opWrite hl]
  case backupRead => rw [decodeFrame, if_neg (not_and_of_not_left _ (opRead_ne_zero hl)), bmOpOf_opRead hl]
  case dmaOffsetLengthSet =>
    rw [decodeFrame, if_neg (not_and_of_not_left _ (opDmaSet_ne_zero hl)), bmOpOf_opDmaSet hl, hiLo_bytes]
  case readISR => rw [decodeFrame, if_neg (not_and_of_not_left _ (opIsrRead_ne_zero hl)), bmOpOf_opIsrRead hl]
  case writeISR => rw [decodeFrame, if_neg (not_and_of_not_left _ (opIsrWrite_ne_zero hl)), bmOpOf_opIsrWrite hl]
  case readIMR => rw [decodeFrame, if_neg (not_and_of_not_left _ (opImrRead_ne_zero hl)), bmOpOf_opImrRead hl]
  case writeIMR => rw [decodeFrame, if_neg (not_and_of_not_left _ (opImrWrite_ne_zero hl)), bmOpOf_opImrWrite hl]
  case writeLANCNT => rw [decodeFrame, if_neg (not_and_of_not_left _ (opLancntWrite_ne_zero hl)), bmOpOf_opLancntWrite hl]

/-- F-SI (R110). -/
theorem decode_encode_serial (hc : c.codesDistinct = true) (hwf : i.wf c = true) {bytes : List Byte} {pad : PadStatus}
    (he : encode c i = .serial bytes pad) : decode c (.serial bytes pad) = .ok i := by
  cases i <;> simp only [encode, Request.serial.injEq, reduceCtorEq] at he <;> obtain ⟨rfl, rfl⟩ := he
  case siReset => simp [decode, decodeSerial]
  case siCommand => simp [decode, decodeSerial, (siOps_ne hc).symm]
  case siUnhandled op rest =>
    simp only [Instr.wf, Bool.and_eq_true, decide_eq_true_eq] at hwf
    obtain ⟨hreset, hcommand⟩ := hwf
    simp [decode, decodeSerial, hreset, hcommand]

/-- F-CH (R111). -/
theorem decode_encode_chunk (hc : c.codesDistinct = true) (hwf : i.wf c = true) {bytes : List Byte} {pad : PadStatus}
    (he : encode c i = .chunk bytes pad) : decode c (.chunk bytes pad) = .ok i := by
  cases i <;> simp only [encode, Request.chunk.injEq, reduceCtorEq] at he <;> obtain ⟨rfl, rfl⟩ := he <;>
    simp only [Instr.wf, Bool.and_eq_true, decide_eq_true_eq] at hwf
  case chJVS => rw [decode_chunkBytes hwf, decodeChunk, chOpOf_chJvs hc]
  case chCard => rw [decode_chunkBytes hwf, decodeChunk, chOpOf_chCard hc]
  case chICCard => rw [decode_chunkBytes hwf, decodeChunk, chOpOf_chICCard hc]
  case chUnhandled =>
    obtain ⟨hnone, hlen⟩ := hwf
    rw [decode_chunkBytes hlen, decodeChunk, hnone]

/-- F-JP (R115, R117). -/
theorem decode_encode_payload (hc : c.codesDistinct = true) (hwf : i.wf c = true) {node : Byte} {bytes : List Byte}
    {pad : PadStatus} (he : encode c i = .payload node bytes pad) : decode c (.payload node bytes pad) = .ok i := by
  cases i <;> simp only [encode, Request.payload.injEq, reduceCtorEq] at he <;> obtain ⟨rfl, rfl, rfl⟩ := he
  case jNAMCO node tail =>
    obtain ⟨hwhole, hfits⟩ := Bool.and_eq_true_iff.1 hwf
    exact (decode_payload_of_fits hfits _).trans (decodePayload_namco hc hwhole node _)
  case jUnhandled node jop tail =>
    obtain ⟨hnone, hfits⟩ := Bool.and_eq_true_iff.1 hwf
    exact (decode_payload_of_fits hfits _).trans (decodePayload_unhandled (of_decide_eq_true hnone) node tail _)
  case jDriverOutput node d =>
    obtain ⟨hlen, hfits⟩ := Bool.and_eq_true_iff.1 hwf
    exact decode_payload_group hc (by simpa [isGroup] using hlen) hfits
  all_goals exact decode_payload_group hc (by simp [isGroup]) hwf

/-- F-MI (R120, R121). -/
theorem decode_encode_inbound (hl : c.legal = true) (hc : c.codesDistinct = true) (hwf : i.wf c = true) {w : Window}
    {bytes : List Byte} {sock : Option (Vector Byte 28)} (he : encode c i = .inbound w bytes sock) :
    decode c (.inbound w bytes sock) = .ok i := by
  cases i <;> simp only [encode, Request.inbound.injEq, reduceCtorEq] at he <;> obtain ⟨rfl, rfl, rfl⟩ := he
  case mbUnhandled w code rest =>
    obtain ⟨hnone, hrest⟩ := Bool.and_eq_true_iff.1 hwf
    rw [decode_inboundBytes hl hrest, decodeMailbox, of_decide_eq_true hnone]
  all_goals rw [decode_inboundBytes hl hwf, decodeMailbox]
  case mbGetDIMMSize => rw [mbOpOf_getDIMMSize hc]
  case mbGetStatus => rw [mbOpOf_getStatus hc]
  case mbAccept => rw [mbOpOf_accept hc]
  case mbBind => rw [mbOpOf_bind hc]
  case mbConnect => rw [mbOpOf_connect hc]
  case mbInetAddr => rw [mbOpOf_inetAddr hc]
  case mbListen => rw [mbOpOf_listen hc]
  case mbRecv => rw [mbOpOf_recv hc]
  case mbSend => rw [mbOpOf_send hc]
  case mbSocket => rw [mbOpOf_socket hc]
  case mbSelect => rw [mbOpOf_select hc]
  case mbSetSockOpt => rw [mbOpOf_setSockOpt hc]
  case mbSetTimeOuts => rw [mbOpOf_setTimeOuts hc]
  case mbGetLastError => rw [mbOpOf_getLastError hc]
  case mbModifyMyIPaddr => rw [mbOpOf_modifyMyIPaddr hc]
  case mbSerialInit => rw [mbOpOf_serialInit hc]

end

/-- Settles O57: a bus operation is its own request, and every other instruction is decoded by the lemma of its format. -/
theorem decodeUndoesEncode : Obligations.DecodeUndoesEncode := by
  intro c i hl hc hwf
  cases he : encode c i with
  | frame => exact decode_encode_frame hl hwf he
  | serial => exact decode_encode_serial hc hwf he
  | chunk => exact decode_encode_chunk hc hwf he
  | payload => exact decode_encode_payload hc hwf he
  | inbound => exact decode_encode_inbound hl hc hwf he
  | _ => exact decode_encode_bus he rfl

/-! ## Words of the default configuration -/

theorem Cfg.default_codesDistinct : Cfg.default.codesDistinct = true := by decide

/-- A request the encoder writes for a well-formed instruction under the default configuration decodes to it. -/
theorem decode_default_of_encode {i : Instr} {r : Request} (he : encode Cfg.default i = r) (hwf : i.wf Cfg.default = true) :
    decode Cfg.default r = .ok i := he ▸ decodeUndoesEncode Cfg.default i Cfg.default_legal Cfg.default_codesDistinct hwf

/-- Settles O56: each word is what the encoder writes for its instruction, which is well formed. -/
theorem wordsDecodeAsTheSpecWritesThem : Obligations.WordsDecodeAsTheSpecWritesThem := by
  refine ⟨?_, ?_, ?_, ?_, ?_, ?_, ?_, ?_⟩ <;> exact decode_default_of_encode rfl rfl

end Sys2Proof.Machine
end

section
/-! A BMSC mnemonic as bus operations (R124): the byte slots run one after another as `transferBytes` runs them, between the
two edges of chip-select. -/

namespace Sys2Proof.Machine

open Sys2Proof

/-- The byte slots of a transaction, then the edge that ends it: the slots' effect on the BMSC alone, and nothing returned. -/
theorem execAll_transferBytes (ins : List Byte) (s : State) :
    execAll ((ins.map fun v => .transferByte (.byte v)) ++ [.setChipSelect false]) s =
      .next (s.withBmsc ((s.bmsc.transferBytes s.cfg ins).2.chipSelect false) .none) := by
  induction ins generalizing s with
  | nil => rfl
  | cons v vs ih =>
    calc execAll (((v :: vs).map fun v => .transferByte (.byte v)) ++ [.setChipSelect false]) s
      _ = execAll ((vs.map fun v => .transferByte (.byte v)) ++ [.setChipSelect false])
            (s.withBmsc (s.bmsc.transferByte s.cfg v).2 (.byte (s.bmsc.transferByte s.cfg v).1)) := rfl
      _ = .next (s.withBmsc ((s.bmsc.transferBytes s.cfg (v :: vs)).2.chipSelect false) .none) := ih _

/-- The bus operations of a transaction leave the BMSC as the transaction does. -/
theorem execAll_slotOperations (ins : List Byte) (s : State) :
    execAll (slotOperations ins) s = .next (s.withBmsc (s.bmsc.transaction s.cfg ins).2 .none) :=
  execAll_transferBytes ins (s.withBmsc (s.bmsc.chipSelect true) .none)

/-- Settles O15: both are the transaction of the mnemonic's bytes, and differ in the value returned only. -/
theorem mnemonicIsItsBusOperations : Obligations.MnemonicIsItsBusOperations := by
  intro i ins s he
  have hmnemonic := (exec_frame i ins s he).trans (runTransaction_next ins s)
  exact ⟨_, _, hmnemonic, execAll_slotOperations ins s, rfl⟩

end Sys2Proof.Machine
end

section
/-! The slots of a transaction before its command (R133 to R138): slots 0 to 3 latch the frame and check it, and change nothing
else of the BMSC, so a transaction that ends there executes nothing. -/

namespace Sys2Proof.Machine

open Sys2Proof

/-- What slot 3 logs on the byte it receives (R138); nothing in any other slot. -/
def Bmsc.slotEvents (c : Cfg) (b : Bmsc) (v : Byte) : List BmEvent :=
  if b.pos = 3 ∧ b.idMode = false ∧ v ≠ b.checkValue c then [.crcMismatch b.x0 b.x1 b.x2 v (b.checkValue c)] else []

section
variable (c : Cfg) (b : Bmsc) (v : Byte)

theorem Bmsc.idMode_iff : b.idMode = true ↔ 2 ≤ b.pos ∧ b.x0 = 0 ∧ b.x1 = 0 := by
  simp only [Bmsc.idMode, Bool.and_eq_true, decide_eq_true_eq, and_assoc]

/-- Slot `i` of the frame latches `x[i]` and no other byte (R133). -/
theorem Bmsc.latch_eq : b.latch v =
    { b with
      x0 := if b.pos = 0 then v else b.x0
      x1 := if b.pos = 1 then v else b.x1
      x2 := if b.pos = 2 then v else b.x2
      x3 := if b.pos = 3 then v else b.x3 } := by
  unfold Bmsc.latch
  split
  case h_5 h0 h1 h2 h3 => rw [if_neg h0, if_neg h1, if_neg h2, if_neg h3]
  all_goals simp [*]

/-- The test bytes of ID mode are latched before the slots that it is decided in (R23). -/
theorem Bmsc.latch_idMode : (b.latch v).idMode = b.idMode := by
  rw [Bool.eq_iff_iff, Bmsc.idMode_iff, Bmsc.idMode_iff, Bmsc.latch_pos]
  refine and_congr_right fun hp => ?_
  rw [Bmsc.latch_eq, if_neg (by omega), if_neg (by omega)]

theorem Bmsc.checkSlot_eq : b.checkSlot c v = { b with log := b.log ++ b.slotEvents c v } := by
  unfold Bmsc.checkSlot Bmsc.slotEvents
  split
  · rfl
  · simp

/-- Slot 3 checks the three bytes before its own, so the latch of its own does not matter (R138). -/
theorem Bmsc.slotEvents_latch : (b.latch v).slotEvents c v = b.slotEvents c v := by
  unfold Bmsc.slotEvents
  rw [Bmsc.latch_pos, Bmsc.latch_idMode]
  by_cases hp : b.pos = 3
  · simp [hp, Bmsc.checkValue, Bmsc.latch_eq]
  · simp [hp]

theorem Bmsc.commandSlot_of_lt_four {b : Bmsc} (hp : b.pos < 4) : b.commandSlot c = b := if_neg fun h => by omega

/-- A slot before the command's latches its byte, checks the frame and moves on (R133, R135, R138). -/
theorem Bmsc.slotNext_of_lt_four {b : Bmsc} (hp : b.pos < 4) :
    b.slotNext c v = { b.latch v with pos := b.pos + 1, log := b.log ++ b.slotEvents c v } := by
  have hcheck : (b.latch v).checkSlot c v = { b.latch v with log := b.log ++ b.slotEvents c v } := by
    rw [Bmsc.checkSlot_eq, Bmsc.slotEvents_latch, Bmsc.latch_eq]
  have hcmd := Bmsc.commandSlot_of_lt_four c (b := (b.latch v).checkSlot c v) (by
    rw [hcheck]
    exact (Bmsc.latch_pos b v).symm ▸ hp)
  rw [Bmsc.slotNext, hcmd, hcheck]

/-- A slot before the command's returns the idle byte, but the serial ID in ID mode (R134, R136). -/
theorem Bmsc.slotOut_of_lt_four {b : Bmsc} (hp : b.pos < 4) :
    b.slotOut c = if b.idMode = true then serialIdByte c (b.pos - 2) else c.bm.idleByte := by
  by_cases hlt : b.pos < 2
  · have hid : ¬b.idMode = true := fun h => Nat.not_lt.2 ((Bmsc.idMode_iff b).1 h).1 hlt
    rw [Bmsc.slotOut, if_pos hlt, if_neg hid]
  · rw [Bmsc.slotOut, if_neg hlt, if_pos hp]

/-- Only slot 3 logs, and it logs once: what a slot logs is paid for by its step past slot 3. -/
theorem Bmsc.slotEvents_length : (b.slotEvents c v).length + (b.pos - 3) ≤ b.pos + 1 - 3 := by
  unfold Bmsc.slotEvents
  split
  · simp [*]
  · simp only [List.length_nil]
    omega

end

/-- Selected slots that end before the command's change the latches, the position and the log, and nothing else. -/
theorem Bmsc.transferBytes_before_command (c : Cfg) (ins : List Byte) {b : Bmsc} (hcs : b.cs = true)
    (hlen : b.pos + ins.length ≤ 4) : ∃ (x0 x1 x2 x3 : Byte) (events : List BmEvent),
      (b.transferBytes c ins).2 =
        { b with pos := b.pos + ins.length, x0 := x0, x1 := x1, x2 := x2, x3 := x3, log := b.log ++ events }
      ∧ events.length + (b.pos - 3) ≤ b.pos + ins.length - 3 := by
  induction ins generalizing b with
  | nil => exact ⟨b.x0, b.x1, b.x2, b.x3, [], by simp [Bmsc.transferBytes], by simp⟩
  | cons v vs ih =>
    rw [List.length_cons] at hlen ⊢
    have hslot : (b.transferByte c v).2 =
        { b.latch v with pos := b.pos + 1, log := b.log ++ b.slotEvents c v } :=
      (congrArg Prod.snd (if_pos hcs)).trans (Bmsc.slotNext_of_lt_four c v (by omega))
    rw [Bmsc.latch_eq] at hslot
    obtain ⟨x0, x1, x2, x3, events, hrest, hcount⟩ :=
      ih (b := (b.transferByte c v).2) (by rw [hslot]; exact hcs) (by rw [hslot]; simp only; omega)
    have hhead := Bmsc.slotEvents_length c b v
    refine ⟨x0, x1, x2, x3, b.slotEvents c v ++ events, ?_, ?_⟩
    · rw [Bmsc.transferBytes]
      simp only [hrest]
      simp only [hslot, List.append_assoc, Nat.add_right_comm b.pos 1, Nat.add_assoc b.pos _ 1]
    · rw [hslot] at hcount
      simp only at hcount
      rw [List.length_append]
      omega

/-- Settles O16: the slots of the transaction end before the command's, and the edges of chip-select write the level, the
position and the bit count. -/
theorem shortTransactionExecutesNothing : Obligations.ShortTransactionExecutesNothing := by
  intro ins c b hlen
  obtain ⟨x0, x1, x2, x3, events, hslots, hcount⟩ :=
    Bmsc.transferBytes_before_command c ins (b := b.chipSelect true) rfl (by simpa [Bmsc.chipSelect] using hlen)
  refine ⟨x0, x1, x2, x3, events, ?_, ?_⟩
  · rw [Bmsc.transaction]
    simp only [hslots]
    simp [Bmsc.chipSelect]
  · simp only [Bmsc.chipSelect, if_true] at hcount
    omega

/-- ID mode reaches slots 2 and 3 of the frame with the first two bytes of the serial ID (R136). -/
theorem Bmsc.slotOut_frame (c : Cfg) {b : Bmsc} (hp : b.pos < 4) :
    b.slotOut c = if 2 ≤ b.pos ∧ b.x0 = 0 ∧ b.x1 = 0 then (if b.pos = 2 then c.bm.serialId[0] else c.bm.serialId[1])
      else c.bm.idleByte := by
  rw [Bmsc.slotOut_of_lt_four c hp]
  refine ite_congr (propext (Bmsc.idMode_iff b)) (fun ⟨h2, _⟩ => ?_) fun _ => rfl
  obtain hpos | hpos : b.pos = 2 ∨ b.pos = 3 := by omega
  · simp [serialIdByte, hpos]
  · simp [serialIdByte, hpos]

/-- Slot 3 outside ID mode logs a wrong check byte, and no other slot of the frame logs (R138). -/
theorem Bmsc.append_slotEvents (c : Cfg) (b : Bmsc) (v : Byte) :
    b.log ++ b.slotEvents c v =
      if b.pos = 3 ∧ ¬(2 ≤ b.pos ∧ b.x0 = 0 ∧ b.x1 = 0) ∧ v ≠ checkByte c b.x0 b.x1 b.x2 then
        b.log ++ [.crcMismatch b.x0 b.x1 b.x2 v (checkByte c b.x0 b.x1 b.x2)] else b.log := by
  rw [Bmsc.slotEvents, apply_ite (b.log ++ ·), List.append_nil]
  refine if_congr ?_ rfl rfl
  rw [← Bmsc.idMode_iff, Bool.not_eq_true, Bmsc.checkValue]

/-- Settles O12: the closed form of a slot before the command's, with the latch, the event and the byte written out. -/
theorem frameSlotsLatchTheFrame : Obligations.FrameSlotsLatchTheFrame := by
  intro v s hcs hp
  have hbyte : s.bmsc.transferByte s.cfg v = (s.bmsc.slotOut s.cfg, s.bmsc.slotNext s.cfg v) := if_pos hcs
  rw [exec_transferByte, execTransferByte, hbyte, Bmsc.slotOut_frame s.cfg hp, Bmsc.slotNext_of_lt_four s.cfg v hp,
    Bmsc.append_slotEvents, Bmsc.latch_eq]

end Sys2Proof.Machine
end

section
/-! The command slots that no opcode of the map reaches: ID mode, which echoes the serial ID from slot 2 on (R136, R137), and
an opcode outside the map (R141). -/

namespace Sys2Proof.Machine

open Sys2Proof

section
variable {b : Bmsc} (c : Cfg) (hid : b.idMode = true)
include hid

/-- In ID mode a slot latches its byte and moves on: no check, no command (R137). -/
theorem Bmsc.slotNext_of_idMode (v : Byte) : b.slotNext c v = { b.latch v with pos := b.pos + 1 } := by
  have hmode : (b.latch v).idMode = true := (Bmsc.latch_idMode b v).trans hid
  have hcheck : (b.latch v).checkSlot c v = b.latch v := by simp [Bmsc.checkSlot, hmode]
  have hcmd : (b.latch v).commandSlot c = b.latch v := by simp [Bmsc.commandSlot, hmode]
  rw [Bmsc.slotNext, hcheck, hcmd]

/-- Once entered, ID mode lasts to the end of the transaction (R23). -/
theorem Bmsc.slotNext_idMode (v : Byte) : (b.slotNext c v).idMode = true := by
  have hmode := (Bmsc.idMode_iff (b.latch v)).1 ((Bmsc.latch_idMode b v).trans hid)
  rw [Bmsc.latch_pos] at hmode
  rw [Bmsc.slotNext_of_idMode c hid v, Bmsc.idMode_iff]
  exact ⟨Nat.le_succ_of_le hmode.1, hmode.2⟩

theorem Bmsc.slotOut_of_idMode : b.slotOut c = serialIdByte c (b.pos - 2) := by
  have h2 := ((Bmsc.idMode_iff b).1 hid).1
  rw [Bmsc.slotOut, if_neg (Nat.not_lt.2 h2), if_pos hid]

theorem Bmsc.transferByte_of_idMode (hcs : b.cs = true) (v : Byte) :
    b.transferByte c v = (serialIdByte c (b.pos - 2), b.slotNext c v) := by
  rw [Bmsc.transferByte, if_pos hcs, Bmsc.slotOut_of_idMode c hid]

/-- The slots of ID mode return the serial ID in order, from the byte that the position selects (R136). -/
theorem Bmsc.transferBytes_idMode_out (hcs : b.cs = true) (ins : List Byte) :
    (b.transferBytes c ins).1 = (List.range ins.length).map fun k => serialIdByte c (b.pos - 2 + k) := by
  induction ins generalizing b with
  | nil => rfl
  | cons v vs ih =>
    have h2 := ((Bmsc.idMode_iff b).1 hid).1
    have hnext : (b.slotNext c v).cs = true := by
      rw [Bmsc.slotNext_of_idMode c hid, Bmsc.latch_eq]
      exact hcs
    have hpos : (b.slotNext c v).pos - 2 = b.pos - 2 + 1 := by
      change b.pos + 1 - 2 = b.pos - 2 + 1
      omega
    rw [Bmsc.transferBytes, Bmsc.transferByte_of_idMode c hid hcs, List.length_cons, List.range_succ_eq_map]
    simp only [ih (Bmsc.slotNext_idMode c hid v) hnext, hpos, List.map_cons, List.map_map, Nat.add_zero]
    simp only [Function.comp_def, Nat.succ_eq_add_one, Nat.add_assoc, Nat.add_comm 1]

/-- Behind the frame the slots of ID mode move the position alone. -/
theorem Bmsc.transferBytes_idMode_state (hcs : b.cs = true) (hp : 4 ≤ b.pos) (ins : List Byte) :
    (b.transferBytes c ins).2 = { b with pos := b.pos + ins.length } := by
  induction ins generalizing b with
  | nil => rfl
  | cons v vs ih =>
    have hslot : b.slotNext c v = { b with pos := b.pos + 1 } := by
      rw [Bmsc.slotNext_of_idMode c hid, Bmsc.latch_eq, if_neg (by omega), if_neg (by omega), if_neg (by omega),
        if_neg (by omega)]
    have hmode := Bmsc.slotNext_idMode c hid v
    rw [Bmsc.transferBytes, Bmsc.transferByte_of_idMode c hid hcs, List.length_cons]
    rw [hslot] at hmode ⊢
    simp only [ih hmode hcs (Nat.le_succ_of_le hp), Nat.add_assoc, Nat.add_comm 1]

end

/-- A selected BMSC at a slot of a transaction that started with two zero bytes: ID mode from slot 2 on (R23). -/
def Bmsc.idSlot (b : Bmsc) (pos : Nat) (x2 x3 : Byte) : Bmsc :=
  { b with cs := true, pos := pos, x0 := 0, x1 := 0, x2 := x2, x3 := x3, bitcnt := 0 }

/-- Two zero bytes enter ID mode and return idle bytes (R134). -/
theorem Bmsc.transferBytes_zero_zero (c : Cfg) (b : Bmsc) :
    (b.chipSelect true).transferBytes c [0, 0] = ([c.bm.idleByte, c.bm.idleByte], b.idSlot 2 b.x2 b.x3) := by
  simp [Bmsc.transferBytes, Bmsc.transferByte, Bmsc.chipSelect, Bmsc.slotOut, Bmsc.slotNext_of_lt_four, Bmsc.slotEvents,
    Bmsc.latch_eq, Bmsc.idSlot]

/-- From slot 2 on ID mode echoes the serial ID, latches the last two bytes of the frame, whatever they are, and counts
(R133, R136, R137). -/
theorem Bmsc.transferBytes_idSlot (c : Cfg) (b : Bmsc) (u2 u3 : Byte) (ins : List Byte) :
    (b.idSlot 2 b.x2 b.x3).transferBytes c (u2 :: u3 :: ins) =
      ((List.range (ins.length + 2)).map (serialIdByte c), b.idSlot (4 + ins.length) u2 u3) := by
  have hout := Bmsc.transferBytes_idMode_out (b := b.idSlot 2 b.x2 b.x3) c rfl rfl (u2 :: u3 :: ins)
  simp only [Bmsc.idSlot, Nat.sub_self, Nat.zero_add] at hout
  have hslot2 : ((b.idSlot 2 b.x2 b.x3).transferByte c u2).2 = b.idSlot 3 u2 b.x3 := by
    rw [Bmsc.transferByte_of_idMode c rfl rfl, Bmsc.slotNext_of_idMode c rfl]
    rfl
  have hslot3 : ((b.idSlot 3 u2 b.x3).transferByte c u3).2 = b.idSlot 4 u2 u3 := by
    rw [Bmsc.transferByte_of_idMode c rfl rfl, Bmsc.slotNext_of_idMode c rfl]
    rfl
  refine Prod.ext hout ?_
  calc ((b.idSlot 2 b.x2 b.x3).transferBytes c (u2 :: u3 :: ins)).2
    _ = ((((b.idSlot 2 b.x2 b.x3).transferByte c u2).2.transferByte c u3).2.transferBytes c ins).2 := rfl
    _ = ((b.idSlot 4 u2 u3).transferBytes c ins).2 := by rw [hslot2, hslot3]
    _ = b.idSlot (4 + ins.length) u2 u3 := Bmsc.transferBytes_idMode_state c rfl rfl (Nat.le_refl 4) ins

/-- Settles O8: the two zero bytes enter ID mode, whose slots echo the serial ID and run nothing. -/
theorem serialIDEchoesFromSlotTwo : Obligations.SerialIDEchoesFromSlotTwo := by
  intro u2 u3 n s
  have hbytes : frameBytes 0 0 u2 u3 n = [0, 0] ++ (u2 :: u3 :: dummySlots n) := rfl
  have hlen : (dummySlots n).length = n + 1 := List.length_replicate
  have hpos : 4 + (n + 1) = 5 + n := by omega
  rw [exec_serialID, runTransaction_next, Bmsc.transaction, hbytes, Bmsc.transferBytes_append,
    Bmsc.transferBytes_zero_zero]
  simp only [Bmsc.transferBytes_idSlot, hlen, hpos]
  rfl

/-- A well-formed unhandled opcode is outside the map, and its frame outside ID mode (R104, R141). -/
theorem Instr.wf_bmUnhandled {c : Cfg} {op p1 p2 chk : Byte} {n : Nat}
    (h : (Instr.bmUnhandled op p1 p2 chk n).wf c = true) : bmOpOf c op = none ∧ ¬(op = 0 ∧ p1 = 0) := by
  simpa only [Instr.wf, Bool.and_eq_true, decide_eq_true_eq] using h

section
variable {c : Cfg} {b : Bmsc}

theorem cmdOut_of_unmapped (h : bmOpOf c b.x0 = none) : cmdOut c b = c.bm.unhandledByte := by
  rw [cmdOut, h]
  rfl

theorem cmdNext_of_unmapped (h : bmOpOf c b.x0 = none) :
    cmdNext c b = if b.pos = 4 then b.raise (.bmUnhandled b.x0) else b := by
  rw [cmdNext, h]
  rfl

end

/-- Settles O9: an opcode outside the map acts once, in slot 4, where it logs its event. -/
theorem unhandledOpcodeIsSignalled : Obligations.UnhandledOpcodeIsSignalled := by
  intro op p1 p2 chk n s hwf
  obtain ⟨hop, hframe⟩ := Instr.wf_bmUnhandled hwf
  rw [exec_bmUnhandled]
  refine runTransaction_once s op p1 p2 chk n (·.raise (.bmUnhandled op)) s.cfg.bm.unhandledByte hframe ?out ?slot4 ?later
    fun b => ⟨rfl, rfl, rfl⟩
  case out => exact fun b hx => cmdOut_of_unmapped (hx ▸ hop)
  case slot4 => exact fun b hx hp => by rw [cmdNext_of_unmapped (hx ▸ hop), if_pos hp, hx]
  case later => exact fun b hx hp => by rw [cmdNext_of_unmapped (hx ▸ hop), if_neg (by omega)]

end Sys2Proof.Machine
end

section
/-! The expansion bus outside the byte slots of a frame: the edges of chip-select (R130, R148), a bus that is not selected
(R131, R146), and the clock periods before the last of a slot (R146, R147). -/

namespace Sys2Proof.Machine

open Sys2Proof

/-- Settles O10, for each edge. -/
theorem chipSelectResetsPosition : Obligations.ChipSelectResetsPosition := by
  intro level s
  rw [exec_setChipSelect]
  cases level with
  | true => rfl
  | false => rfl

theorem Bmsc.transferByte_unselected (c : Cfg) {b : Bmsc} (hcs : b.cs = false) (v : Byte) :
    b.transferByte c v = (c.bm.idleByte, b) := by
  simp [Bmsc.transferByte, hcs]

/-- Settles O11, for the byte form and the clock form. -/
theorem unselectedTransferChangesNothing : Obligations.UnselectedTransferChangesNothing := by
  intro v sdi s hcs
  rw [exec_transferByte, exec_transferByte, execTransferByte, execTransferByte, Bmsc.transferByte_unselected s.cfg hcs,
    Bmsc.shiftBit_unselected hcs]
  exact ⟨rfl, rfl⟩

theorem shiftIn_msbFirst (r : Byte) (sdi : Bool) : shiftIn .msbFirst r sdi = (r <<< 1) ||| (if sdi then 1 else 0) := by
  cases sdi <;> rfl

theorem shiftIn_lsbFirst (r : Byte) (sdi : Bool) : shiftIn .lsbFirst r sdi = (r >>> 1) ||| (if sdi then 0x80 else 0) := by
  cases sdi <;> rfl

/-- A clock period before the last of a slot drives a bit and shifts both registers. -/
theorem exec_shiftBit_inside {s : State} (hcs : s.bmsc.cs = true) (hk : s.bmsc.bitcnt ≠ 7) (sdi : Bool) :
    exec (.transferByte (.bit sdi)) s =
      .next (s.withBmsc
        (s.bmsc.withSerial (shiftIn s.cfg.bm.bitOrder s.bmsc.rxSr sdi)
          (shiftOut s.cfg.bm.bitOrder (s.bmsc.driving s.cfg)).2 (s.bmsc.bitcnt + 1))
        (.bit (shiftOut s.cfg.bm.bitOrder (s.bmsc.driving s.cfg)).1)) := by
  rw [exec_transferByte, execTransferByte, Bmsc.shiftBit_inside hcs hk]

/-- Settles O13: the shift in and the shift out of each bit order. -/
theorem clockPeriodShiftsOneBit : Obligations.ClockPeriodShiftsOneBit := by
  intro sdi s hcs hk
  refine ⟨fun ho => ?msbFirst, fun ho => ?lsbFirst⟩
  case msbFirst =>
    rw [exec_shiftBit_inside hcs hk, ho, shiftIn_msbFirst]
    rfl
  case lsbFirst =>
    rw [exec_shiftBit_inside hcs hk, ho, shiftIn_lsbFirst]
    rfl

end Sys2Proof.Machine
end

section
/-! The default check byte (R139): every pass of its loop is linear over exclusive or, and so is the loop. -/

namespace Sys2Proof.Machine

open Sys2Proof

theorem checkStep_xor (r r' : Word32) (k : Nat) : checkStep (r ^^^ r') k = checkStep r k ^^^ checkStep r' k := by
  unfold checkStep
  rw [BitVec.getLsbD_xor]
  generalize checkGenerator >>> (31 - k) = g
  cases r.getLsbD k <;> cases r'.getLsbD k
  case false.false => rfl
  case false.true => exact show (r ^^^ r') ^^^ g = r ^^^ (r' ^^^ g) by ac_rfl
  case true.false => exact show (r ^^^ r') ^^^ g = (r ^^^ g) ^^^ r' by ac_rfl
  case true.true =>
    calc r ^^^ r'
      _ = (r ^^^ r') ^^^ (g ^^^ g) := by rw [BitVec.xor_self, BitVec.xor_zero]
      _ = (r ^^^ g) ^^^ (r' ^^^ g) := by ac_rfl

/-- The loop over any bit positions is linear. -/
theorem foldl_checkStep_xor (ks : List Nat) (r r' : Word32) :
    ks.foldl (fun r i => checkStep r (31 - i)) (r ^^^ r') =
      ks.foldl (fun r i => checkStep r (31 - i)) r ^^^ ks.foldl (fun r i => checkStep r (31 - i)) r' :=
  List.foldl_hom₂ ks (· ^^^ ·) _ _ _ r r' fun r r' i => (checkStep_xor r r' (31 - i)).symm

theorem checkReduction_xor (a b c a' b' c' : Byte) :
    checkReduction (a ^^^ a') (b ^^^ b') (c ^^^ c') = checkReduction a b c ^^^ checkReduction a' b' c' := by
  have hword : (a ^^^ a') ++ (b ^^^ b') ++ (c ^^^ c') ++ (0 : Byte) =
      (a ++ b ++ c ++ (0 : Byte)) ^^^ (a' ++ b' ++ c' ++ (0 : Byte)) := by
    simp only [BitVec.xor_append, BitVec.xor_self]
    rfl
  rw [checkReduction, hword, foldl_checkStep_xor, BitVec.extractLsb'_xor]
  rfl

theorem checkByte_of_reduction {cfg : Cfg} (h : cfg.bm.checkFn = .reduction) (a b c : Byte) :
    checkByte cfg a b c = checkReduction a b c := by
  rw [checkByte, h]

/-- Settles O17: the reduction is linear, and the vectors are evaluated. -/
theorem checkByteIsLinear : Obligations.CheckByteIsLinear := by
  intro cfg h
  simp only [checkByte_of_reduction h]
  exact ⟨checkReduction_xor, List.all_iff_forall_prop.1 (by decide +kernel)⟩

end Sys2Proof.Machine
end

section
/-! The cursor of the backup store modulo its size (R11, R24): what a seek and the advances put there, and the bytes that the
cursor meets on its way. -/

namespace Sys2Proof.Machine

open Sys2Proof

/-- The cursor at offset `m` of the store, modulo its size: where a seek to `m` puts it (R78). -/
def Bmsc.cursorTo (c : Cfg) (b : Bmsc) (m : Nat) : Bmsc := { b with cursor := BitVec.ofNat 16 (m % c.bm.backupSize) }

theorem Bmsc.advance_eq_cursorTo (c : Cfg) (b : Bmsc) : b.advance c = b.cursorTo c (b.cursor.toNat + 1) := rfl

/-- An offset inside the store is what the 16 bits of a register hold (U12). -/
theorem toNat_storeOffset {c : Cfg} (hl : c.legal = true) (m : Nat) :
    (BitVec.ofNat 16 (m % c.bm.backupSize)).toNat = m % c.bm.backupSize := by
  obtain ⟨hpos, hle⟩ := Cfg.legal_backupSize hl
  exact (BitVec.toNat_ofNat _ _).trans (Nat.mod_eq_of_lt ((Nat.mod_lt m hpos).trans_le hle))

/-- The DMA offset is inside the store, so the DMA operations start at it as it stands (R25, R165, R166). -/
theorem Bmsc.seekDma_eq_cursorTo {c : Cfg} {b : Bmsc} (h : b.Inv c) : b.seekDma = b.cursorTo c b.dmaOff.toNat := by
  rw [Bmsc.cursorTo, Nat.mod_eq_of_lt h.dmaOff, BitVec.ofNat_toNat, BitVec.setWidth_eq]
  rfl

section
variable {c : Cfg} (hl : c.legal = true) (b : Bmsc) (m : Nat)
include hl

theorem Bmsc.advance_cursorTo : (b.cursorTo c m).advance c = b.cursorTo c (m + 1) := by
  rw [Bmsc.advance_eq_cursorTo]
  simp only [Bmsc.cursorTo, toNat_storeOffset hl, Nat.mod_add_mod]

theorem Bmsc.cursorByte_cursorTo : (b.cursorTo c m).cursorByte c = b.bkRead c m := by
  simp only [Bmsc.cursorByte, Bmsc.cursorTo, toNat_storeOffset hl, Bmsc.bkRead_mod]
  rfl

theorem Bmsc.writeByte_cursorTo (v : Byte) : (b.cursorTo c m).writeByte c v = (b.bkWrite c m v).cursorTo c (m + 1) := by
  have hstore : (b.cursorTo c m).bkWrite c (b.cursorTo c m).cursor.toNat v = (b.bkWrite c m v).cursorTo c m := by
    simp only [Bmsc.bkWrite, Bmsc.cursorTo, bkOffset, toNat_storeOffset hl, Nat.mod_mod]
  rw [Bmsc.writeByte, hstore, Bmsc.advance_cursorTo hl]

end

end Sys2Proof.Machine
end

section
/-! The backup-store commands (R160 to R164): the offset, write and DMA commands act once, in slot 4, and acknowledge every
slot; the read command streams. -/

namespace Sys2Proof.Machine

open Sys2Proof

section
variable {c : Cfg} {b : Bmsc}

theorem cmdOut_of_offsetSet (h : bmOpOf c b.x0 = some .offsetSet) : cmdOut c b = c.bm.ackByte := by
  rw [cmdOut, h]
  rfl

theorem cmdNext_of_offsetSet (h : bmOpOf c b.x0 = some .offsetSet) :
    cmdNext c b = if b.pos = 4 then b.seek c b.off16 else b := by
  rw [cmdNext, h]
  rfl

theorem cmdOut_of_write (h : bmOpOf c b.x0 = some .write) : cmdOut c b = c.bm.ackByte := by
  rw [cmdOut, h]
  rfl

theorem cmdNext_of_write (h : bmOpOf c b.x0 = some .write) :
    cmdNext c b = if b.pos = 4 then b.writeByte c b.x1 else b := by
  rw [cmdNext, h]
  rfl

theorem cmdOut_of_dmaSet (h : bmOpOf c b.x0 = some .dmaSet) : cmdOut c b = c.bm.ackByte := by
  rw [cmdOut, h]
  rfl

/-- The DMA command's registers from the latched frame (R163). -/
def Bmsc.setDma (c : Cfg) (b : Bmsc) : Bmsc :=
  { b with dmaOff := BitVec.ofNat 16 (b.off16.toNat % c.bm.backupSize), dmaLen := b.len8 }

theorem cmdNext_of_dmaSet (h : bmOpOf c b.x0 = some .dmaSet) : cmdNext c b = if b.pos = 4 then b.setDma c else b := by
  rw [cmdNext, h]
  rfl

theorem cmdOut_of_read (h : bmOpOf c b.x0 = some .read) : cmdOut c b = b.cursorByte c := by
  rw [cmdOut, h]
  rfl

theorem cmdNext_of_read (h : bmOpOf c b.x0 = some .read) : cmdNext c b = b.advance c := by
  rw [cmdNext, h]
  rfl

end

/-- A command that acts by `f` in slot 4 and in no later slot, and acknowledges every slot (R164). -/
theorem runTransaction_acknowledged (s : State) {op : Byte} (p1 p2 chk : Byte) (n : Nat) (f : Bmsc → Bmsc) (hop : op ≠ 0)
    (hout : ∀ b : Bmsc, b.x0 = op → cmdOut s.cfg b = s.cfg.bm.ackByte)
    (hnext : ∀ b : Bmsc, b.x0 = op → cmdNext s.cfg b = if b.pos = 4 then f b else b)
    (hf : ∀ b : Bmsc, (f b).x0 = b.x0 ∧ (f b).x1 = b.x1 ∧ (f b).cs = b.cs) :
    runTransaction (frameBytes op p1 p2 chk n) s =
      .next (s.withBmsc { f (s.bmsc.latched s.cfg op p1 p2 chk) with cs := false, pos := 5 + n, bitcnt := 0 }
        (framedOut s.cfg (List.replicate (n + 1) s.cfg.bm.ackByte))) := by
  refine runTransaction_once s op p1 p2 chk n f s.cfg.bm.ackByte (fun h => hop h.1) hout ?slot4 ?later hf
  case slot4 => exact fun b hx hp => (hnext b hx).trans (if_pos hp)
  case later => exact fun b hx hp => (hnext b hx).trans (if_neg (Nat.ne_of_gt hp))

/-- Settles O1: both commands act once, in slot 4, on the operand that the frame latched. -/
theorem offsetCommandsSetTheirRegisters : Obligations.OffsetCommandsSetTheirRegisters := by
  intro off16 chk len8 n s hl
  refine ⟨?offsetSet, ?dmaSet⟩
  case offsetSet =>
    have hop := bmOpOf_opOffsetSet hl
    rw [exec_backupOffsetSet, runTransaction_acknowledged s _ _ _ n (fun b => b.seek s.cfg b.off16) (opOffsetSet_ne_zero hl)
      (fun b hx => cmdOut_of_offsetSet (hx ▸ hop)) (fun b hx => cmdNext_of_offsetSet (hx ▸ hop)) fun b => ⟨rfl, rfl, rfl⟩]
    simp only [Bmsc.seek, Bmsc.off16, Bmsc.latched, hiLo_bytes, Bmsc.framed]
  case dmaSet =>
    have hop := bmOpOf_opDmaSet hl
    rw [exec_dmaOffsetLengthSet, runTransaction_acknowledged s _ _ _ n (·.setDma s.cfg) (opDmaSet_ne_zero hl)
      (fun b hx => cmdOut_of_dmaSet (hx ▸ hop)) (fun b hx => cmdNext_of_dmaSet (hx ▸ hop)) fun b => ⟨rfl, rfl, rfl⟩]
    simp only [Bmsc.setDma, Bmsc.off16, Bmsc.len8, Bmsc.latched, hiLo_bytes, Bmsc.framed]

/-- Settles O2: the write acts once, in slot 4, and the store after it is the store with one byte written at the cursor. -/
theorem backupWriteStoresOneByte : Obligations.BackupWriteStoresOneByte := by
  intro d u2 chk n s hl
  have hop := bmOpOf_opWrite hl
  refine ⟨(s.bmsc.bkWrite s.cfg s.bmsc.cursor.toNat d).bk, ?next, fun a ha => ?store⟩
  case next =>
    rw [exec_backupWrite, runTransaction_acknowledged s _ _ _ n (fun b => b.writeByte s.cfg b.x1) (opWrite_ne_zero hl)
      (fun b hx => cmdOut_of_write (hx ▸ hop)) (fun b hx => cmdNext_of_write (hx ▸ hop)) fun b => ⟨rfl, rfl, rfl⟩]
    rfl
  case store =>
    have hread := Bmsc.bkRead_bkWrite s.cfg s.bmsc s.bmsc.cursor.toNat d a
    rwa [Nat.mod_eq_of_lt ha] at hread

/-- The BMSC at slot `p` with the cursor at offset `m`: where the slots of a read command lead. -/
def Bmsc.streamAt (c : Cfg) (b : Bmsc) (m p : Nat) : Bmsc := { b.cursorTo c m with pos := p }

section
variable {c : Cfg} (hl : c.legal = true) {b : Bmsc} (hcs : b.cs = true) (hx : b.x0 = c.bm.opRead)
include hl hcs hx

/-- A slot of the read command returns the byte at the cursor and advances the cursor (R162). -/
theorem Bmsc.transferByte_read (hp : 4 ≤ b.pos) (v : Byte) :
    b.transferByte c v = (b.cursorByte c, { b.advance c with pos := b.pos + 1 }) := by
  have hop : bmOpOf c b.x0 = some .read := hx ▸ bmOpOf_opRead hl
  have hid : b.idMode = false := Bmsc.idMode_false (.inl (hx ▸ opRead_ne_zero hl))
  rw [Bmsc.transferByte_command c b v hcs hp hid, cmdOut_of_read hop, cmdNext_of_read hop]

theorem Bmsc.transferByte_streamAt (m : Nat) {p : Nat} (hp : 4 ≤ p) (v : Byte) :
    (b.streamAt c m p).transferByte c v = (b.bkRead c m, b.streamAt c (m + 1) (p + 1)) := by
  refine (Bmsc.transferByte_read (b := b.streamAt c m p) hl hcs hx hp v).trans ?_
  refine Prod.ext (Bmsc.cursorByte_cursorTo hl b m) ?_
  exact congrArg (fun b' : Bmsc => { b' with pos := p + 1 }) (Bmsc.advance_cursorTo hl b m)

/-- The slots of a stream that starts inside the store. -/
theorem Bmsc.transferBytes_streamAt (ins : List Byte) (m : Nat) {p : Nat} (hp : 4 ≤ p) :
    (b.streamAt c m p).transferBytes c ins =
      ((List.range' m ins.length).map (b.bkRead c), b.streamAt c (m + ins.length) (p + ins.length)) := by
  induction ins generalizing m p with
  | nil => rfl
  | cons v vs ih =>
    rw [Bmsc.transferBytes, Bmsc.transferByte_streamAt hl hcs hx m hp, List.length_cons, List.range'_succ]
    simp only [ih (m + 1) (Nat.le_succ_of_le hp), List.map_cons, Nat.add_right_comm _ 1, Nat.add_assoc _ _ 1]

/-- The slots of a read command return the bytes from the cursor on: the first at the cursor as it stands, the others inside
the store (R162). -/
theorem Bmsc.transferBytes_read (hp : 4 ≤ b.pos) (v : Byte) (vs : List Byte) :
    b.transferBytes c (v :: vs) =
      ((List.range' b.cursor.toNat (vs.length + 1)).map (b.bkRead c),
        b.streamAt c (b.cursor.toNat + (vs.length + 1)) (b.pos + (vs.length + 1))) := by
  have hfirst : b.transferByte c v = (b.bkRead c b.cursor.toNat, b.streamAt c (b.cursor.toNat + 1) (b.pos + 1)) :=
    Bmsc.transferByte_read hl hcs hx hp v
  rw [Bmsc.transferBytes, hfirst, List.range'_succ]
  simp only [Bmsc.transferBytes_streamAt hl hcs hx vs _ (Nat.le_succ_of_le hp), List.map_cons, Nat.add_right_comm _ 1,
    Nat.add_assoc _ _ 1]

end

/-- The bytes that a cursor meets from `m` on, slot by slot. -/
theorem Bmsc.map_bkRead_range' (c : Cfg) (b : Bmsc) (m n : Nat) :
    (List.range' m n).map (b.bkRead c) = (List.range n).map fun k => b.bkRead c ((m + k) % c.bm.backupSize) := by
  simp only [List.range'_eq_map_range, List.map_map, Function.comp_def, Bmsc.bkRead_mod]

/-- Settles O3: the slots from slot 4 on stream from the cursor that the frame left alone. -/
theorem backupReadStreamsFromCursor : Obligations.BackupReadStreamsFromCursor := by
  intro u1 u2 chk n s hl
  have hstream := Bmsc.transferBytes_read (b := s.bmsc.latched s.cfg s.cfg.bm.opRead u1 u2 chk) hl rfl rfl (Nat.le_refl 4)
    0 (List.replicate n 0)
  have hpos : 5 + n = 4 + (n + 1) := by omega
  rw [List.length_replicate, Bmsc.map_bkRead_range'] at hstream
  rw [exec_backupRead, runTransaction_frame _ _ _ _ _ _ fun h => opRead_ne_zero hl h.1, dummySlots, List.replicate_succ,
    hstream, Bmsc.framed, hpos]
  rfl

/-- A run goes on from the state its first instruction answers. -/
theorem execAll_cons {i : Instr} {is : List Instr} {s t : State} (h : exec i s = .next t) :
    execAll (i :: is) s = execAll is t := by
  rw [execAll, h]

/-- What a read from an offset needs of the offset command: the cursor there, the store and the configuration as before. -/
theorem exec_backupOffsetSet_cursor {s : State} (hl : s.cfg.legal = true) (off16 : Word16) (chk : Byte) (n : Nat) :
    ∃ t : State, exec (.backupOffsetSet off16 chk n) s = .next t ∧ t.cfg = s.cfg ∧ t.bmsc.bk = s.bmsc.bk
      ∧ t.bmsc.cursor.toNat = off16.toNat % s.cfg.bm.backupSize :=
  ⟨_, (offsetCommandsSetTheirRegisters off16 chk 0 n s hl).1, rfl, rfl, toNat_storeOffset hl _⟩

/-- What a read from an offset needs of the write command: the byte at the offset that held the cursor. -/
theorem exec_backupWrite_store {s : State} (hl : s.cfg.legal = true) (d u2 chk : Byte) (n : Nat) :
    ∃ t : State, exec (.backupWrite d u2 chk n) s = .next t ∧ t.cfg = s.cfg
      ∧ t.bmsc.bkRead s.cfg s.bmsc.cursor.toNat = d := by
  obtain ⟨bk, hnext, hstore⟩ := backupWriteStoresOneByte d u2 chk n s hl
  have hread := hstore _ (Nat.mod_lt s.bmsc.cursor.toNat (Cfg.legal_backupSize hl).1)
  rw [if_pos rfl, Bmsc.bkRead_mod] at hread
  exact ⟨_, hnext, rfl, hread⟩

/-- The first data byte of a read is the byte at the cursor. -/
theorem exec_backupRead_first {s : State} (hl : s.cfg.legal = true) (u1 u2 chk : Byte) (n : Nat) :
    ∃ (t : State) (more : List Byte), exec (.backupRead u1 u2 chk n) s = .next t
      ∧ t.result = .bytes (List.replicate 4 s.cfg.bm.idleByte ++ s.bmsc.bkRead s.cfg s.bmsc.cursor.toNat :: more) := by
  have hread := backupReadStreamsFromCursor u1 u2 chk n s hl
  rw [List.range_succ_eq_map, List.map_cons, Nat.add_zero, Bmsc.bkRead_mod] at hread
  exact ⟨_, _, hread, rfl⟩

/-- Settles O4: the second offset command puts the cursor back where the byte was stored. -/
theorem backupByteReadsBack : Obligations.BackupByteReadsBack := by
  intro off16 d u2 k1 k2 k3 k4 u1 n m s hl
  obtain ⟨s1, hseek, hcfg1, -, hcur1⟩ := exec_backupOffsetSet_cursor hl off16 k1 n
  obtain ⟨s2, hwrite, hcfg2, hstored⟩ := exec_backupWrite_store (hcfg1 ▸ hl) d u2 k2 m
  rw [hcfg1] at hcfg2
  obtain ⟨s3, hback, hcfg3, hbk3, hcur3⟩ := exec_backupOffsetSet_cursor (hcfg2 ▸ hl) off16 k3 n
  rw [hcfg2] at hcfg3 hcur3
  obtain ⟨t, more, hread, hresult⟩ := exec_backupRead_first (hcfg3 ▸ hl) u1 u2 k4 m
  have hbyte : s3.bmsc.bkRead s.cfg s3.bmsc.cursor.toNat = d := by
    rw [Bmsc.bkRead_congr s.cfg hbk3, hcur3, ← hcur1, ← hcfg1, hstored]
  rw [hcfg3, hbyte] at hresult
  refine ⟨t, more, ?_, hresult⟩
  rw [execAll_cons hseek, execAll_cons hwrite, execAll_cons hback, execAll_cons hread, execAll]

end Sys2Proof.Machine
end

section
/-! The two DMA operations (R165, R166): one byte after another from the DMA offset. -/

namespace Sys2Proof.Machine

open Sys2Proof

theorem guestRead_length {gm : List Host.Cell} {a n : Nat} {vs : List Byte} (h : guestRead gm a n = some vs) :
    vs.length = n := by
  induction n generalizing a vs with
  | zero =>
    cases h
    rfl
  | succ n ih =>
    rw [guestRead] at h
    split at h
    · next _ rest _ hrest =>
      cases h
      exact congrArg (· + 1) (ih hrest)
    · cases h

section
variable {c : Cfg} (hl : c.legal = true)
include hl

/-- The first byte of a DMA is stored at the cursor, the others from the next offset on (R165). -/
theorem Bmsc.storeAll_cons_cursorTo (b : Bmsc) (m : Nat) (v : Byte) (vs : List Byte) :
    (b.cursorTo c m).storeAll c (v :: vs) = ((b.bkWrite c m v).cursorTo c (m + 1)).storeAll c vs := by
  rw [Bmsc.storeAll, Bmsc.writeByte_cursorTo hl]

/-- Bytes stored from offset `m` change the store and the cursor alone, which ends past the last (R165). -/
theorem Bmsc.storeAll_frame (b : Bmsc) (m : Nat) (vs : List Byte) :
    (b.cursorTo c m).storeAll c vs =
      { b.cursorTo c (m + vs.length) with bk := ((b.cursorTo c m).storeAll c vs).bk } := by
  induction vs generalizing b m with
  | nil => rfl
  | cons v vs ih =>
    rw [Bmsc.storeAll_cons_cursorTo hl, ih, List.length_cons, Nat.add_right_comm m 1, Nat.add_assoc m]
    rfl

/-- An offset that no stored byte falls on reads as before. -/
theorem Bmsc.bkRead_storeAll_outside (b : Bmsc) (m : Nat) (vs : List Byte) {x : Nat}
    (hx : ∀ i, i < vs.length → (m + i) % c.bm.backupSize ≠ x % c.bm.backupSize) :
    ((b.cursorTo c m).storeAll c vs).bkRead c x = b.bkRead c x := by
  induction vs generalizing b m with
  | nil => rfl
  | cons v vs ih =>
    have hhead : m % c.bm.backupSize ≠ x % c.bm.backupSize := hx 0 (Nat.succ_pos _)
    have htail (i : Nat) (hi : i < vs.length) : (m + 1 + i) % c.bm.backupSize ≠ x % c.bm.backupSize := by
      rw [Nat.add_right_comm]
      exact hx (i + 1) (Nat.succ_lt_succ hi)
    rw [Bmsc.storeAll_cons_cursorTo hl, ih _ _ htail, Bmsc.bkRead_bkWrite, if_neg hhead.symm]

/-- A stored byte that no later one falls on is what its offset reads. -/
theorem Bmsc.bkRead_storeAll_at (b : Bmsc) (m : Nat) (vs : List Byte) {i : Nat} (hi : i < vs.length)
    (hlast : ∀ k, i < k → k < vs.length → (m + k) % c.bm.backupSize ≠ (m + i) % c.bm.backupSize) :
    ((b.cursorTo c m).storeAll c vs).bkRead c (m + i) = vs.getD i 0 := by
  induction vs generalizing b m i with
  | nil => exact absurd hi (Nat.not_lt_zero i)
  | cons v vs ih =>
    rw [Bmsc.storeAll_cons_cursorTo hl]
    cases i with
    | zero =>
      have hlater (k : Nat) (hk : k < vs.length) : (m + 1 + k) % c.bm.backupSize ≠ m % c.bm.backupSize := by
        rw [Nat.add_right_comm]
        exact hlast (k + 1) (Nat.succ_pos k) (Nat.succ_lt_succ hk)
      rw [Nat.add_zero m, Bmsc.bkRead_storeAll_outside hl _ _ vs hlater, Bmsc.bkRead_bkWrite, if_pos rfl]
      rfl
    | succ i =>
      have hshift (k : Nat) : m + (k + 1) = m + 1 + k := Nat.add_right_comm m k 1
      have hlater (k : Nat) (hik : i < k) (hk : k < vs.length) :
          (m + 1 + k) % c.bm.backupSize ≠ (m + 1 + i) % c.bm.backupSize := by
        rw [← hshift, ← hshift]
        exact hlast (k + 1) (Nat.succ_lt_succ hik) (Nat.succ_lt_succ hk)
      rw [hshift i]
      exact ih _ _ (Nat.lt_of_succ_lt_succ hi) hlater

/-- The reads of a DMA change the guest record and the cursor alone (R166). -/
theorem Bmsc.loadAll_cursorTo (b : Bmsc) (m addr n : Nat) :
    (b.cursorTo c m).loadAll c addr n =
      { b.cursorTo c (m + n) with
        guestOut := b.guestOut ++ (List.range' addr n).zip ((List.range' m n).map (b.bkRead c)) } := by
  induction n generalizing b m addr with
  | zero => simp [Bmsc.loadAll, Bmsc.cursorTo]
  | succ n ih =>
    have hstep : ((b.cursorTo c m).guestWrite addr ((b.cursorTo c m).cursorByte c)).advance c =
        (b.guestWrite addr (b.bkRead c m)).cursorTo c (m + 1) := by
      rw [Bmsc.cursorByte_cursorTo hl, ← Bmsc.advance_cursorTo hl]
      rfl
    rw [Bmsc.loadAll, hstep, ih, Bmsc.guestWrite_guestOut, List.append_assoc, List.range'_succ, List.range'_succ,
      List.map_cons, List.zip_cons_cons, Nat.add_right_comm m 1, Nat.add_assoc m]
    rfl

end

/-- The guest addresses of a DMA read with the store's bytes, pair by pair. -/
theorem Bmsc.zip_range'_bkRead (c : Cfg) (b : Bmsc) (addr m n : Nat) :
    (List.range' addr n).zip ((List.range' m n).map (b.bkRead c)) =
      (List.range n).map fun i => (addr + i, b.bkRead c ((m + i) % c.bm.backupSize)) := by
  rw [Bmsc.map_bkRead_range', List.range'_eq_map_range, List.zip_map']

/-- Settles O18: the bytes are stored from the DMA offset on. -/
theorem dmaWriteStoresGuestBytes : Obligations.DmaWriteStoresGuestBytes := by
  intro addr len gm vs s hl hinv hread
  obtain rfl := guestRead_length hread
  have hseek := Bmsc.seekDma_eq_cursorTo ((Bmsc.inv_iff _ _).1 hinv)
  refine ⟨(s.bmsc.seekDma.storeAll s.cfg vs).bk, ?next, fun i hi hlast => ?stored, fun a ha hout => ?outside⟩
  case next =>
    rw [exec_dmaWrite_of_backed s hread, hseek, Bmsc.storeAll_frame hl]
    rfl
  case stored =>
    rw [Bmsc.bkRead_mod, hseek, ← Bmsc.bkRead_storeAll_at hl s.bmsc _ vs hi hlast]
    rfl
  case outside =>
    rw [hseek, ← Bmsc.bkRead_storeAll_outside hl s.bmsc _ vs fun i hi => (Nat.mod_eq_of_lt ha).symm ▸ hout i hi]
    rfl

/-- Settles O19: the bytes are read from the DMA offset on. -/
theorem dmaReadSendsStoreBytes : Obligations.DmaReadSendsStoreBytes := by
  intro addr len gm s hl hinv hread
  obtain ⟨vs, hvs⟩ := Option.isSome_iff_exists.1 hread
  rw [exec_dmaRead_of_backed s hvs, Bmsc.seekDma_eq_cursorTo ((Bmsc.inv_iff _ _).1 hinv), Bmsc.loadAll_cursorTo hl,
    Bmsc.zip_range'_bkRead]
  rfl

end Sys2Proof.Machine
end

section
/-! The interrupt commands (R180 to R186): the status read streams and clears, the mask read streams, and the three writes act
once, in slot 4, and acknowledge every slot. -/

namespace Sys2Proof.Machine

open Sys2Proof

section
variable {c : Cfg} {b : Bmsc}

theorem cmdOut_of_isrRead (h : bmOpOf c b.x0 = some .isrRead) : cmdOut c b = b.isr := by
  rw [cmdOut, h]
  rfl

theorem cmdNext_of_isrRead (h : bmOpOf c b.x0 = some .isrRead) :
    cmdNext c b = if b.pos = 4 then b else { b with isr := 0, irqPending := false } := by
  rw [cmdNext, h]
  rfl

theorem cmdOut_of_isrWrite (h : bmOpOf c b.x0 = some .isrWrite) : cmdOut c b = c.bm.ackByte := by
  rw [cmdOut, h]
  rfl

theorem cmdNext_of_isrWrite (h : bmOpOf c b.x0 = some .isrWrite) :
    cmdNext c b = if b.pos = 4 then { b with isr := b.x1 } else b := by
  rw [cmdNext, h]
  rfl

theorem cmdOut_of_imrRead (h : bmOpOf c b.x0 = some .imrRead) : cmdOut c b = b.imr := by
  rw [cmdOut, h]
  rfl

theorem cmdNext_of_imrRead (h : bmOpOf c b.x0 = some .imrRead) : cmdNext c b = b := by
  rw [cmdNext, h]
  rfl

theorem cmdOut_of_imrWrite (h : bmOpOf c b.x0 = some .imrWrite) : cmdOut c b = c.bm.ackByte := by
  rw [cmdOut, h]
  rfl

theorem cmdNext_of_imrWrite (h : bmOpOf c b.x0 = some .imrWrite) :
    cmdNext c b = if b.pos = 4 then { b with imr := b.x1 } else b := by
  rw [cmdNext, h]
  rfl

theorem cmdOut_of_lancntWrite (h : bmOpOf c b.x0 = some .lancntWrite) : cmdOut c b = c.bm.ackByte := by
  rw [cmdOut, h]
  rfl

theorem cmdNext_of_lancntWrite (h : bmOpOf c b.x0 = some .lancntWrite) :
    cmdNext c b = if b.pos = 4 then b.lanControl c else b := by
  rw [cmdNext, h]
  rfl

end

section
variable {c : Cfg} (hl : c.legal = true) {b : Bmsc} (hcs : b.cs = true) (hx : b.x0 = c.bm.opIsrRead)
include hl hcs hx

/-- A slot of the status read returns the status; slot 4 leaves it, a later one clears it with the pending flag (R180, R181). -/
theorem Bmsc.transferByte_isrRead (hp : 4 ≤ b.pos) (v : Byte) :
    b.transferByte c v =
      (b.isr, { (if b.pos = 4 then b else { b with isr := 0, irqPending := false }) with pos := b.pos + 1 }) := by
  have hop : bmOpOf c b.x0 = some .isrRead := hx ▸ bmOpOf_opIsrRead hl
  have hid : b.idMode = false := Bmsc.idMode_false (.inl (hx ▸ opIsrRead_ne_zero hl))
  rw [Bmsc.transferByte_command c b v hcs hp hid, cmdOut_of_isrRead hop, cmdNext_of_isrRead hop]

/-- Once the status and the flag are clear, the stream returns zeros and moves the position alone (R181). -/
theorem Bmsc.transferBytes_isrRead_clear (hp : 4 < b.pos) (hisr : b.isr = 0) (hirq : b.irqPending = false) (n : Nat) :
    b.transferBytes c (List.replicate n 0) = (List.replicate n 0, { b with pos := b.pos + n }) := by
  have hop : bmOpOf c b.x0 = some .isrRead := hx ▸ bmOpOf_opIsrRead hl
  refine Bmsc.transferBytes_idle c 0 n b hcs (Nat.le_of_lt hp) (.inl (hx ▸ opIsrRead_ne_zero hl)) ?out ?next
  case out => exact fun k _ => (cmdOut_of_isrRead hop).trans hisr
  case next =>
    intro k hk
    refine (cmdNext_of_isrRead (b := { b with pos := k }) hop).trans ?_
    rw [if_neg (Nat.ne_of_gt (Nat.lt_of_lt_of_le hp hk))]
    simp only [hisr, hirq]

/-- The stream of the status read returns the status once, clears it with the flag, and then returns zeros (R181). -/
theorem Bmsc.transferBytes_isrRead_stream (hp : 4 < b.pos) (n : Nat) :
    b.transferBytes c (List.replicate (n + 1) 0) =
      (b.isr :: List.replicate n 0, { b with isr := 0, irqPending := false, pos := b.pos + 1 + n }) := by
  have hclear := Bmsc.transferBytes_isrRead_clear (b := { b with isr := 0, irqPending := false, pos := b.pos + 1 }) hl hcs hx
    (Nat.lt_succ_of_lt hp) rfl rfl n
  rw [List.replicate_succ, Bmsc.transferBytes, Bmsc.transferByte_isrRead hl hcs hx (Nat.le_of_lt hp),
    if_neg (Nat.ne_of_gt hp)]
  simp only [hclear]

end

/-- Settles O5: slot 4 returns the status of the latched frame, and what follows it is the stream. -/
theorem readISRStreamsThenClears : Obligations.ReadISRStreamsThenClears := by
  intro u1 u2 chk s hl
  have hslot4 : (s.bmsc.latched s.cfg s.cfg.bm.opIsrRead u1 u2 chk).transferByte s.cfg 0 =
      (s.bmsc.isr, { s.bmsc.latched s.cfg s.cfg.bm.opIsrRead u1 u2 chk with pos := 5 }) :=
    Bmsc.transferByte_isrRead hl rfl rfl (Nat.le_refl 4) 0
  have hexec (n : Nat) := runTransaction_frame s.cfg.bm.opIsrRead u1 u2 chk n s fun h => opIsrRead_ne_zero hl h.1
  simp only [dummySlots, List.replicate_succ, Bmsc.transferBytes, hslot4] at hexec
  refine ⟨?slot4, fun n => ?stream⟩
  case slot4 => exact (exec_readISR u1 u2 chk 0 s).trans (hexec 0)
  case stream =>
    have hstream := Bmsc.transferBytes_isrRead_stream
      (b := { s.bmsc.latched s.cfg s.cfg.bm.opIsrRead u1 u2 chk with pos := 5 }) hl rfl rfl (Nat.lt_succ_self 4) n
    have hpos : 5 + 1 + n = 5 + (n + 1) := by omega
    rw [exec_readISR, hexec, hstream, hpos]
    rfl

/-- The mask read changes no state: every command slot returns the mask (R183). -/
theorem exec_readIMR_eq {s : State} (hl : s.cfg.legal = true) (u1 u2 chk : Byte) (n : Nat) :
    exec (.readIMR u1 u2 chk n) s =
      .next (s.withBmsc (s.bmsc.framed s.cfg s.cfg.bm.opImrRead u1 u2 chk n)
        (framedOut s.cfg (List.replicate (n + 1) s.bmsc.imr))) := by
  have hop := bmOpOf_opImrRead hl
  have hslots := Bmsc.transferBytes_idle s.cfg s.bmsc.imr (n + 1) (s.bmsc.latched s.cfg s.cfg.bm.opImrRead u1 u2 chk) rfl
    (Nat.le_refl 4) (.inl (opImrRead_ne_zero hl)) (fun _ _ => cmdOut_of_imrRead hop) fun _ _ => cmdNext_of_imrRead hop
  have hpos : 5 + n = 4 + (n + 1) := by omega
  rw [exec_readIMR, runTransaction_frame _ _ _ _ _ _ fun h => opImrRead_ne_zero hl h.1, dummySlots, hslots, Bmsc.framed, hpos]
  rfl

/-- Settles O6: both writes act once, in slot 4, on the byte that the frame latched; the mask read acts in no slot. -/
theorem statusAndMaskAreStoredAndMaskRead : Obligations.StatusAndMaskAreStoredAndMaskRead := by
  intro v u1 u2 chk n s hl
  refine ⟨?writeISR, ?writeIMR, exec_readIMR_eq hl u1 u2 chk n⟩
  case writeISR =>
    have hop := bmOpOf_opIsrWrite hl
    rw [exec_writeISR, runTransaction_acknowledged s v u2 chk n (fun b => { b with isr := b.x1 })
      (opIsrWrite_ne_zero hl) (fun b hx => cmdOut_of_isrWrite (hx ▸ hop)) (fun b hx => cmdNext_of_isrWrite (hx ▸ hop))
      fun b => ⟨rfl, rfl, rfl⟩]
    rfl
  case writeIMR =>
    have hop := bmOpOf_opImrWrite hl
    rw [exec_writeIMR, runTransaction_acknowledged s v u2 chk n (fun b => { b with imr := b.x1 })
      (opImrWrite_ne_zero hl) (fun b hx => cmdOut_of_imrWrite (hx ▸ hop)) (fun b hx => cmdNext_of_imrWrite (hx ▸ hop))
      fun b => ⟨rfl, rfl, rfl⟩]
    rfl

/-- Settles O7: the command acts once, in slot 4, on the pair that the frame latched. -/
theorem lanControlDrivesInterrupt : Obligations.LanControlDrivesInterrupt := by
  intro a b chk n s hl
  have hop := bmOpOf_opLancntWrite hl
  have hframe (b : Bmsc) : (b.lanControl s.cfg).x0 = b.x0 ∧ (b.lanControl s.cfg).x1 = b.x1
      ∧ (b.lanControl s.cfg).cs = b.cs := by
    rw [Bmsc.lanControl_frame]
    exact ⟨rfl, rfl, rfl⟩
  have hpair : (s.bmsc.latched s.cfg s.cfg.bm.opLancntWrite a b chk).lanParams = (a, b) := rfl
  rw [exec_writeLANCNT, runTransaction_acknowledged s a b chk n (·.lanControl s.cfg) (opLancntWrite_ne_zero hl)
    (fun b hx => cmdOut_of_lancntWrite (hx ▸ hop)) (fun b hx => cmdNext_of_lancntWrite (hx ▸ hop)) hframe]
  simp only [Bmsc.lanControl, hpair]
  by_cases hassert : (a, b) = s.cfg.bm.lancntAssert
  · simp only [if_pos hassert]
    rfl
  by_cases hclear : (a, b) = s.cfg.bm.lancntClear
  · simp only [if_neg hassert, if_pos hclear]
    rfl
  · simp only [if_neg hassert, if_neg hclear]
    rfl

end Sys2Proof.Machine
end

section
/-! Where the pending flag can change (R187): of the byte slots, slot 4 of a LAN-control write with one of the two patterns and
the stream of a status read; of the operations, those, a poll past the limit, and reset. -/

namespace Sys2Proof.Machine

open Sys2Proof

/-- A slot whose command can change the pending flag (R181, R185). -/
def Bmsc.DrivesPending (c : Cfg) (b : Bmsc) : Prop :=
  (b.pos = 4 ∧ b.x0 = c.bm.opLancntWrite ∧ (b.lanParams = c.bm.lancntAssert ∨ b.lanParams = c.bm.lancntClear))
    ∨ (4 < b.pos ∧ b.x0 = c.bm.opIsrRead)

section
variable {c : Cfg} {b : Bmsc}

theorem Bmsc.DrivesPending.four_le (h : b.DrivesPending c) : 4 ≤ b.pos := by
  rcases h with ⟨hp, -⟩ | ⟨hp, -⟩ <;> omega

theorem Bmsc.DrivesPending.opcode (h : b.DrivesPending c) : b.x0 = c.bm.opLancntWrite ∨ b.x0 = c.bm.opIsrRead :=
  h.imp (fun ⟨_, hx, _⟩ => hx) fun ⟨_, hx⟩ => hx

/-- The status read's opcode is the only one that selects it (R103). -/
theorem eq_opIsrRead_of_bmOpOf {x : Byte} (h : bmOpOf c x = some .isrRead) : x = c.bm.opIsrRead := by
  simpa [bmTable] using mem_of_lookup _ _ _ h

/-- The LAN-control write's opcode is the only one that selects it (R103). -/
theorem eq_opLancntWrite_of_bmOpOf {x : Byte} (h : bmOpOf c x = some .lancntWrite) : x = c.bm.opLancntWrite := by
  simpa [bmTable] using mem_of_lookup _ _ _ h

/-- A pair of parameters that is neither pattern leaves the BMSC as it is (R185). -/
theorem Bmsc.lanControl_of_other (h : ¬(b.lanParams = c.bm.lancntAssert ∨ b.lanParams = c.bm.lancntClear)) :
    b.lanControl c = b := by
  obtain ⟨hassert, hclear⟩ := not_or.1 h
  rw [Bmsc.lanControl, if_neg hassert, if_neg hclear]

/-- A command that acts in slot 4 alone keeps the pending flag where its action does. -/
theorem ite_irqPending {p : Prop} [Decidable p] {b' : Bmsc} (h : p → b'.irqPending = b.irqPending) :
    (if p then b' else b).irqPending = b.irqPending := by
  split
  · next hp => exact h hp
  · rfl

/-- A command's slot keeps the pending flag but where R187 names it. -/
theorem cmdNext_irqPending (hp : 4 ≤ b.pos) (hn : ¬b.DrivesPending c) : (cmdNext c b).irqPending = b.irqPending := by
  cases ho : bmOpOf c b.x0 with
  | none => exact cmdNext_of_unmapped ho ▸ ite_irqPending fun _ => rfl
  | some op =>
    cases op with
    | offsetSet => exact cmdNext_of_offsetSet ho ▸ ite_irqPending fun _ => rfl
    | write => exact cmdNext_of_write ho ▸ ite_irqPending fun _ => rfl
    | read => rw [cmdNext_of_read ho, Bmsc.advance_irqPending]
    | dmaSet => exact cmdNext_of_dmaSet ho ▸ ite_irqPending fun _ => rfl
    | isrRead =>
      have hpos : b.pos = 4 := by
        by_contra hne
        exact hn (.inr ⟨by omega, eq_opIsrRead_of_bmOpOf ho⟩)
      rw [cmdNext_of_isrRead ho, if_pos hpos]
    | isrWrite => exact cmdNext_of_isrWrite ho ▸ ite_irqPending fun _ => rfl
    | imrRead => rw [cmdNext_of_imrRead ho]
    | imrWrite => exact cmdNext_of_imrWrite ho ▸ ite_irqPending fun _ => rfl
    | lancntWrite =>
      refine cmdNext_of_lancntWrite ho ▸ ite_irqPending fun hpos => ?_
      rw [Bmsc.lanControl_of_other fun hpair => hn (.inl ⟨hpos, eq_opLancntWrite_of_bmOpOf ho, hpair⟩)]

theorem Bmsc.latch_irqPending (b : Bmsc) (v : Byte) : (b.latch v).irqPending = b.irqPending := by
  rw [Bmsc.latch_eq]

/-- A selected byte slot keeps the pending flag but as the slot of a command that R187 names, outside ID mode. -/
theorem Bmsc.slotNext_irqPending (hcs : b.cs = true) (hn : ¬(b.idMode = false ∧ b.DrivesPending c)) (v : Byte) :
    (b.slotNext c v).irqPending = b.irqPending := by
  by_cases hp : b.pos < 4
  · rw [Bmsc.slotNext_of_lt_four c v hp]
    exact Bmsc.latch_irqPending b v
  cases hid : b.idMode with
  | true =>
    rw [Bmsc.slotNext_of_idMode c hid]
    exact Bmsc.latch_irqPending b v
  | false =>
    have hslot : b.transferByte c v = (b.slotOut c, b.slotNext c v) := if_pos hcs
    rw [Bmsc.transferByte_command c b v hcs (Nat.not_lt.1 hp) hid] at hslot
    calc (b.slotNext c v).irqPending
      _ = (cmdNext c b).irqPending := congrArg (fun r => r.2.irqPending) hslot.symm
      _ = b.irqPending := cmdNext_irqPending (Nat.not_lt.1 hp) fun h => hn ⟨hid, h⟩

/-- A byte slot that changes the pending flag is a selected one that R187 names. -/
theorem Bmsc.transferByte_irqPending {v : Byte} (h : (b.transferByte c v).2.irqPending ≠ b.irqPending) :
    b.cs = true ∧ b.idMode = false ∧ b.DrivesPending c := by
  unfold Bmsc.transferByte at h
  split at h
  · next hcs => exact ⟨hcs, not_not.1 fun hn => h (Bmsc.slotNext_irqPending hcs hn v)⟩
  · exact absurd rfl h

/-- A clock period that changes the pending flag is the last of a slot that R187 names. -/
theorem Bmsc.shiftBit_irqPending {sdi : Bool} (h : (b.shiftBit c sdi).2.irqPending ≠ b.irqPending) :
    b.cs = true ∧ b.idMode = false ∧ b.DrivesPending c := by
  obtain ⟨rx, tx, k, hs | ⟨hcs, v, hs⟩⟩ := Bmsc.shiftBit_state c b sdi
  · exact absurd (congrArg Bmsc.irqPending hs) h
  · exact ⟨hcs, not_not.1 fun hn => h ((congrArg Bmsc.irqPending hs).trans (Bmsc.slotNext_irqPending hcs hn v))⟩

/-- The slots behind slot 0 keep the pending flag where the latched opcode is of neither command that R187 names. -/
theorem Bmsc.transferBytes_irqPending (hp : b.pos ≠ 0) (hx : ¬(b.x0 = c.bm.opLancntWrite ∨ b.x0 = c.bm.opIsrRead))
    (ins : List Byte) : (b.transferBytes c ins).2.irqPending = b.irqPending := by
  induction ins generalizing b with
  | nil => rfl
  | cons v vs ih =>
    have hslot : (b.transferByte c v).2.irqPending = b.irqPending := by
      by_contra hn
      obtain ⟨-, -, hdrives⟩ := Bmsc.transferByte_irqPending hn
      exact hx hdrives.opcode
    have hrest : (b.transferByte c v).2.pos ≠ 0 ∧ (b.transferByte c v).2.x0 = b.x0 := by
      unfold Bmsc.transferByte
      split
      · exact ⟨Nat.succ_ne_zero b.pos, by rw [Bmsc.slotNext_x0, if_neg hp]⟩
      · exact ⟨hp, rfl⟩
    exact (ih hrest.1 (hrest.2 ▸ hx)).trans hslot

/-- A transaction whose opcode selects neither command that R187 names keeps the pending flag. -/
theorem Bmsc.transaction_irqPending (hl : c.legal = true) (b : Bmsc) {op : Byte} {sel : Option BmOp}
    (hsel : bmOpOf c op = sel) (hlan : sel ≠ some .lancntWrite) (hisr : sel ≠ some .isrRead) (rest : List Byte) :
    (b.transaction c (op :: rest)).2.irqPending = b.irqPending := by
  have hx : ((b.chipSelect true).slotNext c op).x0 = op := Bmsc.slotNext_x0 c _ op
  have hop : ¬(op = c.bm.opLancntWrite ∨ op = c.bm.opIsrRead) := by
    rintro (rfl | rfl)
    · exact hlan (hsel.symm.trans (bmOpOf_opLancntWrite hl))
    · exact hisr (hsel.symm.trans (bmOpOf_opIsrRead hl))
  calc (b.transaction c (op :: rest)).2.irqPending
    _ = (((b.chipSelect true).slotNext c op).transferBytes c rest).2.irqPending := rfl
    _ = ((b.chipSelect true).slotNext c op).irqPending :=
        Bmsc.transferBytes_irqPending Nat.one_ne_zero (hx.symm ▸ hop) rest
    _ = (b.chipSelect true).irqPending :=
        Bmsc.slotNext_irqPending rfl (fun ⟨_, h⟩ => Nat.not_succ_le_zero 3 h.four_le) op

theorem Bmsc.storeAll_irqPending (c : Cfg) (b : Bmsc) (vs : List Byte) : (b.storeAll c vs).irqPending = b.irqPending := by
  induction vs generalizing b with
  | nil => rfl
  | cons v vs ih => exact ih _

theorem Bmsc.loadAll_irqPending (c : Cfg) (b : Bmsc) (addr n : Nat) : (b.loadAll c addr n).irqPending = b.irqPending := by
  induction n generalizing b addr with
  | zero => rfl
  | succ n ih => exact ih _ _

/-- A poll that changes the pending flag is one past the limit (R306). -/
theorem Bmsc.poll_irqPending (h : (b.poll c).2.irqPending ≠ b.irqPending) : c.bm.irqPollLimit < b.irqCount + 1 := by
  by_contra hle
  have hcount : decide (b.irqCount + 1 ≤ c.bm.irqPollLimit) = true := decide_eq_true (Nat.not_lt.1 hle)
  refine h ?_
  unfold Bmsc.poll
  split
  · next hpend => exact hcount.trans hpend.symm
  · rfl

/-- A well-formed instruction that is a frame is a LAN-control write, a status read, or starts with an opcode that selects
neither of the two. -/
theorem frame_lancnt_or_isrRead_or_other {i : Instr} {ins : List Byte} (hl : c.legal = true) (hwf : i.wf c = true)
    (he : encode c i = .frame ins) :
    (∃ p1 p2 chk n, i = .writeLANCNT p1 p2 chk n) ∨ (∃ u1 u2 chk n, i = .readISR u1 u2 chk n)
      ∨ ∃ op rest sel, ins = op :: rest ∧ bmOpOf c op = sel ∧ sel ≠ some .lancntWrite ∧ sel ≠ some .isrRead := by
  cases i <;> cases he
  case writeLANCNT p1 p2 chk n => exact .inl ⟨p1, p2, chk, n, rfl⟩
  case readISR u1 u2 chk n => exact .inr (.inl ⟨u1, u2, chk, n, rfl⟩)
  case serialID =>
    have hzero : bmOpOf c 0 = none :=
      Option.eq_none_iff_forall_ne_some.2 fun o h => bmTable_ne_zero hl (mem_of_lookup _ _ _ h) rfl
    exact .inr (.inr ⟨_, _, _, rfl, hzero, nofun, nofun⟩)
  case bmUnhandled => exact .inr (.inr ⟨_, _, _, rfl, (Instr.wf_bmUnhandled hwf).1, nofun, nofun⟩)
  case backupOffsetSet => exact .inr (.inr ⟨_, _, _, rfl, bmOpOf_opOffsetSet hl, nofun, nofun⟩)
  case backupWrite => exact .inr (.inr ⟨_, _, _, rfl, bmOpOf_opWrite hl, nofun, nofun⟩)
  case backupRead => exact .inr (.inr ⟨_, _, _, rfl, bmOpOf_opRead hl, nofun, nofun⟩)
  case dmaOffsetLengthSet => exact .inr (.inr ⟨_, _, _, rfl, bmOpOf_opDmaSet hl, nofun, nofun⟩)
  case writeISR => exact .inr (.inr ⟨_, _, _, rfl, bmOpOf_opIsrWrite hl, nofun, nofun⟩)
  case readIMR => exact .inr (.inr ⟨_, _, _, rfl, bmOpOf_opImrRead hl, nofun, nofun⟩)
  case writeIMR => exact .inr (.inr ⟨_, _, _, rfl, bmOpOf_opImrWrite hl, nofun, nofun⟩)

end

section
variable {s t : State} (hl : s.cfg.legal = true)
include hl

/-- A LAN-control write that changes the pending flag has one of the two patterns (R185). -/
theorem exec_writeLANCNT_irqPending {p1 p2 chk : Byte} {n : Nat} (h : exec (.writeLANCNT p1 p2 chk n) s = .next t)
    (hirq : t.bmsc.irqPending ≠ s.bmsc.irqPending) :
    (p1, p2) = s.cfg.bm.lancntAssert ∨ (p1, p2) = s.cfg.bm.lancntClear := by
  by_contra hn
  obtain ⟨hassert, hclear⟩ := not_or.1 hn
  rw [lanControlDrivesInterrupt p1 p2 chk n s hl, if_neg hassert, if_neg hclear] at h
  obtain rfl := next_inj h
  exact hirq rfl

/-- A status read that changes the pending flag has a stream (R180, R181). -/
theorem exec_readISR_irqPending {u1 u2 chk : Byte} {n : Nat} (h : exec (.readISR u1 u2 chk n) s = .next t)
    (hirq : t.bmsc.irqPending ≠ s.bmsc.irqPending) : ∃ m, n = m + 1 := by
  refine Nat.exists_eq_succ_of_ne_zero ?_
  rintro rfl
  rw [(readISRStreamsThenClears u1 u2 chk s hl).1] at h
  obtain rfl := next_inj h
  exact hirq rfl

end

/-- Settles O22: of the operations of the BMSC, a transaction changes the flag only for the two commands, a byte slot or clock
period only in a slot of these, a poll only past the limit; chip-select and DMA keep it, and the other blocks do not reach it. -/
theorem pendingFlagChangesOnlyThere : Obligations.PendingFlagChangesOnlyThere := by
  intro i s t hl hwf h hirq
  cases runs_of_exec h with
  | jvsc => exact absurd rfl hirq
  | mbmp => exact absurd rfl hirq
  | bmsc r block run =>
    cases run with
    | transaction he =>
      rcases frame_lancnt_or_isrRead_or_other hl hwf he with ⟨p1, p2, chk, n, rfl⟩ | ⟨u1, u2, chk, n, rfl⟩ | hother
      · exact .inl ⟨p1, p2, chk, n, rfl, exec_writeLANCNT_irqPending hl h hirq⟩
      · obtain ⟨m, rfl⟩ := exec_readISR_irqPending hl h hirq
        exact .inr (.inl ⟨u1, u2, chk, m, rfl⟩)
      · obtain ⟨op, rest, sel, rfl, hsel, hlan, hisr⟩ := hother
        exact absurd (Bmsc.transaction_irqPending hl s.bmsc hsel hlan hisr rest) hirq
    | byteSlot v => exact .inr (.inr (.inr (.inr ⟨_, rfl, Bmsc.transferByte_irqPending hirq⟩)))
    | clockPeriod sdi => exact .inr (.inr (.inr (.inr ⟨_, rfl, Bmsc.shiftBit_irqPending hirq⟩)))
    | poll => exact .inr (.inr (.inl ⟨rfl, Bmsc.poll_irqPending hirq⟩))
    | reset => exact .inr (.inr (.inr (.inl rfl)))
    | chipSelect level => cases level <;> exact absurd rfl hirq
    | dmaWrite addr len gm vs => exact absurd (Bmsc.storeAll_irqPending _ _ vs) hirq
    | dmaRead addr len gm => exact absurd (Bmsc.loadAll_irqPending _ _ addr len) hirq

end Sys2Proof.Machine
end

section
/-! Stuffing, the reply encoder and the receiver on a whole frame (R205 to R218): stuffing hides the framing bytes and loses
nothing, the encoder's frame in closed form, and a frame received is its payload dispatched and the reply framed. -/

namespace Sys2Proof.Machine

open Sys2Proof

/-! ## Stuffing (R212, R213) -/

section
variable {f : JvCfg}

/-- A byte that is no framing byte is its own wire form (R212). -/
theorem stuffByte_of_ne {b : Byte} (hs : b ≠ f.sync) (hm : b ≠ f.mark) : stuffByte f b = [b] :=
  if_neg (not_or.2 ⟨hs, hm⟩)

/-- De-stuffing takes a byte's wire form for that byte, whatever follows it. -/
theorem destuff_stuffByte_append (b : Byte) (w : List Byte) : destuff f (stuffByte f b ++ w) = b :: destuff f w := by
  by_cases hb : b = f.sync ∨ b = f.mark
  · simp [stuffByte, if_pos hb, destuff, destuffFrom]
  · obtain ⟨hs, hm⟩ := not_or.1 hb
    simp [stuffByte_of_ne hs hm, destuff, destuffFrom, hm]

theorem destuff_stuff (u : List Byte) : destuff f (stuff f u) = u := by
  induction u with
  | nil => rfl
  | cons b u ih => rw [stuff_cons, destuff_stuffByte_append, ih]

/-- A byte's wire form holds no sync byte: the mark is another byte, and the byte behind it is one below a framing byte. -/
theorem sync_notMem_stuffByte (hf : f.framingSound = true) (b : Byte) : f.sync ∉ stuffByte f b := by
  obtain ⟨hmark, hescaped⟩ := (JvCfg.framingSound_iff f).1 hf
  by_cases hb : b = f.sync ∨ b = f.mark
  · have hbelow : f.sync ≠ b - 1 := by
      rcases hb with rfl | rfl
      · bv_omega
      · exact hescaped
    simpa [stuffByte, if_pos hb, hmark] using hbelow
  · obtain ⟨hs, hm⟩ := not_or.1 hb
    simp [stuffByte_of_ne hs hm, Ne.symm hs]

theorem sync_notMem_stuff (hf : f.framingSound = true) (u : List Byte) : f.sync ∉ stuff f u := by
  simp only [stuff, List.mem_flatMap, not_exists, not_and]
  exact fun b _ => sync_notMem_stuffByte hf b

/-- A frame header without framing bytes is sent as it is. -/
theorem stuff_jvsHeader {len node : Byte} (hls : len ≠ f.sync) (hlm : len ≠ f.mark) (hns : node ≠ f.sync)
    (hnm : node ≠ f.mark) (o : HdrOrder) : stuff f (jvsHeader o len node) = jvsHeader o len node := by
  cases o <;> simp [jvsHeader, stuff, stuffByte_of_ne hls hlm, stuffByte_of_ne hns hnm]

end

/-- Settles O29: each byte's wire form is taken back for it, and holds no sync byte. -/
theorem destuffUndoesStuff : Obligations.DestuffUndoesStuff := by
  refine fun v u => ⟨destuff_stuff u, fun hf => sync_notMem_stuff hf u, fun hs hm => ?_⟩
  rw [JvCfg.framingSound_iff, hs, hm]
  decide

/-! ## The reply encoder (R214 to R218) -/

/-- The encoder's sum with the length added last is the checksum (R113, R216). -/
theorem foldl_add_eq_jvsSum (len node : Byte) (p : List Byte) : p.foldl (· + ·) node + len = jvsSum len node p := by
  rw [jvsSum, List.foldl_assoc, BitVec.add_comm]

/-- The frame the encoder ends with is the sync byte, the header, the stuffed payload and the stuffed checksum (R218). -/
theorem encEnd_out (f : JvCfg) (node : Byte) (p : List Byte) :
    (encEnd f (p.foldl (encAdd f) (encStart f node))).out =
      f.sync :: jvsHeader f.hdrOrder (byteOf (p.length + 1)) node ++ stuff f p
        ++ stuff f [jvsSum (byteOf (p.length + 1)) node p] := by
  rw [← foldl_add_eq_jvsSum, foldl_encAdd]
  cases ho : f.hdrOrder <;> simp [encEnd, encStart, ho, jvsHeader, stuff]

/-- The encoder counts the payload's bytes (R215). -/
theorem foldl_encAdd_cnt (f : JvCfg) (node : Byte) (p : List Byte) :
    (p.foldl (encAdd f) (encStart f node)).cnt = p.length := by
  rw [foldl_encAdd]
  cases ho : f.hdrOrder <;> simp [encStart, ho]

/-- A payload whose length is below 0xD0 is framed (R218). -/
theorem Jvsc.encode_of_fits {c : Cfg} {p : List Byte} (h : p.length + 1 < 0xD0) (node : Byte) (j : Jvsc) :
    ∃ e : Enc, j.encode c node p =
      (c.jv.sync :: jvsHeader c.jv.hdrOrder (byteOf (p.length + 1)) node ++ stuff c.jv p
        ++ stuff c.jv [jvsSum (byteOf (p.length + 1)) node p], { j with enc := e }) := by
  refine ⟨encEnd c.jv (p.foldl (encAdd c.jv) (encStart c.jv node)), ?_⟩
  rw [← encEnd_out]
  exact if_neg (by rw [foldl_encAdd_cnt]; omega)

/-- A length of 0xD0 or more is refused with its event and no frame (R216). -/
theorem Jvsc.encode_of_tooLong {c : Cfg} {p : List Byte} (h : 0xD0 ≤ p.length + 1) (node : Byte) (j : Jvsc) :
    ∃ e : Enc, j.encode c node p =
      ([], { j with enc := e, log := j.log ++ [.jvsReplyTooLong p.length] }) := by
  refine ⟨p.foldl (encAdd c.jv) (encStart c.jv node), ?_⟩
  rw [← foldl_encAdd_cnt c.jv node p] at h ⊢
  exact if_pos h

/-- Settles O32: the two branches of the encoder's length test. -/
theorem encoderWritesTheFrame : Obligations.EncoderWritesTheFrame :=
  fun _ node _ j => ⟨fun h => Jvsc.encode_of_fits h node j, fun h => Jvsc.encode_of_tooLong h node j⟩

/-- A frame whose node and length are no framing bytes is the command frame of its node and payload: its header needs no
escapes (R214, R216). -/
theorem Jvsc.encode_fst_eq_jvsFrame {c : Cfg} {node : Byte} {p : List Byte} (h : p.length + 1 < 0xD0)
    (hns : node ≠ c.jv.sync) (hnm : node ≠ c.jv.mark) (hls : byteOf (p.length + 1) ≠ c.jv.sync)
    (hlm : byteOf (p.length + 1) ≠ c.jv.mark) (j : Jvsc) : (j.encode c node p).1 = jvsFrame c.jv node p := by
  obtain ⟨e, he⟩ := Jvsc.encode_of_fits (c := c) h node j
  rw [he, jvsFrame, stuff_append, stuff_append, stuff_jvsHeader hls hlm hns hnm]
  rfl

/-! ## The receiver on a whole frame (R205, R210) -/

/-- The event of a checksum byte that is not the sum received (R210). -/
def sumEvents (got want : Byte) : List JvEvent := if got = want then [] else [.jvsSumMismatch got want]

theorem sumEvents_of_ne {got want : Byte} (h : got ≠ want) : sumEvents got want = [.jvsSumMismatch got want] := if_neg h

theorem sumEvents_self (v : Byte) : sumEvents v v = [] := if_pos rfl

/-- The last byte of a frame: the event if it is wrong, then the dispatch and the reply frame in either case (R210). -/
theorem Jvsc.frameDone_eq (c : Cfg) (pad : PadStatus) (j : Jvsc) (v : Byte) :
    j.frameDone c pad v =
      (let d := Jvsc.dispatch c j.rx.node j.rx.buf pad
        { j with rx := { j.rx with state := .waitSync }, log := j.log ++ sumEvents v j.rx.sum }
       d.encode c c.jv.hostNode d.rp) := by
  have hlog : (if v = j.rx.sum then j else j.raise (.jvsSumMismatch v j.rx.sum)) =
      { j with log := j.log ++ sumEvents v j.rx.sum } := by
    split
    · next hv => rw [sumEvents, if_pos hv, List.append_nil]
    · next hv => rw [sumEvents_of_ne hv]; rfl
  rw [Jvsc.frameDone, hlog]

/-- A frame with any checksum byte, received from the start of a chunk: its payload is dispatched and the reply framed. -/
theorem Jvsc.rxBytes_stuffedFrame {c : Cfg} {p : List Byte} (hf : c.jv.framingSound = true) (hp : p.length ≤ 254)
    (pad : PadStatus) (node v : Byte) (j : Jvsc) :
    Jvsc.rxBytes c pad { j with rx := Rx.start }
        (c.jv.sync :: stuff c.jv (jvsHeader c.jv.hdrOrder (byteOf (p.length + 1)) node ++ p ++ [v])) =
      (let d := Jvsc.dispatch c node p pad
        { j with rx := Rx.done c.jv.hdrOrder node p,
                 log := j.log ++ sumEvents v (jvsSum (byteOf (p.length + 1)) node p) }
       d.encode c c.jv.hostNode d.rp) := by
  have h := Jvsc.rxBytes_frame c pad node v p [] j hf hp
  rw [List.append_nil, Jvsc.frameDone_eq] at h
  refine h.trans ?_
  simp only [Jvsc.rxBytes, List.append_nil]
  rfl

/-- Settles O30: the encoder's frame is the command frame, and its checksum is the sum received. -/
theorem receiverRecoversEncodedFrame : Obligations.ReceiverRecoversEncodedFrame := by
  intro c pad node p j k hf hns hnm hp hls hlm
  refine ⟨Rx.done c.jv.hdrOrder node p, rfl, rfl, rfl, rfl, ?_⟩
  rw [Jvsc.encode_fst_eq_jvsFrame (by omega) hns hnm hls hlm, jvsFrame, Jvsc.rxBytes_stuffedFrame hf (by omega),
    sumEvents_self, List.append_nil]

/-- Settles O31: the wrong checksum leaves its event before the dispatch, and nothing else. -/
theorem wrongChecksumStillDispatches : Obligations.WrongChecksumStillDispatches := by
  intro c pad node v p j hf hp len hv
  refine ⟨Rx.done c.jv.hdrOrder node p, rfl, rfl, rfl, ?_⟩
  rw [Jvsc.rxBytes_stuffedFrame hf hp, sumEvents_of_ne hv]

end Sys2Proof.Machine
end

section
/-! The serial bus (R200 to R204, R219, R221, R250, R251): what the first byte of a buffer selects, the chunk stream taken
apart from its front, and the replies, which nothing below the stream reads: the receiver passes both through, a chunk only adds
to the one under construction. -/

namespace Sys2Proof.Machine

open Sys2Proof

/-! ## The first byte of a buffer (R200, R201, R203) -/

/-- Settles O23: neither opcode is on the command path. -/
theorem serialOpcodesOutsideTheCommandPath : Obligations.SerialOpcodesOutsideTheCommandPath := by
  refine fun op rest s => ⟨?_, fun hwf => ?_⟩
  · rw [exec_siReset, serialCall_next, Jvsc.runBuffer, if_pos rfl, Vector.length_toList]
  · simp only [Instr.wf, Bool.and_eq_true, decide_eq_true_eq] at hwf
    obtain ⟨hreset, hcommand⟩ := hwf
    rw [exec_siUnhandled, serialCall_next, Jvsc.runBuffer, if_neg hreset, if_neg hcommand]
    rfl

/-- Settles O24: each opcode's instruction is the call with that opcode in front; off the command path the sample is not read. -/
theorem runBufferSelectsByFirstByte : Obligations.RunBufferSelectsByFirstByte := by
  refine fun op rest pad s => ⟨rfl, ?_⟩
  rw [exec_runBuffer, exec_siReset, exec_siCommand, exec_siUnhandled]
  split
  · next hreset => subst hreset; simp only [serialCall_next, Jvsc.runBuffer, if_true]
  · next hreset =>
    split
    · next hcommand => subst hcommand; rfl
    · next hcommand => simp only [serialCall_next, Jvsc.runBuffer, if_neg hreset, if_neg hcommand]

/-! ## The chunk stream (R202) -/

section
variable (c : Cfg) (pad : PadStatus)

/-- Rounds past the stream's length change nothing. -/
theorem chunkLoop_rounds (k m : Nat) (l : List Byte) (j : Jvsc) (hk : l.length ≤ k) (hm : l.length ≤ m) :
    chunkLoop c pad k l j = chunkLoop c pad m l j := by
  induction k generalizing m l j with
  | zero =>
    obtain rfl := List.length_eq_zero_iff.1 (Nat.le_zero.1 hk)
    cases m <;> rfl
  | succ k ih =>
    match l, m, hm with
    | [], 0, _ => rfl
    | [], _ + 1, _ => rfl
    | [_], _ + 1, _ => rfl
    | cop :: n :: rest, m + 1, hm =>
      simp only [List.length_cons] at hk hm
      simp only [chunkLoop]
      split
      · rfl
      · exact ih _ _ _ (by simp; omega) (by simp; omega)

/-- A chunk stream with as many rounds as it has bytes (R202). -/
def runStream (l : List Byte) (j : Jvsc) : Jvsc := chunkLoop c pad l.length l j

theorem Jvsc.siCommand_eq (j : Jvsc) (chunks : List Byte) :
    j.siCommand c pad chunks = (runStream c pad chunks { j with cur := [] }).delayReply := rfl

@[simp] theorem runStream_nil (j : Jvsc) : runStream c pad [] j = j := rfl

/-- A stray byte ends the stream with its event. -/
@[simp] theorem runStream_singleton (cop : Byte) (j : Jvsc) :
    runStream c pad [cop] j = j.raise (.chunkTruncated cop 0 0) := rfl

/-- A chunk cut short ends the stream with its event. -/
theorem runStream_cut {n : Byte} {d : List Byte} (h : d.length < n.toNat) (cop : Byte) (j : Jvsc) :
    runStream c pad (cop :: n :: d) j = j.raise (.chunkTruncated cop n.toNat d.length) := if_pos h

/-- A whole chunk is run before the rest of the stream. -/
theorem runStream_chunkBytes_append {d : List Byte} (h : d.length ≤ 255) (cop : Byte) (rest : List Byte) (j : Jvsc) :
    runStream c pad (chunkBytes cop d ++ rest) j = runStream c pad rest (runChunk c pad cop d j) := by
  have hwhole : ¬(d ++ rest).length < d.length := by simp
  simp only [runStream, chunkBytes, List.cons_append, List.length_cons, chunkLoop, if_neg hwhole, byteOf_toNat h,
    List.take_left, List.drop_left]
  exact chunkLoop_rounds c pad _ _ _ _ (by simp; omega) le_rfl

/-- Whole chunks are run in order before what follows them. -/
theorem runStream_chunks_append (cs : List (Byte × List Byte)) (h : ∀ x ∈ cs, x.2.length ≤ 255) (rest : List Byte)
    (j : Jvsc) :
    runStream c pad ((cs.flatMap fun x => chunkBytes x.1 x.2) ++ rest) j =
      runStream c pad rest (cs.foldl (fun j x => runChunk c pad x.1 x.2 j) j) := by
  induction cs generalizing j with
  | nil => rfl
  | cons x cs ih =>
    obtain ⟨hx, hcs⟩ := List.forall_mem_cons.1 h
    rw [List.flatMap_cons, List.append_assoc, runStream_chunkBytes_append c pad hx, ih hcs, List.foldl_cons]

end

/-- Settles O26: after the whole chunks, the stream is what is left of it. -/
theorem chunkStreamRunsInOrder : Obligations.ChunkStreamRunsInOrder := by
  intro c pad cs cop n d j hcs hcut whole ran
  have hrun (rest : List Byte) : j.siCommand c pad (whole ++ rest) = (runStream c pad rest ran).delayReply := by
    rw [Jvsc.siCommand_eq, runStream_chunks_append c pad cs hcs]
  refine ⟨?_, ?_, ?_⟩
  · simpa using hrun []
  · simpa using hrun [cop]
  · rw [hrun, runStream_cut c pad hcut]

/-! ## The replies pass through (R204, R219, R221) -/

/-- The state with other replies: `prev` held back, `cur` under construction. -/
def Jvsc.withReplies (j : Jvsc) (prev cur : List Byte) : Jvsc := { j with prevReply := prev, cur := cur }

section
variable (c : Cfg) (pad : PadStatus) (j : Jvsc) (prev cur : List Byte)

/-- An opcode's rule neither reads nor writes the replies. -/
theorem runGroup_withReplies (i : Instr) : runGroup c i (j.withReplies prev cur) = (runGroup c i j).withReplies prev cur := by
  have hcoin (slot : Byte) (f : Nat → Nat) :
      (j.withReplies prev cur).coinUpdate c slot f = (j.coinUpdate c slot f).withReplies prev cur := by
    unfold Jvsc.coinUpdate
    split <;> rfl
  cases i
  case jCoinSub node slot hi lo => simp only [runGroup, ruleCoinSub, hcoin]; rfl
  case jCoinAdd node slot hi lo => simp only [runGroup, ruleCoinAdd, hcoin]; rfl
  case jNAMCO node tail =>
    simp only [runGroup, ruleNAMCO]
    split
    · split <;> rfl
    · rfl
  case jReset node magic =>
    simp only [runGroup, ruleReset]
    split <;> rfl
  all_goals rfl

theorem dispatchLoop_withReplies (node : Byte) (n : Nat) (l : List Byte) :
    dispatchLoop c node pad n l (j.withReplies prev cur) = (dispatchLoop c node pad n l j).withReplies prev cur := by
  induction n generalizing l j with
  | zero => rfl
  | succ n ih =>
    cases l with
    | nil => rfl
    | cons jop tail =>
      simp only [dispatchLoop]
      split
      · exact runGroup_withReplies c j prev cur _
      · rfl
      · rw [runGroup_withReplies, ih]

theorem Jvsc.dispatch_withReplies (node : Byte) (buf : List Byte) :
    (j.withReplies prev cur).dispatch c node buf pad = (j.dispatch c node buf pad).withReplies prev cur :=
  dispatchLoop_withReplies c pad { j with rp := [c.jv.statusOk] } prev cur node _ buf

theorem Jvsc.encode_withReplies (node : Byte) (p : List Byte) :
    (j.withReplies prev cur).encode c node p = ((j.encode c node p).1, (j.encode c node p).2.withReplies prev cur) := by
  unfold Jvsc.encode
  simp only
  split <;> rfl

theorem Jvsc.frameDone_withReplies (v : Byte) :
    (j.withReplies prev cur).frameDone c pad v = ((j.frameDone c pad v).1, (j.frameDone c pad v).2.withReplies prev cur) := by
  have hd := Jvsc.dispatch_withReplies c pad
    { j with rx := { j.rx with state := .waitSync }, log := j.log ++ sumEvents v j.rx.sum } prev cur j.rx.node j.rx.buf
  rw [Jvsc.frameDone_eq, Jvsc.frameDone_eq]
  exact (congrArg (fun d : Jvsc => d.encode c c.jv.hostNode d.rp) hd).trans (Jvsc.encode_withReplies c _ prev cur _ _)

theorem Jvsc.rxValue_withReplies (v : Byte) :
    (j.withReplies prev cur).rxValue c pad v = ((j.rxValue c pad v).1, (j.rxValue c pad v).2.withReplies prev cur) := by
  have hrx : (j.withReplies prev cur).rx = j.rx := rfl
  unfold Jvsc.rxValue
  rw [hrx]
  split
  case h_3 =>
    simp only
    split <;> rfl
  case h_5 => exact Jvsc.frameDone_withReplies c pad j prev cur v
  all_goals rfl

theorem Jvsc.rxByte_withReplies (r : Byte) :
    (j.withReplies prev cur).rxByte c pad r = ((j.rxByte c pad r).1, (j.rxByte c pad r).2.withReplies prev cur) := by
  have hrx : (j.withReplies prev cur).rx = j.rx := rfl
  unfold Jvsc.rxByte
  rw [hrx]
  split
  · simp only
    split <;> rfl
  · split
    · rfl
    · split
      · rfl
      · exact Jvsc.rxValue_withReplies c pad { j with rx := { j.rx with esc := false } } prev cur _

theorem Jvsc.rxBytes_withReplies (l : List Byte) :
    (j.withReplies prev cur).rxBytes c pad l = ((j.rxBytes c pad l).1, (j.rxBytes c pad l).2.withReplies prev cur) := by
  induction l generalizing j with
  | nil => rfl
  | cons r rs ih => simp only [Jvsc.rxBytes, Jvsc.rxByte_withReplies, ih]

/-- The receiver leaves both replies as they are: it is what it is with those it was given. -/
theorem Jvsc.rxBytes_replies (l : List Byte) :
    (j.rxBytes c pad l).2.prevReply = j.prevReply ∧ (j.rxBytes c pad l).2.cur = j.cur := by
  have h : (j.rxBytes c pad l).2 = (j.rxBytes c pad l).2.withReplies j.prevReply j.cur :=
    congrArg Prod.snd (Jvsc.rxBytes_withReplies c pad j j.prevReply j.cur l)
  exact ⟨(congrArg Jvsc.prevReply h :), (congrArg Jvsc.cur h :)⟩

/-- The event of a chunk that ends in receiver state `st`: none between two frames (R211). -/
def cutEvents (st : RxState) : List JvEvent := if st = .waitSync then [] else [.jvsFrameTruncated st]

/-- A chunk is received from a fresh receiver; a frame cut short leaves its event (R204, R211). -/
theorem Jvsc.rxChunk_eq (d : List Byte) :
    j.rxChunk c pad d =
      (let r := Jvsc.rxBytes c pad { j with rx := Rx.start } d
       (r.1, { r.2 with log := r.2.log ++ cutEvents r.2.rx.state })) := by
  unfold Jvsc.rxChunk cutEvents
  simp only
  split
  · rw [List.append_nil]
  · rfl

theorem Jvsc.rxChunk_withReplies (d : List Byte) :
    (j.withReplies prev cur).rxChunk c pad d = ((j.rxChunk c pad d).1, (j.rxChunk c pad d).2.withReplies prev cur) := by
  have h := Jvsc.rxBytes_withReplies c pad { j with rx := Rx.start } prev cur d
  rw [Jvsc.rxChunk_eq, Jvsc.rxChunk_eq]
  exact congrArg (fun r : List Byte × Jvsc => (r.1, { r.2 with log := r.2.log ++ cutEvents r.2.rx.state })) h

end

/-! ## The reply chunks (R219) -/

/-- The reply chunk of reply data: none where their size does not fit its count. -/
def wrapChunk (cop : Byte) (r : List Byte) : List Byte := if r.length ≤ 255 then chunkBytes cop r else []

/-- The event of wrapping reply data whose size does not fit the count. -/
def wrapEvents (cop : Byte) (r : List Byte) : List JvEvent :=
  if r.length ≤ 255 then [] else [.replyChunkOverflow cop r.length]

theorem Jvsc.appendChunk_eq (j : Jvsc) (cop : Byte) (r : List Byte) :
    j.appendChunk cop r = { j with cur := j.cur ++ wrapChunk cop r, log := j.log ++ wrapEvents cop r } := by
  unfold Jvsc.appendChunk wrapChunk wrapEvents
  by_cases h : r.length ≤ 255
  · simp only [if_neg (Nat.not_lt.2 h), if_pos h, List.append_nil]
  · simp only [if_pos (Nat.lt_of_not_le h), if_neg h, List.append_nil]
    rfl

section
variable (c : Cfg) (pad : PadStatus) (j : Jvsc) (prev : List Byte)

/-- The state with another reply held back. -/
def Jvsc.holding (j : Jvsc) (prev : List Byte) : Jvsc := { j with prevReply := prev }

theorem Jvsc.appendChunk_holding (cop : Byte) (r : List Byte) :
    (j.holding prev).appendChunk cop r = (j.appendChunk cop r).holding prev := by
  rw [Jvsc.appendChunk_eq, Jvsc.appendChunk_eq]
  rfl

theorem Jvsc.rxChunk_holding (d : List Byte) :
    (j.holding prev).rxChunk c pad d = ((j.rxChunk c pad d).1, (j.rxChunk c pad d).2.holding prev) := by
  have hcur : (j.rxChunk c pad d).2.cur = j.cur := by
    rw [Jvsc.rxChunk_eq]
    exact (Jvsc.rxBytes_replies c pad { j with rx := Rx.start } d).2
  refine (Jvsc.rxChunk_withReplies c pad j prev j.cur d).trans ?_
  rw [← hcur]
  rfl

/-- A chunk neither reads nor writes the reply held back. -/
theorem runChunk_holding (cop : Byte) (d : List Byte) :
    runChunk c pad cop d (j.holding prev) = (runChunk c pad cop d j).holding prev := by
  unfold runChunk
  split
  · simp only [ruleChJVS, Jvsc.rxChunk_holding, Jvsc.appendChunk_holding]
  · exact Jvsc.appendChunk_holding (j.raise (.cardRefused d)) prev cop []
  · exact Jvsc.appendChunk_holding (j.raise (.icCardRefused d)) prev cop []
  · rfl

theorem chunkLoop_holding (k : Nat) (l : List Byte) :
    chunkLoop c pad k l (j.holding prev) = (chunkLoop c pad k l j).holding prev := by
  induction k generalizing l j with
  | zero => rfl
  | succ k ih =>
    match l with
    | [] => rfl
    | [cop] => rfl
    | cop :: n :: rest =>
      simp only [chunkLoop]
      split
      · rfl
      · rw [runChunk_holding, ih]

/-- A chunk stream neither reads nor writes the reply held back. -/
theorem runStream_holding (l : List Byte) : runStream c pad l (j.holding prev) = (runStream c pad l j).holding prev :=
  chunkLoop_holding c pad j prev l.length l

theorem runChunk_prevReply (cop : Byte) (d : List Byte) : (runChunk c pad cop d j).prevReply = j.prevReply :=
  (congrArg Jvsc.prevReply (runChunk_holding c pad j j.prevReply cop d) :)

/-- The command call returns the reply held back and holds back the reply of its stream, which does not depend on it (R221). -/
theorem Jvsc.siCommand_holding (l : List Byte) :
    (j.holding prev).siCommand c pad l = (prev, (j.siCommand c pad l).2) := by
  have h := runStream_holding c pad { j with cur := [] } prev l
  rw [Jvsc.siCommand_eq, Jvsc.siCommand_eq]
  exact congrArg Jvsc.delayReply h

end

/-! ## The call (R221) -/

section
variable (s : State) (hc : s.cfg.codesDistinct = true)
include hc

/-- The command call answers with the reply held back (R221). -/
theorem exec_siCommand_eq (chunks : List Byte) (pad : PadStatus) :
    exec (.siCommand chunks pad) s = .next (s.withJvsc (s.jvsc.siCommand s.cfg pad chunks).2 (delayedReply s)) := by
  have hreply : (s.jvsc.siCommand s.cfg pad chunks).1 = s.jvsc.prevReply :=
    congrArg Prod.fst (Jvsc.siCommand_holding s.cfg pad s.jvsc s.jvsc.prevReply chunks)
  rw [exec_siCommand, serialCall_next, Jvsc.runBuffer, if_neg (siOps_ne hc).symm, if_pos rfl, hreply]
  rfl

/-- The call that carries one chunk holds back that chunk's reply and returns the one held back before (R221, log entry 5). -/
theorem chunkCall_holds (cop : Byte) {d : List Byte} (hd : d.length ≤ 255) (pad : PadStatus) :
    chunkCall cop d pad s =
      (let q := runChunk s.cfg pad cop d { s.jvsc with cur := [] }
       .next (s.withJvsc { q with prevReply := q.cur } (delayedReply s))) := by
  rw [chunkCall_eq cop d pad s hc hd]
  simp only [runChunk_prevReply]
  rfl

end

/-- Settles O25: the stream of a call neither reads nor writes the reply that the call returns. -/
theorem replyIsOneCallLate : Obligations.ReplyIsOneCallLate := by
  intro a b p q held s hc
  have hfirst := exec_siCommand_eq s hc a p
  have hsecond := exec_siCommand_eq (s.withJvsc (s.jvsc.siCommand s.cfg p a).2 (delayedReply s)) hc b q
  have hother := exec_siCommand_eq { s with jvsc := s.jvsc.holding held } hc a p
  refine ⟨_, _, _, hfirst, rfl, hsecond, rfl, hother, ?_⟩
  exact (congrArg Prod.snd (Jvsc.siCommand_holding s.cfg p s.jvsc held a) :)

/-- Settles O27: the chunk starts from an empty reply, which the receiver leaves empty for the wrapped frames. -/
theorem jvsChunkIsReceivedAndWrapped : Obligations.JvsChunkIsReceivedAndWrapped := by
  intro d pad s hc hd r cut big reply
  have hcur : r.2.cur = [] := (Jvsc.rxBytes_replies s.cfg pad { s.jvsc with rx := Rx.start, cur := [] } d).2
  have hrun : runChunk s.cfg pad s.cfg.jv.chJvs d { s.jvsc with cur := [] } =
      { r.2 with log := r.2.log ++ cut ++ big, cur := reply } := by
    simp only [runChunk, chOpOf_chJvs hc, ruleChJVS, Jvsc.rxChunk_eq, Jvsc.appendChunk_eq]
    change ({ r.2 with log := r.2.log ++ cut ++ big, cur := r.2.cur ++ reply } : Jvsc) = _
    rw [hcur, List.nil_append]
  rw [exec_chJVS, chunkCall_holds s hc _ hd, hrun]

/-- Settles O28: a card chunk is its event and an empty reply chunk, an unknown one its event. -/
theorem cardAndUnknownChunksOnlyLog : Obligations.CardAndUnknownChunksOnlyLog := by
  intro cop d s hc hd
  refine ⟨?_, ?_, fun hwf => ?_⟩
  · rw [exec_chCard, chunkCall_holds s hc _ hd, runChunk, chOpOf_chCard hc]
    rfl
  · rw [exec_chICCard, chunkCall_holds s hc _ hd, runChunk, chOpOf_chICCard hc]
    rfl
  · simp only [Instr.wf, Bool.and_eq_true, decide_eq_true_eq] at hwf
    obtain ⟨hcop, -⟩ := hwf
    rw [exec_chUnhandled, chunkCall_holds s hc _ hd, runChunk, hcop]
    rfl

end Sys2Proof.Machine
end

section
/-! The opcode groups of a payload taken apart from its front (R230, R236, R244, R248): whole groups run in order, and what is
left behind them runs as a payload of its own, which an opcode outside the map or one cut short ends with its event. -/

namespace Sys2Proof.Machine

open Sys2Proof

section
variable (c : Cfg) (node : Byte) (pad : PadStatus)

/-- The dispatcher's loop with as many rounds as the payload has bytes (R230). -/
def runPayload (l : List Byte) (j : Jvsc) : Jvsc := dispatchLoop c node pad l.length l j

theorem Jvsc.dispatch_eq (buf : List Byte) (j : Jvsc) :
    j.dispatch c node buf pad = runPayload c node pad buf { j with rp := [c.jv.statusOk] } := rfl

@[simp] theorem runPayload_nil (j : Jvsc) : runPayload c node pad [] j = j := rfl

/-- A whole group is run before the payload behind it. -/
theorem runPayload_op {jop : Byte} {tail rest : List Byte} {i : Instr} (h : decodeGroup c node pad jop tail = .op i rest)
    (j : Jvsc) : runPayload c node pad (jop :: tail) j = runPayload c node pad rest (runGroup c i j) := by
  simp only [runPayload, List.length_cons, dispatchLoop, h]
  exact dispatchLoop_rounds c node pad _ _ _ _ (decodeGroup_rest_length h) le_rfl

/-- An opcode with too few argument bytes ends the dispatch with its event (R236). -/
theorem runPayload_truncated {jop op : Byte} {tail : List Byte} (h : decodeGroup c node pad jop tail = .truncated op)
    (j : Jvsc) : runPayload c node pad (jop :: tail) j = j.raise (.jvsArgsTruncated op) := by
  simp only [runPayload, List.length_cons, dispatchLoop, h]

/-- An opcode outside the map ends the dispatch with its event (R248). -/
theorem runPayload_unknown {jop : Byte} (h : jopOf c jop = none) (tail : List Byte) (j : Jvsc) :
    runPayload c node pad (jop :: tail) j = j.raise (.jvsUnhandled jop) := by
  have hgroup : decodeGroup c node pad jop tail = .unhandled (.jUnhandled node jop tail) := by simp only [decodeGroup, h]
  simp only [runPayload, List.length_cons, dispatchLoop, hgroup]
  rfl

theorem decodeGroup_of_short {jop : Byte} {op : Jop} {tail : List Byte} (hop : jopOf c jop = some op)
    (hshort : ∀ n, argCount c op tail = some n → tail.length < n) : decodeGroup c node pad jop tail = .truncated jop := by
  simp only [decodeGroup, hop]
  cases hn : argCount c op tail with
  | none => rfl
  | some n => exact if_pos (hshort n hn)

variable {c} (hc : c.codesDistinct = true)
include hc

/-- The vendor opcode's group is what the profile consumes, where that many bytes are there (R244). -/
theorem decodeGroup_namco {tail reply : List Byte} {consumed : Nat} (hp : Config.namco c.profile tail = some (consumed, reply))
    (hle : consumed ≤ tail.length) :
    decodeGroup c node pad c.jv.jop.namco tail = .op (.jNAMCO node tail) (tail.drop consumed) := by
  simp only [decodeGroup, jopOf_namco hc, argCount, hp, Option.map_some, if_neg (Nat.not_lt.2 hle)]
  rfl

/-- The vendor opcode is cut short where the profile refuses the bytes or asks for more (R236). -/
theorem decodeGroup_namco_truncated {tail : List Byte}
    (h : ∀ consumed reply, Config.namco c.profile tail = some (consumed, reply) → tail.length < consumed) :
    decodeGroup c node pad c.jv.jop.namco tail = .truncated c.jv.jop.namco := by
  refine decodeGroup_of_short c node pad (jopOf_namco hc) fun n hn => ?_
  obtain ⟨answer, hp, rfl⟩ := Option.map_eq_some_iff.1 hn
  exact h _ _ hp

/-- The vendor opcode reports what the profile answers, and the payload behind the bytes it consumed is run (R244); where the
profile refuses or asks for more, the dispatch ends with the truncation event (R236). -/
theorem runPayload_namco (tail : List Byte) (j : Jvsc) :
    runPayload c node pad (c.jv.jop.namco :: tail) j =
      match Config.namco c.profile tail with
      | some (consumed, reply) =>
        if consumed ≤ tail.length then runPayload c node pad (tail.drop consumed) (j.report c reply)
        else j.raise (.jvsArgsTruncated c.jv.jop.namco)
      | none => j.raise (.jvsArgsTruncated c.jv.jop.namco) := by
  cases hp : Config.namco c.profile tail with
  | none => exact runPayload_truncated c node pad (decodeGroup_namco_truncated node pad hc (by simp [hp])) j
  | some answer =>
    obtain ⟨consumed, reply⟩ := answer
    by_cases hle : consumed ≤ tail.length
    · have hrule : runGroup c (.jNAMCO node tail) j = j.report c reply := by
        simp only [runGroup, ruleNAMCO, hp, if_neg (Nat.not_lt.2 hle)]
      simp only [if_pos hle, runPayload_op c node pad (decodeGroup_namco node pad hc hp hle), hrule]
    · simp only [if_neg hle]
      refine runPayload_truncated c node pad (decodeGroup_namco_truncated node pad hc ?_) j
      simp only [hp, Option.some.injEq, Prod.mk.injEq]
      rintro _ _ ⟨rfl, -⟩
      exact Nat.lt_of_not_le hle

/-- Whole groups are run in order before what follows them (R230). -/
theorem runPayload_groups_append {groups : List Instr} (h : ∀ i ∈ groups, isGroup node pad i = true) (rest : List Byte)
    (j : Jvsc) :
    runPayload c node pad (groups.flatMap (payloadBytes c) ++ rest) j =
      runPayload c node pad rest (groups.foldl (fun j i => runGroup c i j) j) := by
  induction groups generalizing j with
  | nil => rfl
  | cons i groups ih =>
    obtain ⟨hi, hgroups⟩ := List.forall_mem_cons.1 h
    obtain ⟨jop, tail, hbytes, hgroup⟩ := decodeGroup_payloadBytes hc node pad i hi
    rw [List.flatMap_cons, List.append_assoc, hbytes, List.cons_append, runPayload_op c node pad (hgroup _), ih hgroups,
      List.foldl_cons]

end

/-- Settles O41: nothing is left behind the groups. -/
theorem dispatchRunsGroupsInOrder : Obligations.DispatchRunsGroupsInOrder := by
  intro c node pad groups j hc hgroups
  have h := runPayload_groups_append node pad hc hgroups [] { j with rp := [c.jv.statusOk] }
  rwa [List.append_nil] at h

/-- A payload that is one whole group runs that group from the status byte. -/
theorem Jvsc.dispatch_group {c : Cfg} (hc : c.codesDistinct = true) {node : Byte} {pad : PadStatus} {i : Instr}
    (hi : isGroup node pad i = true) (j : Jvsc) :
    j.dispatch c node (payloadBytes c i) pad = runGroup c i { j with rp := [c.jv.statusOk] } := by
  have h := dispatchRunsGroupsInOrder c node pad [i] j hc (by simpa using hi)
  rwa [List.flatMap_singleton] at h

/-- Settles O60: what is left behind the groups starts with an opcode that ends the dispatch, or with the vendor opcode. -/
theorem dispatchGoesOnOrStopsAfterGroups : Obligations.DispatchGoesOnOrStopsAfterGroups := by
  intro c node jop tail pad groups j hc hgroups before ran
  have hrun (rest : List Byte) : Jvsc.dispatch c node (before ++ rest) pad j = runPayload c node pad rest ran :=
    runPayload_groups_append node pad hc hgroups rest { j with rp := [c.jv.statusOk] }
  refine ⟨fun hnone => ?unknown, fun op hop hshort => ?short, ?vendor⟩
  case unknown =>
    rw [hrun, runPayload_unknown c node pad hnone]
    rfl
  case short =>
    rw [hrun, runPayload_truncated c node pad (decodeGroup_of_short c node pad hop hshort)]
    rfl
  case vendor =>
    rw [hrun, runPayload_namco node pad hc]
    simp only [runPayload, List.length_drop]
    rfl

end Sys2Proof.Machine
end

section
/-! The call that carries one opcode (R202, R204, R112): its payload is dispatched, and the reply payload that leaves is framed,
wrapped and held back. An opcode's own statement then says only what its rule does to the state. -/

namespace Sys2Proof.Machine

open Sys2Proof

/-- The state in which a received frame is dispatched: the receiver's working state `x`, no reply under construction yet. -/
def Jvsc.received (j : Jvsc) (x : Rx) : Jvsc := { j with rx := x, cur := [] }

/-- The encoder's frame and what it leaves: its working state and the event of a length refused (R216, R218). -/
theorem Jvsc.encode_reply (c : Cfg) (d : Jvsc) (p : List Byte) : ∃ e : Enc, d.encode c c.jv.hostNode p =
    (replyFrame c p,
      { d with enc := e, log := d.log ++ if 0xD0 ≤ p.length + 1 then [.jvsReplyTooLong p.length] else [] }) := by
  by_cases h : 0xD0 ≤ p.length + 1
  · obtain ⟨e, he⟩ := Jvsc.encode_of_tooLong (c := c) h c.jv.hostNode d
    exact ⟨e, by simp only [he, replyFrame, if_pos h]⟩
  · obtain ⟨e, he⟩ := Jvsc.encode_of_fits (c := c) (Nat.lt_of_not_le h) c.jv.hostNode d
    exact ⟨e, by simp only [he, replyFrame, if_neg h, List.append_nil]⟩

/-- The reply chunk of a reply frame is what wraps it (R219). -/
theorem wrapChunk_replyFrame (c : Cfg) (p : List Byte) : wrapChunk c.jv.chJvs (replyFrame c p) = replyChunk c p := by
  unfold wrapChunk replyChunk
  split
  · next h => rw [if_neg (Nat.not_lt.2 h)]
  · next h => rw [if_pos (Nat.lt_of_not_le h)]

/-- The events of a reply are those of framing it and of wrapping its frame; a refused reply has no frame to wrap (R216,
R219). -/
theorem events_replyFrame (c : Cfg) (p : List Byte) :
    (if 0xD0 ≤ p.length + 1 then [.jvsReplyTooLong p.length] else []) ++ wrapEvents c.jv.chJvs (replyFrame c p) =
      replyEvents c p := by
  unfold wrapEvents replyEvents
  by_cases h : 0xD0 ≤ p.length + 1
  · have hempty : replyFrame c p = [] := if_pos h
    simp [h, hempty]
  · simp only [if_neg h, List.nil_append]
    split
    · next hle => rw [if_neg (Nat.not_lt.2 hle)]
    · next hle => rw [if_pos (Nat.lt_of_not_le hle)]

/-- A state whose reply payload is framed, wrapped and held back is served. -/
theorem Jvsc.served_of_encode (c : Cfg) (d : Jvsc) (hcur : d.cur = []) : ∃ e : Enc,
    (let r := d.encode c c.jv.hostNode d.rp
     let q := r.2.appendChunk c.jv.chJvs r.1
     { q with prevReply := q.cur }) = d.served c d.rp d.rx e := by
  obtain ⟨e, he⟩ := Jvsc.encode_reply c d d.rp
  refine ⟨e, ?_⟩
  simp only [he, Jvsc.appendChunk_eq, hcur, List.nil_append, wrapChunk_replyFrame, List.append_assoc, events_replyFrame]
  rfl

theorem jvsFits_iff (f : JvCfg) (node : Byte) (p : List Byte) :
    jvsFits f node p = true ↔ p.length + 1 ≤ 255 ∧ (jvsFrame f node p).length ≤ 255 := by simp [jvsFits]

/-- A payload of at most 124 bytes fits one frame and one chunk, however much of it is stuffed. -/
theorem jvsFits_of_length_le {p : List Byte} (h : p.length ≤ 124) (f : JvCfg) (node : Byte) : jvsFits f node p = true := by
  have hframe := jvsFrame_length_le f node p
  exact (jvsFits_iff f node p).2 ⟨by omega, by omega⟩

/-- A JVS mnemonic is the call that carries its payload (log entry 5). -/
theorem exec_payload {s : State} {i : Instr} {node : Byte} {p : List Byte} {pad : PadStatus}
    (he : encode s.cfg i = .payload node p pad) :
    exec i s = frameCall node p pad s := by
  cases i <;> simp only [encode, Request.payload.injEq, reduceCtorEq] at he <;> obtain ⟨rfl, rfl, rfl⟩ := he <;> rfl

section
variable {s : State} (hc : s.cfg.codesDistinct = true) (hs : s.cfg.jv.framingSound = true)
include hc hs

/-- The call that carries one frame serves what the dispatch of its payload leaves. -/
theorem frameCall_served {node : Byte} {p : List Byte} (hf : jvsFits s.cfg.jv node p = true) (pad : PadStatus) :
    ∃ (x : Rx) (e : Enc),
      frameCall node p pad s =
        (let d := (s.jvsc.received x).dispatch s.cfg node p pad
         .next (s.withJvsc (d.served s.cfg d.rp x e) (delayedReply s))) := by
  obtain ⟨hp, hframe⟩ := (jvsFits_iff _ _ _).1 hf
  let x := Rx.done s.cfg.jv.hdrOrder node p
  have htransport := Jvsc.dispatch_transport s.cfg node p pad (s.jvsc.received x)
  obtain ⟨e, he⟩ := Jvsc.served_of_encode s.cfg _ htransport.cur
  rw [htransport.rx] at he
  refine ⟨x, e, (frameCall_eq node p pad s hc hs (by omega) hframe).trans ?_⟩
  exact congrArg (fun j => Host.Outcome.next (s.withJvsc j (delayedReply s))) he


/-- An opcode's call serves the reply payload that the dispatch of its payload leaves, with what that dispatch changed. -/
theorem exec_serves {i : Instr} {node : Byte} {bytes : List Byte} {pad : PadStatus}
    (he : encode s.cfg i = .payload node bytes pad) (hf : jvsFits s.cfg.jv node bytes = true) {j : Jvsc} {p : List Byte}
    (hd : ∀ x, (s.jvsc.received x).dispatch s.cfg node bytes pad = { j.received x with rp := p }) :
    ∃ (x : Rx) (e : Enc), exec i s = .next (s.withJvsc (j.served s.cfg p x e) (delayedReply s)) := by
  obtain ⟨x, e, hcall⟩ := frameCall_served hc hs hf pad
  refine ⟨x, e, (exec_payload he).trans (hcall.trans ?_)⟩
  rw [hd]
  rfl

/-- The call of an opcode with a fixed argument count serves what its rule leaves from the status byte. -/
theorem exec_serves_group {i : Instr} {node : Byte} {pad : PadStatus}
    (he : encode s.cfg i = .payload node (payloadBytes s.cfg i) pad) (hi : isGroup node pad i = true)
    (hf : jvsFits s.cfg.jv node (payloadBytes s.cfg i) = true) {j : Jvsc} {p : List Byte}
    (hrun : ∀ x, runGroup s.cfg i { s.jvsc.received x with rp := [s.cfg.jv.statusOk] } = { j.received x with rp := p }) :
    ∃ (x : Rx) (e : Enc), exec i s = .next (s.withJvsc (j.served s.cfg p x e) (delayedReply s)) :=
  exec_serves hc hs he hf fun x => (Jvsc.dispatch_group hc hi _).trans (hrun x)

/-- The same for an opcode whose bytes always fit. -/
theorem exec_serves_short {i : Instr} {node : Byte} {pad : PadStatus}
    (he : encode s.cfg i = .payload node (payloadBytes s.cfg i) pad) (hi : isGroup node pad i = true)
    (hlen : (payloadBytes s.cfg i).length ≤ 124) {j : Jvsc} {p : List Byte}
    (hrun : ∀ x, runGroup s.cfg i { s.jvsc.received x with rp := [s.cfg.jv.statusOk] } = { j.received x with rp := p }) :
    ∃ (x : Rx) (e : Enc), exec i s = .next (s.withJvsc (j.served s.cfg p x e) (delayedReply s)) :=
  exec_serves_group hc hs he hi (jvsFits_of_length_le hlen _ _) hrun

end

end Sys2Proof.Machine
end

section
/-! The JVS opcodes that report, set the bus address, hand bytes to the profile or end the dispatch (R231 to R237, R241 to R248):
what each one's rule does from the status byte. -/

namespace Sys2Proof.Machine

open Sys2Proof

/-- Settles O33: each of these rules appends the report byte and its data to the reply payload, and does nothing else. -/
theorem reportOpcodesAnswerTheProfile : Obligations.ReportOpcodesAnswerTheProfile := by
  intro node players bpp ch pad s hc hs
  refine ⟨?_, ?_, ?_, ?_, ?_, ?_, ?_, ?_⟩ <;>
    exact exec_serves_short hc hs rfl (by simp [isGroup]) (by simp [payloadBytes]) fun _ => rfl

/-- The bus reset compares its argument with the magic byte (R246). -/
theorem ruleReset_eq (c : Cfg) (magic : Byte) (j : Jvsc) :
    ruleReset c magic j =
      if magic = 0xD9 then { j with dipSwitch := true, jvsAddr := 0 }.report c []
      else (j.raise (.jvsBadResetMagic magic)).report c [] :=
  apply_ite (fun k : Jvsc => k.report c []) _ _ _

/-- Settles O39: the rules of the two opcodes, the bus reset's by its argument. -/
theorem busOpcodesSetAddressAndDipSwitch : Obligations.BusOpcodesSetAddressAndDipSwitch := by
  intro node magic addr s hc hs
  refine ⟨exec_serves_short hc hs rfl (by simp [isGroup]) (by simp [payloadBytes]) fun x => ?reset,
    exec_serves_short hc hs rfl (by simp [isGroup]) (by simp [payloadBytes]) fun _ => rfl⟩
  rw [runGroup, ruleReset_eq]
  split <;> rfl

/-- Settles O37: the rule records the bytes and reports no data. -/
theorem driverOutputHandsBytesToProfile : Obligations.DriverOutputHandsBytesToProfile := by
  intro node d s hc hs hwf
  obtain ⟨hd, hf⟩ := Bool.and_eq_true_iff.1 hwf
  exact exec_serves_group hc hs rfl (by simpa [isGroup] using hd) hf fun _ => rfl

/-- Settles O38: the frame holds no more than the profile consumes, so nothing is left to dispatch behind the opcode. -/
theorem vendorOpcodeAsksTheProfile : Obligations.VendorOpcodeAsksTheProfile := by
  intro node tail s hc hs hwf
  obtain ⟨hwhole, hf⟩ := Bool.and_eq_true_iff.1 hwf
  have hrun (x : Rx) := runPayload_namco node noPad hc tail { s.jvsc.received x with rp := [s.cfg.jv.statusOk] }
  cases hp : Config.namco s.cfg.profile tail with
  | none =>
    simp only [hp] at hrun
    exact exec_serves hc hs rfl hf hrun
  | some answer =>
    obtain ⟨consumed, reply⟩ := answer
    simp only [hp] at hrun
    have hle : tail.length ≤ consumed := by simpa [namcoWhole, hp] using hwhole
    by_cases heq : consumed = tail.length
    · subst heq
      simp only [le_refl, if_true, List.drop_length, runPayload_nil] at hrun
      simp only [if_true]
      exact exec_serves hc hs rfl hf hrun
    · simp only [if_neg (show ¬consumed ≤ tail.length by omega)] at hrun
      simp only [if_neg heq]
      exact exec_serves hc hs rfl hf hrun

/-- Settles O40: the opcode ends the dispatch before anything is reported. -/
theorem unknownJvsOpcodeStopsDispatch : Obligations.UnknownJvsOpcodeStopsDispatch := by
  intro node jop tail s hc hs hwf
  obtain ⟨hnone, hf⟩ := Bool.and_eq_true_iff.1 hwf
  exact exec_serves hc hs rfl hf fun x => runPayload_unknown s.cfg node noPad (of_decide_eq_true hnone) tail _

end Sys2Proof.Machine
end

section
/-! The coin opcodes (R239, R240): the poll samples every slot and counts rising edges, the adjustments saturate at one slot's
counter. -/

namespace Sys2Proof.Machine

open Sys2Proof

section
variable {c : Cfg} {j : Jvsc} {pad : PadStatus} {k : Nat}

@[simp] theorem Jvsc.served_coinCount (p : List Byte) (x : Rx) (e : Enc) : (j.served c p x e).coinCount = j.coinCount := rfl
@[simp] theorem Jvsc.served_coinPrev (p : List Byte) (x : Rx) (e : Enc) : (j.served c p x e).coinPrev = j.coinPrev := rfl

/-- Slot `k`'s counter after a poll (R239). -/
theorem Jvsc.sampleCoins_counter (hk : k < c.jv.coinSlots) :
    (j.sampleCoins c pad).coinCount.getD k 0 = coinAfter c pad j k := by simp [hk]

/-- Slot `k`'s level after a poll is its trigger in the sample (R239). -/
theorem Jvsc.sampleCoins_level (hk : k < c.jv.coinSlots) :
    (j.sampleCoins c pad).coinPrev.getD k false = Config.coinTrigger c.profile pad k := by simp [hk]

/-- The report of a poll shows the counters after the step; one past the last slot is missing and reads 0 (R239). -/
theorem Jvsc.coinReport_sampleCoins (n : Nat) :
    (j.sampleCoins c pad).coinReport c n =
      (List.range n).flatMap fun k => coinBytes ((j.sampleCoins c pad).coinCount.getD k 0) := by
  unfold Jvsc.coinReport
  congr 1
  funext k
  split
  · rfl
  · next hk => simp [Nat.le_of_not_lt hk]

/-- A poll adds one to a counter below the maximum on a rising edge, and nothing else (R239). -/
theorem coinAfter_eq_add : coinAfter c pad j k = j.coinCount.getD k 0 +
    if Config.coinTrigger c.profile pad k = true ∧ j.coinPrev.getD k false = false ∧ j.coinCount.getD k 0 < c.jv.coinMax
    then 1 else 0 := by
  unfold coinAfter
  simp only
  split <;> rfl

/-- The level left by a poll keeps a trigger that is still high from counting again (R239). -/
theorem coinAfter_of_held {j' : Jvsc} (hprev : j'.coinPrev.getD k false = Config.coinTrigger c.profile pad k) :
    coinAfter c pad j' k = j'.coinCount.getD k 0 := by
  rw [coinAfter_eq_add, if_neg, Nat.add_zero]
  rintro ⟨hhigh, hlow, -⟩
  exact absurd (hhigh.symm.trans (hprev.symm.trans hlow)) (by decide)

/-- A poll at which every slot has the level left by the poll before counts nothing (R239 a). -/
theorem Jvsc.sampleCoins_of_held {j' : Jvsc} (hlen : j'.coinCount.length = c.jv.coinSlots)
    (hprev : ∀ k < c.jv.coinSlots, j'.coinPrev.getD k false = Config.coinTrigger c.profile pad k) :
    (j'.sampleCoins c pad).coinCount = j'.coinCount := by
  refine List.ext_getElem (by simp [hlen]) fun k hk hk' => ?_
  have hcount := coinAfter_of_held (hprev k (hlen ▸ hk'))
  simpa [hk'] using hcount

/-- A coin adjustment of a slot that does not exist is its event (R240). -/
theorem Jvsc.coinUpdate_of_missing {slot : Byte} (h : slot = 0 ∨ c.jv.coinSlots < slot.toNat) (f : Nat → Nat) :
    j.coinUpdate c slot f = j.raise (.jvsBadSlot slot) := if_pos h

/-- A coin adjustment of a slot that exists is made to its counter (R240). -/
theorem Jvsc.coinUpdate_of_present {slot : Byte} (h : ¬(slot = 0 ∨ c.jv.coinSlots < slot.toNat)) (f : Nat → Nat) :
    j.coinUpdate c slot f = { j with coinCount := j.coinCount.modify (slot.toNat - 1) f } := if_neg h

end

/-- The coin poll leaves every slot sampled and reports the counters after the step (R239). -/
theorem exec_jCoinInput_sampled {s : State} (hc : s.cfg.codesDistinct = true) (hs : s.cfg.jv.framingSound = true)
    (node slots : Byte) (pad : PadStatus) :
    ∃ (x : Rx) (e : Enc), exec (.jCoinInput node slots pad) s =
      .next (s.withJvsc
        ((s.jvsc.sampleCoins s.cfg pad).served s.cfg
          ([s.cfg.jv.statusOk, s.cfg.jv.reportOk] ++ (s.jvsc.sampleCoins s.cfg pad).coinReport s.cfg slots.toNat) x e)
        (delayedReply s)) :=
  exec_serves_short hc hs rfl (by simp [isGroup]) (by simp [payloadBytes]) fun _ => rfl

/-- Settles O34: the poll's own counters and levels, with its report read off the counters. -/
theorem coinInputCountsRisingEdges : Obligations.CoinInputCountsRisingEdges := by
  intro node slots pad s hc hs count data
  have h := exec_jCoinInput_sampled hc hs node slots pad
  rw [Jvsc.coinReport_sampleCoins] at h
  exact h

/-- Settles O35: the first poll leaves the level of its sample, which is what the second poll's edge is against. -/
theorem heldCoinCountsOnce : Obligations.HeldCoinCountsOnce := by
  intro node slots node' slots' pad pad' s k hc hs hk
  obtain ⟨x, e, hfirst⟩ := exec_jCoinInput_sampled hc hs node slots pad
  obtain ⟨x', e', hsecond⟩ := exec_jCoinInput_sampled (s := s.withJvsc _ (delayedReply s)) hc hs node' slots' pad'
  refine ⟨_, _, hfirst, hsecond, ?edge, ?held⟩
  case edge =>
    simp only [State.withJvsc_jvsc, State.withJvsc_cfg, Jvsc.served_coinCount]
    rw [Jvsc.sampleCoins_counter hk, coinAfter_eq_add, Jvsc.served_coinCount, Jvsc.served_coinPrev,
      Jvsc.sampleCoins_level hk]
    rfl
  case held =>
    rintro rfl
    simp only [State.withJvsc_jvsc, State.withJvsc_cfg, Jvsc.served_coinCount]
    exact Jvsc.sampleCoins_of_held (by simp) fun k hk => Jvsc.sampleCoins_level (j := s.jvsc) hk

/-- Settles O36: the two ways a coin adjustment goes, by whether its slot exists. -/
theorem coinAdjustmentsSaturate : Obligations.CoinAdjustmentsSaturate := by
  intro node slot hi lo s hc hs amount p leaves
  refine ⟨fun hmissing => ⟨?_, ?_⟩, fun hpresent => ⟨?_, ?_⟩⟩ <;>
    refine exec_serves_short hc hs rfl (by simp [isGroup]) (by simp [payloadBytes]) fun x => ?_
  · rw [runGroup, ruleCoinSub, Jvsc.coinUpdate_of_missing hmissing]; rfl
  · rw [runGroup, ruleCoinAdd, Jvsc.coinUpdate_of_missing hmissing]; rfl
  · rw [runGroup, ruleCoinSub, Jvsc.coinUpdate_of_present hpresent]; rfl
  · rw [runGroup, ruleCoinAdd, Jvsc.coinUpdate_of_present hpresent]; rfl

end Sys2Proof.Machine
end

section
/-! Where the coin counters and levels can change (R249): of the opcodes of a frame, the three coin opcodes; of the operations of
the JVSC, what may carry one of these, and reset. -/

namespace Sys2Proof.Machine

open Sys2Proof

/-- Two JVSC states with the same coin counters and levels. -/
structure Jvsc.SameCoins (j k : Jvsc) : Prop where
  counters : k.coinCount = j.coinCount
  levels : k.coinPrev = j.coinPrev

/-- A coin opcode, as an instruction. -/
def isCoinOpcode (i : Instr) : Prop :=
  (∃ node k pad, i = .jCoinInput node k pad) ∨ (∃ node a b c, i = .jCoinSub node a b c)
    ∨ ∃ node a b c, i = .jCoinAdd node a b c

section
variable (c : Cfg) (j : Jvsc)

theorem Jvsc.coinUpdate_coinPrev (slot : Byte) (f : Nat → Nat) : (j.coinUpdate c slot f).coinPrev = j.coinPrev := by
  unfold Jvsc.coinUpdate
  split <;> rfl

/-- The vendor opcode reports or raises its event (R244). -/
theorem ruleNAMCO_sameCoins (tail : List Byte) : j.SameCoins (ruleNAMCO c tail j) := by
  unfold ruleNAMCO
  split
  · split <;> exact ⟨rfl, rfl⟩
  · exact ⟨rfl, rfl⟩

theorem ruleReset_sameCoins (magic : Byte) : j.SameCoins (ruleReset c magic j) := by
  rw [ruleReset_eq]
  split <;> exact ⟨rfl, rfl⟩

/-- Every opcode's rule but those of the coin opcodes leaves the counters and levels. -/
theorem runGroup_sameCoins {i : Instr} (hi : ¬isCoinOpcode i) : j.SameCoins (runGroup c i j) := by
  cases i
  case jCoinInput => exact absurd (.inl ⟨_, _, _, rfl⟩) hi
  case jCoinSub => exact absurd (.inr (.inl ⟨_, _, _, _, rfl⟩)) hi
  case jCoinAdd => exact absurd (.inr (.inr ⟨_, _, _, _, rfl⟩)) hi
  case jNAMCO node tail => exact ruleNAMCO_sameCoins c j tail
  case jReset node magic => exact ruleReset_sameCoins c j magic
  all_goals exact ⟨rfl, rfl⟩

/-- Every opcode's rule but the poll's leaves the levels. -/
theorem runGroup_coinPrev {i : Instr} (hi : ¬∃ node k pad, i = .jCoinInput node k pad) :
    (runGroup c i j).coinPrev = j.coinPrev := by
  by_cases hcoin : isCoinOpcode i
  · obtain hpoll | ⟨node, slot, hi, lo, rfl⟩ | ⟨node, slot, hi, lo, rfl⟩ := hcoin
    · exact absurd hpoll hi
    · exact Jvsc.coinUpdate_coinPrev c j slot _
    · exact Jvsc.coinUpdate_coinPrev c j slot _
  · exact (runGroup_sameCoins c j hcoin).levels

end

/-- A well-formed JVS mnemonic is a group of its own payload, the vendor opcode, or an opcode outside the map; its payload fits
one frame. -/
theorem payload_group_or_namco_or_unhandled {c : Cfg} {i : Instr} {node : Byte} {bytes : List Byte} {pad : PadStatus}
    (hwf : i.wf c = true) (he : encode c i = .payload node bytes pad) :
    bytes = payloadBytes c i ∧ jvsFits c.jv node bytes = true
      ∧ (isGroup node pad i = true ∨ (∃ tail, i = .jNAMCO node tail) ∨ ∃ jop tail, i = .jUnhandled node jop tail) := by
  cases i <;> cases he
  case jNAMCO => exact ⟨rfl, (Bool.and_eq_true_iff.1 hwf).2, .inr (.inl ⟨_, rfl⟩)⟩
  case jUnhandled => exact ⟨rfl, (Bool.and_eq_true_iff.1 hwf).2, .inr (.inr ⟨_, _, rfl⟩)⟩
  case jDriverOutput =>
    obtain ⟨hd, hf⟩ := Bool.and_eq_true_iff.1 hwf
    exact ⟨rfl, hf, .inl (by simpa [isGroup] using hd)⟩
  all_goals exact ⟨rfl, hwf, .inl (by simp [isGroup])⟩

section
variable {s t : State}

/-- An instruction known to leave a JVSC with the same coins leaves them in its next state. -/
theorem sameCoins_of_exec {i : Instr} {j : Jvsc} {r : Result} (hexec : exec i s = .next (s.withJvsc j r))
    (h : exec i s = .next t) (hj : s.jvsc.SameCoins j) : s.jvsc.SameCoins t.jvsc :=
  next_inj (hexec.symm.trans h) ▸ hj

variable (hc : s.cfg.codesDistinct = true)
include hc

/-- The call that carries a JVS opcode other than a coin opcode leaves the counters and levels. -/
theorem exec_payload_sameCoins (hs : s.cfg.jv.framingSound = true) {i : Instr} (hwf : i.wf s.cfg = true)
    (hi : ¬isCoinOpcode i) {node : Byte} {bytes : List Byte} {pad : PadStatus} (he : encode s.cfg i = .payload node bytes pad)
    (h : exec i s = .next t) : s.jvsc.SameCoins t.jvsc := by
  obtain ⟨rfl, hf, hgroup | ⟨tail, rfl⟩ | ⟨jop, tail, rfl⟩⟩ := payload_group_or_namco_or_unhandled hwf he
  · obtain ⟨x, e, hcall⟩ := frameCall_served hc hs hf pad
    rw [Jvsc.dispatch_group hc hgroup] at hcall
    have hrule := runGroup_sameCoins s.cfg { s.jvsc.received x with rp := [s.cfg.jv.statusOk] } hi
    exact sameCoins_of_exec ((exec_payload he).trans hcall) h ⟨hrule.counters, hrule.levels⟩
  · obtain ⟨x, e, hcall⟩ := vendorOpcodeAsksTheProfile node tail s hc hs hwf
    refine sameCoins_of_exec hcall h ?_
    split
    · split <;> exact ⟨rfl, rfl⟩
    · exact ⟨rfl, rfl⟩
  · obtain ⟨x, e, hcall⟩ := unknownJvsOpcodeStopsDispatch node jop tail s hc hs hwf
    exact sameCoins_of_exec hcall h ⟨rfl, rfl⟩

/-- An instruction that is no coin opcode, carries none and is no reset leaves the counters and levels. -/
theorem exec_sameCoins (hs : s.cfg.jv.framingSound = true) {i : Instr} (hwf : i.wf s.cfg = true) (hi : ¬isCoinOpcode i)
    (hjvs : ∀ d pad, i ≠ .chJVS d pad) (hcmd : ∀ d pad, i ≠ .siCommand d pad) (hbuf : ∀ d pad, i ≠ .runBuffer d pad)
    (hreset : i ≠ .reset .jvsc) (h : exec i s = .next t) : s.jvsc.SameCoins t.jvsc := by
  cases runs_of_exec h with
  | bmsc => exact ⟨rfl, rfl⟩
  | mbmp => exact ⟨rfl, rfl⟩
  | jvsc r block run =>
    cases i
    case reset b => exact absurd (congrArg Instr.reset block) hreset
    case runBuffer d pad => exact absurd rfl (hbuf d pad)
    case siCommand d pad => exact absurd rfl (hcmd d pad)
    case chJVS d pad => exact absurd rfl (hjvs d pad)
    case siReset rest => exact sameCoins_of_exec (serialOpcodesOutsideTheCommandPath 0 rest s).1 h ⟨rfl, rfl⟩
    case siUnhandled op rest =>
      exact sameCoins_of_exec ((serialOpcodesOutsideTheCommandPath op rest s).2 hwf) h ⟨rfl, rfl⟩
    case chCard d =>
      exact sameCoins_of_exec (cardAndUnknownChunksOnlyLog 0 d s hc (of_decide_eq_true hwf)).1 h ⟨rfl, rfl⟩
    case chICCard d =>
      exact sameCoins_of_exec (cardAndUnknownChunksOnlyLog 0 d s hc (of_decide_eq_true hwf)).2.1 h ⟨rfl, rfl⟩
    case chUnhandled cop d =>
      obtain ⟨-, hd⟩ := Bool.and_eq_true_iff.1 hwf
      exact sameCoins_of_exec ((cardAndUnknownChunksOnlyLog cop d s hc (of_decide_eq_true hd)).2.2 hwf) h ⟨rfl, rfl⟩
    case jBoardID | jCommandRev | jJVRev | jCommRev | jCapabilities | jSwitchInput | jCoinInput | jAnalogInput
        | jPositionInput | jCoinSub | jDriverOutput | jCoinAdd | jNAMCO | jReset | jSetAddress | jUnhandled =>
      exact exec_payload_sameCoins hc hs hwf hi rfl h
    all_goals cases block

end

/-- Settles O42: over the instructions by what may carry a coin opcode, over the rules by which opcode it is. -/
theorem coinsChangeOnlyThere : Obligations.CoinsChangeOnlyThere := by
  refine ⟨fun i s t hc hs hwf h hchanged => ?_, fun c i j => ⟨fun hcount => ?_, fun hprev => ?_⟩⟩
  · by_contra hother
    simp only [not_or, not_exists] at hother
    obtain ⟨hpoll, hsub, hadd, hjvs, hcmd, hbuf, hreset⟩ := hother
    have hcoin : ¬isCoinOpcode i := by simp only [isCoinOpcode, not_or, not_exists]; exact ⟨hpoll, hsub, hadd⟩
    obtain ⟨hcounters, hlevels⟩ := exec_sameCoins hc hs hwf hcoin hjvs hcmd hbuf hreset h
    exact hchanged.elim (· hcounters) (· hlevels)
  · exact not_not.1 fun hcoin => hcount (runGroup_sameCoins c j hcoin).counters
  · exact not_not.1 fun hpoll => hprev (runGroup_coinPrev c j hpoll)

end Sys2Proof.Machine
end

section
/-! A mailbox access (R271 to R273): what a write and a read do in bounds, and what they do past the end of the record. -/

namespace Sys2Proof.Machine

open Sys2Proof

/-- The bytes of a read are those of its range, in ascending order (R83). -/
theorem mbReadBytes_eq_map (m : Memory) (a n : Nat) :
    mbReadBytes m a n = (List.range n).map fun k => mbByte m (a + k) := by
  induction n generalizing a with
  | zero => rfl
  | succ n ih =>
    simp only [mbReadBytes, ih, List.range_succ_eq_map, List.map_cons, List.map_map, Function.comp_def, Nat.succ_eq_add_one,
      Nat.add_zero, Nat.add_assoc, Nat.add_comm 1]

theorem passesEnd_eq_true {c : Cfg} {w : Window} {off n : Nat} (h : mailboxSize < windowBase c w + off + n) :
    passesEnd c w off n = true := decide_eq_true h

theorem passesEnd_eq_false {c : Cfg} {w : Window} {off n : Nat} (h : windowBase c w + off + n ≤ mailboxSize) :
    passesEnd c w off n = false := decide_eq_false (Nat.not_lt.2 h)

section
variable {c : Cfg} (m : Mbmp) {w : Window} {off : Nat}

theorem Mbmp.write_inside {bytes : List Byte} (h : windowBase c w + off + bytes.length ≤ mailboxSize) :
    m.write c w off bytes = { m with mb := mbWriteBytes m.mb (windowBase c w + off) bytes } := by
  simp [Mbmp.write, passesEnd_eq_false h]

theorem Mbmp.write_past_end {bytes : List Byte} (h : mailboxSize < windowBase c w + off + bytes.length) :
    m.write c w off bytes = m.raise (.mbBounds w off bytes.length) := by
  simp [Mbmp.write, passesEnd_eq_true h]

theorem Mbmp.read_inside {n : Nat} (h : windowBase c w + off + n ≤ mailboxSize) :
    m.read c w off n = (mbReadBytes m.mb (windowBase c w + off) n, m) := by
  simp [Mbmp.read, passesEnd_eq_false h]

theorem Mbmp.read_past_end {n : Nat} (h : mailboxSize < windowBase c w + off + n) :
    m.read c w off n = (List.replicate n 0, m.raise (.mbBounds w off n)) := by
  simp [Mbmp.read, passesEnd_eq_true h]

end

/-- Settles O43: each access, in bounds and past the end. -/
theorem mailboxAccessesAreBounded : Obligations.MailboxAccessesAreBounded := by
  intro w off n bytes s hinv
  obtain ⟨hwf, -⟩ := (Mbmp.inv_iff _).1 hinv
  refine ⟨fun h => ⟨_, ?writeInside, fun a => mbByte_mbWriteBytes s.mbmp.mb _ bytes a hwf⟩, fun h => ?writePast,
    fun h => ?readInside, fun h => ?readPast⟩
  case writeInside => rw [exec_mbWrite, execMbWrite, Mbmp.write_inside _ h]
  case writePast => rw [exec_mbWrite, execMbWrite, Mbmp.write_past_end _ h, Mbmp.raise]
  case readInside => rw [exec_mbRead, execMbRead, Mbmp.read_inside _ h, mbReadBytes_eq_map]
  case readPast => rw [exec_mbRead, execMbRead, Mbmp.read_past_end _ h, Mbmp.raise]

end Sys2Proof.Machine
end

section
/-! The execute step (R274 to R280, R285, R288): it answers the inbound region it finds, and what it leaves in its window
depends on that region alone. -/

namespace Sys2Proof.Machine

open Sys2Proof

section
variable {c : Cfg} {m : Mbmp} {w : Window} {sock : Option (Vector Byte 28)} {code : Word16}
  {inb result : List Byte} {events : List MbEvent}

/-- The execute step by the inbound region it finds and the answer to it: the outbound region is written first, then the
inbound one cleared (R274). -/
theorem Mbmp.execute_eq (hinb : mbReadBytes m.mb (inBase c w) regionSize = inb)
    (hcode : codeOf c inb = code) (hanswer : mbResultOf c code inb sock = (result, events)) :
    m.execute c w sock =
      { mb := mbWriteBytes (mbWriteBytes m.mb (outBase c w) (outboundBytes c inb result)) (inBase c w)
          (List.replicate regionSize 0),
        intOut := m.intOut ++ [windowInterrupt c w], log := m.log ++ events } := by
  rw [Mbmp.execute, hinb, hcode, hanswer]
  rfl

/-- The two writes lie side by side, so each region holds what was written to it, and nothing else is touched. -/
theorem Mbmp.answered_execute (hinv : m.inv = true) (hinb : mbReadBytes m.mb (inBase c w) regionSize = inb)
    (hcode : codeOf c inb = code) (hanswer : mbResultOf c code inb sock = (result, events)) :
    Mbmp.Answered c m (m.execute c w sock) w inb result events := by
  obtain ⟨hwf, -⟩ := (Mbmp.inv_iff m).1 hinv
  have hregion : inb.length = 32 := hinb ▸ mbReadBytes_length _ _ _
  have hresult : result.length = 28 := by
    have := mbResultOf_length c code inb sock
    rwa [hanswer] at this
  have hout := outboundBytes_length c inb result hregion hresult
  have hwf' := mbWriteBytes_wf _ (outBase c w) (outboundBytes c inb result) hwf
  have hzero : (List.replicate regionSize (0 : Byte)).length = 32 := List.length_replicate
  have hin := inBase_eq c w
  have hob := outBase_eq c w
  have h32 : regionSize = 32 := rfl
  rw [Mbmp.execute_eq hinb hcode hanswer]
  refine ⟨fun k hk => ?inbound, fun k hk => ?outbound, fun a ha => ?elsewhere, rfl, rfl⟩
  case inbound =>
    rw [mbByte_mbWriteBytes_at _ hwf' _ _ _ (by omega), List.getD_replicate _ hk]
  case outbound =>
    rw [mbByte_mbWriteBytes_outside hwf' _ _ (by omega), mbByte_mbWriteBytes_at _ hwf _ _ _ (by omega),
      outboundBytes_getD c inb result k hk hregion hresult]
  case elsewhere =>
    rw [mbByte_mbWriteBytes_outside hwf' _ _ (by omega), mbByte_mbWriteBytes_outside hwf _ _ (by omega)]

end

/-- Bits that were set in a byte read back set. -/
theorem or_and_mask (v mask : Byte) : (v ||| mask) &&& mask = mask := by
  ext i hi
  simpa using Or.inr

namespace Mbmp.Answered

section
variable {c : Cfg} {m m' : Mbmp} {w : Window} {inb result : List Byte} {events : List MbEvent}

/-- The completion mask is set in the answer, so its bits read back set (R52, R279). -/
theorem completionBit (h : Mbmp.Answered c m m' w inb result events) (hl : c.legal = true) :
    m'.completionBit c w = true := by
  obtain ⟨-, -, hdone⟩ := windowBase_legal hl w
  rw [Mbmp.completionBit, h.outbound _ hdone, answerByte, if_pos rfl, decide_eq_true_eq, or_and_mask]

/-- With the completion byte in the echo, the result stands unchanged behind it (R278, R279). -/
theorem resultByte (h : Mbmp.Answered c m m' w inb result events) (hdone : c.mb.doneOff < 4) {k : Nat} (hk : k < 28) :
    mbByte m'.mb (outBase c w + 4 + k) = result.getD k 0 := by
  have hregion : 4 + k < regionSize := by rw [regionSize]; omega
  have hecho : ¬(4 + k < 4) := by omega
  have hmask : 4 + k ≠ c.mb.doneOff := by omega
  rw [Nat.add_assoc, h.outbound _ hregion, answerByte, if_neg hecho, if_neg hmask, Nat.add_sub_cancel_left]

/-- An answer found from a state with the same bytes outside the window, the same log and the same interrupts. -/
theorem of_agree {m₀ : Mbmp} (h : Mbmp.Answered c m₀ m' w inb result events)
    (helse : ∀ a, a < windowBase c w ∨ windowBase c w + 2 * regionSize ≤ a → mbByte m₀.mb a = mbByte m.mb a)
    (hlog : m₀.log = m.log) (hint : m₀.intOut = m.intOut) : Mbmp.Answered c m m' w inb result events where
  inbound := h.inbound
  outbound := h.outbound
  elsewhere a ha := (h.elsewhere a ha).trans (helse a ha)
  log := hlog ▸ h.log
  intOut := hint ▸ h.intOut

/-- Two records answered alike hold the same window (R288). -/
theorem window_eq {n n' : Mbmp} (hm : Mbmp.Answered c m m' w inb result events)
    (hn : Mbmp.Answered c n n' w inb result events) {a : Nat} (hlo : windowBase c w ≤ a) (hhi : a < windowBase c w + 0x40) :
    mbByte m'.mb a = mbByte n'.mb a := by
  have h32 : regionSize = 32 := rfl
  by_cases hin : a < outBase c w
  · obtain ⟨k, rfl⟩ := Nat.exists_eq_add_of_le hlo
    have hk : k < regionSize := Nat.lt_of_add_lt_add_left hin
    exact (hm.inbound k hk).trans (hn.inbound k hk).symm
  · obtain ⟨k, rfl⟩ := Nat.exists_eq_add_of_le (Nat.not_lt.1 hin)
    have hk : k < regionSize := by rw [outBase_eq] at hhi; omega
    exact (hm.outbound k hk).trans (hn.outbound k hk).symm

end

end Mbmp.Answered

/-- Settles O44: the step answers the region it finds; the completion bit and the interrupt follow from the answer. -/
theorem executeStepAnswersTheWindow : Obligations.ExecuteStepAnswersTheWindow := by
  intro w sock s hl hinv
  have hanswered := Mbmp.answered_execute (c := s.cfg) (w := w) (sock := sock) hinv rfl rfl rfl
  refine ⟨_, exec_mbExecute w sock s, ⟨mbResultOf_length _ _ _ _, hanswered⟩, hanswered.completionBit hl,
    fun hlegacy hrevised => hanswered.intOut.trans ?_⟩
  cases w with
  | legacy => rw [windowInterrupt, hlegacy]
  | revised => rw [windowInterrupt, hrevised]

/-- Settles O48: both steps find the same inbound region, so both records are answered alike. -/
theorem windowsAreIndependent : Obligations.WindowsAreIndependent := by
  intro w sock s t _ hcfg hs ht hagree
  have hregion : mbReadBytes t.mbmp.mb (inBase s.cfg w) regionSize = mbReadBytes s.mbmp.mb (inBase s.cfg w) regionSize := by
    refine mbReadBytes_congr _ _ _ _ fun x hlo hhi => (hagree x hlo ?_).symm
    rw [inBase_eq, regionSize] at hhi
    omega
  have hanswerS := Mbmp.answered_execute (c := s.cfg) (w := w) (sock := sock) hs rfl rfl rfl
  have hanswerT := Mbmp.answered_execute (c := s.cfg) (w := w) (sock := sock) ht hregion rfl rfl
  have hexecT : exec (.mbExecute w sock) t = .next (t.withMbmp (t.mbmp.execute s.cfg w sock) .none) :=
    hcfg ▸ exec_mbExecute w sock t
  exact ⟨_, _, _, exec_mbExecute w sock s, hexecT, fun a hlo hhi => hanswerS.window_eq hanswerT hlo hhi,
    fun a ha => ⟨hanswerS.elsewhere a ha, hanswerT.elsewhere a ha⟩, hanswerS.log, hanswerT.log, hanswerS.intOut,
    hanswerT.intOut⟩

end Sys2Proof.Machine
end

section
/-! The mailbox commands (R281 to R284, R287): the call that writes a command and executes it is answered by the result of its
code, whatever the record held before. -/

namespace Sys2Proof.Machine

open Sys2Proof

/-! ## The result of a code (R278) -/

/-- The size query is the first row of the map, so its code selects it even where another command has the code too (log
entry 19). -/
theorem mbOpOf_getDIMMSize_first (c : Cfg) : mbOpOf c c.mb.mbc.getDIMMSize = some .getDIMMSize := List.lookup_cons_self

section
variable {c : Cfg} {code : Word16} (inb : List Byte) (sock : Option (Vector Byte 28))

theorem mbResultOf_getDIMMSize (h : mbOpOf c code = some .getDIMMSize) :
    mbResultOf c code inb sock = (dimmSizeResult c, []) := by
  rw [mbResultOf, h]

theorem mbResultOf_getStatus (h : mbOpOf c code = some .getStatus) :
    mbResultOf c code inb sock = (openResult c code inb, []) := by
  rw [mbResultOf, h]

theorem mbResultOf_serialInit (h : mbOpOf c code = some .serialInit) :
    mbResultOf c code inb sock = (openResult c code inb, []) := by
  rw [mbResultOf, h]

theorem mbResultOf_unknown (h : mbOpOf c code = none) : mbResultOf c code inb sock = (zeroResult, [.mbUnhandled code]) := by
  rw [mbResultOf, h]

/-- The socket commands: all but the size query and the two open commands (R283). -/
def isSocketOp (op : MbOp) : Bool :=
  match op with
  | .getDIMMSize | .getStatus | .serialInit => false
  | _ => true

theorem mbResultOf_socketCommand {op : MbOp} (h : mbOpOf c code = some op) (hop : isSocketOp op = true) :
    mbResultOf c code inb sock = (socketResult sock, socketEvent code sock) := by
  rw [mbResultOf, h]
  cases op
  case getDIMMSize | getStatus | serialInit => exact absurd hop Bool.false_ne_true
  all_goals rfl

end

/-! ## The call (R287) -/

section
variable {s : State} (hl : s.cfg.legal = true) (hinv : s.mbmp.inv = true) {rest : List Byte} (hrest : rest.length = 30)
include hl hinv hrest

/-- The step finds the inbound region just written, and that write stays inside the window. -/
theorem mailboxCall_answered {code : Word16} {result : List Byte} {events : List MbEvent} (w : Window)
    (sock : Option (Vector Byte 28))
    (hanswer : mbResultOf s.cfg code (inboundBytes s.cfg code rest) sock = (result, events)) :
    ∃ m : Mbmp, mailboxCall w code rest sock s = .next (s.withMbmp m .none)
      ∧ Mbmp.Answered s.cfg s.mbmp m w (inboundBytes s.cfg code rest) result events := by
  obtain ⟨-, hoff, -⟩ := windowBase_legal hl w
  obtain ⟨hwf, -⟩ := (Mbmp.inv_iff _).1 hinv
  have hlen := inboundBytes_length s.cfg code rest hrest hoff
  have hcode := codeOf_inboundBytes s.cfg code rest hrest hoff
  have hwritten := s.mbmp.write_inbound s.cfg w code rest hl hrest
  have hinv' := hwritten ▸ Mbmp.inv_write s.cfg hinv w 0 (inboundBytes s.cfg code rest)
  have hfound : mbReadBytes (mbWriteBytes s.mbmp.mb (windowBase s.cfg w) (inboundBytes s.cfg code rest)) (inBase s.cfg w)
      regionSize = inboundBytes s.cfg code rest := by
    rw [inBase_eq, ← hlen, mbReadBytes_mbWriteBytes _ _ _ hwf]
  have hanswered := Mbmp.answered_execute hinv' hfound hcode hanswer
  have houtside (a : Nat) (ha : a < windowBase s.cfg w ∨ windowBase s.cfg w + 2 * regionSize ≤ a) :
      mbByte (mbWriteBytes s.mbmp.mb (windowBase s.cfg w) (inboundBytes s.cfg code rest)) a = mbByte s.mbmp.mb a :=
    mbByte_mbWriteBytes_outside hwf _ _ (by omega)
  refine ⟨_, ?_, hanswered.of_agree houtside rfl rfl⟩
  rw [mailboxCall_next, hwritten]

/-- Every socket command answers the oracle, under its own code (R283). -/
theorem mailboxCall_socketCommand {code : Word16} {op : MbOp} (hcode : mbOpOf s.cfg code = some op)
    (hop : isSocketOp op = true) (w : Window) (sock : Option (Vector Byte 28)) :
    ∃ m : Mbmp, mailboxCall w code rest sock s = .next (s.withMbmp m .none)
      ∧ Mbmp.Answered s.cfg s.mbmp m w (inboundBytes s.cfg code rest) (socketResult sock) (socketEvent code sock) :=
  mailboxCall_answered hl hinv hrest w sock (mbResultOf_socketCommand _ _ hcode hop)

end

/-- A 32-bit field whose bytes are those of a quantity holds that quantity (R289). -/
theorem get32_of_bytes {e : Endian} {m : Memory} {a : Nat} {x : Word32}
    (h : ∀ k, k < 4 → mbByte m (a + k) = (bytes32 e x).getD k 0) : get32 e m a = x := by
  have h0 : mbByte m a = (bytes32 e x).getD 0 0 := h 0 (by decide)
  rw [get32, h0, h 1 (by decide), h 2 (by decide), h 3 (by decide), word32_bytes32]

/-- The first four bytes of the size query's result are the size (R281). -/
theorem dimmSizeResult_getD (c : Cfg) {k : Nat} (hk : k < 4) :
    (dimmSizeResult c).getD k 0 = (bytes32 c.mb.endian (Config.dimmSize c.profile.storageMedium)).getD k 0 :=
  List.getD_append _ _ _ _ (by rwa [bytes32_length])

/-- Settles O45: the call is answered by the size, whose four bytes stand at the front of the result. -/
theorem sizeQueryAnswersTheMedium : Obligations.SizeQueryAnswersTheMedium := by
  intro w rest s hl hinv hrest
  obtain ⟨m, hcall, hanswered⟩ := mailboxCall_answered hl hinv hrest w none
    (mbResultOf_getDIMMSize _ none (mbOpOf_getDIMMSize_first s.cfg))
  refine ⟨m, hcall, hanswered, fun hdone => get32_of_bytes fun k hk => ?_, hanswered.completionBit hl⟩
  rw [hanswered.resultByte hdone (by omega), dimmSizeResult_getD s.cfg hk]

/-- Settles O46: the call's answer is the open function's for the two open commands, zeros for a code outside the map. -/
theorem openAndUnknownCommandsAnswer : Obligations.OpenAndUnknownCommandsAnswer := by
  intro w code rest s hl hc hinv hrest
  exact ⟨mailboxCall_answered hl hinv hrest w none (mbResultOf_getStatus _ none (mbOpOf_getStatus hc)),
    mailboxCall_answered hl hinv hrest w none (mbResultOf_serialInit _ none (mbOpOf_serialInit hc)),
    fun hnone => mailboxCall_answered hl hinv hrest w none (mbResultOf_unknown _ none hnone)⟩

/-- Settles O47: one argument for all thirteen commands, with an oracle and without; each code selects its own command. -/
theorem socketCommandsAnswerTheOracle : Obligations.SocketCommandsAnswerTheOracle := by
  intro w rest sock s hl hc hinv hrest answers
  have socketCommand {i : Instr} {code : Word16} {op : MbOp} (hexec : exec i s = mailboxCall w code rest sock s)
      (hcode : mbOpOf s.cfg code = some op) (hop : isSocketOp op = true) : answers i code := by
    obtain ⟨m, hcall, hanswered⟩ := mailboxCall_socketCommand hl hinv hrest hcode hop w sock
    refine ⟨m, hexec.trans hcall, ?_⟩
    cases sock with
    | none => exact hanswered
    | some r => exact hanswered
  exact ⟨socketCommand (exec_mbAccept w rest sock s) (mbOpOf_accept hc) rfl,
    socketCommand (exec_mbBind w rest sock s) (mbOpOf_bind hc) rfl,
    socketCommand (exec_mbConnect w rest sock s) (mbOpOf_connect hc) rfl,
    socketCommand (exec_mbInetAddr w rest sock s) (mbOpOf_inetAddr hc) rfl,
    socketCommand (exec_mbListen w rest sock s) (mbOpOf_listen hc) rfl,
    socketCommand (exec_mbRecv w rest sock s) (mbOpOf_recv hc) rfl,
    socketCommand (exec_mbSend w rest sock s) (mbOpOf_send hc) rfl,
    socketCommand (exec_mbSocket w rest sock s) (mbOpOf_socket hc) rfl,
    socketCommand (exec_mbSelect w rest sock s) (mbOpOf_select hc) rfl,
    socketCommand (exec_mbSetSockOpt w rest sock s) (mbOpOf_setSockOpt hc) rfl,
    socketCommand (exec_mbSetTimeOuts w rest sock s) (mbOpOf_setTimeOuts hc) rfl,
    socketCommand (exec_mbGetLastError w rest sock s) (mbOpOf_getLastError hc) rfl,
    socketCommand (exec_mbModifyMyIPaddr w rest sock s) (mbOpOf_modifyMyIPaddr hc) rfl⟩

end Sys2Proof.Machine
end

section
/-! The interrupt poll (R306) and its countdown (R308): the state after `n` polls has a closed form, which a poll takes to the
form after `n + 1`. -/

namespace Sys2Proof.Machine

open Sys2Proof

section
variable {c : Cfg} {b : Bmsc}

/-- A poll that finds the flag answers 1 and counts itself; the flag outlives it up to the limit (R306). -/
theorem Bmsc.poll_of_pending (hp : b.irqPending = true) :
    b.poll c = (true, { b with irqCount := b.irqCount + 1, irqPending := decide (b.irqCount + 1 ≤ c.bm.irqPollLimit) }) :=
  if_pos hp

/-- A poll that does not find the flag answers 0 and changes nothing (R306). -/
theorem Bmsc.poll_of_not_pending (hp : b.irqPending = false) : b.poll c = (false, b) :=
  if_neg (Bool.eq_false_iff.1 hp)

end

/-- The instruction returns the answer of one poll, and leaves the BMSC as that poll does. -/
theorem execPollInterrupt_next (s : State) :
    execPollInterrupt s = .next (s.withBmsc (s.bmsc.poll s.cfg).2 (.bit (s.bmsc.poll s.cfg).1)) := rfl

/-- Settles O20, by whether the poll finds the flag. -/
theorem pollCountsAndAutoClears : Obligations.PollCountsAndAutoClears := by
  intro s
  rw [exec_pollInterrupt, execPollInterrupt_next]
  refine ⟨fun hp => ?pending, fun hp => ?idle⟩
  case pending =>
    have hflag : decide (s.bmsc.irqCount + 1 ≤ s.cfg.bm.irqPollLimit)
        = if s.cfg.bm.irqPollLimit < s.bmsc.irqCount + 1 then false else true := by
      split
      · next hpast => exact decide_eq_false (Nat.not_le.2 hpast)
      · next hwithin => exact decide_eq_true (Nat.not_lt.1 hwithin)
    rw [Bmsc.poll_of_pending hp, hflag]
  case idle => rw [Bmsc.poll_of_not_pending hp]

/-- The state after an assert and `n` polls: the count stops one past the limit, where the flag drops (R308). -/
def Bmsc.afterPolls (c : Cfg) (b : Bmsc) (n : Nat) : Bmsc :=
  { b with irqCount := min n (c.bm.irqPollLimit + 1), irqPending := decide (n ≤ c.bm.irqPollLimit) }

/-- An asserted state is the one after no polls. -/
theorem Bmsc.afterPolls_zero (c : Cfg) {b : Bmsc} (hp : b.irqPending = true) (hn : b.irqCount = 0) :
    b.afterPolls c 0 = b := by
  have hcount : min 0 (c.bm.irqPollLimit + 1) = b.irqCount := by rw [hn, Nat.zero_min]
  have hflag : decide (0 ≤ c.bm.irqPollLimit) = b.irqPending := by rw [hp, decide_eq_true (Nat.zero_le _)]
  rw [afterPolls, hcount, hflag]

/-- The next poll answers 1 as long as no more than the limit have been made before it. -/
theorem Bmsc.poll_afterPolls (c : Cfg) (b : Bmsc) (n : Nat) :
    (b.afterPolls c n).poll c = (decide (n ≤ c.bm.irqPollLimit), b.afterPolls c (n + 1)) := by
  by_cases hn : n ≤ c.bm.irqPollLimit
  · have hcount : min n (c.bm.irqPollLimit + 1) + 1 = min (n + 1) (c.bm.irqPollLimit + 1) := by omega
    have hnext : min (n + 1) (c.bm.irqPollLimit + 1) = n + 1 := Nat.min_eq_left (Nat.succ_le_succ hn)
    rw [poll_of_pending (decide_eq_true hn), decide_eq_true hn]
    simp only [afterPolls, hcount, hnext]
  · have hcount : min n (c.bm.irqPollLimit + 1) = min (n + 1) (c.bm.irqPollLimit + 1) := by omega
    have hnext : ¬n + 1 ≤ c.bm.irqPollLimit := fun h => hn (Nat.le_of_succ_le h)
    rw [poll_of_not_pending (decide_eq_false hn), decide_eq_false hn]
    simp only [afterPolls, hcount, decide_eq_false hn, decide_eq_false hnext]

/-- `k` more polls after the first `n`. -/
theorem Bmsc.polls_afterPolls (c : Cfg) (b : Bmsc) (n k : Nat) :
    (b.afterPolls c n).polls c k
      = ((List.range k).map fun i => decide (n + i ≤ c.bm.irqPollLimit), b.afterPolls c (n + k)) := by
  induction k generalizing n with
  | zero => rfl
  | succ k ih =>
    simp only [polls, poll_afterPolls, ih, List.range_succ_eq_map, List.map_cons, List.map_map, Function.comp_def,
      Nat.add_zero, Nat.succ_eq_add_one, Nat.add_assoc, Nat.add_comm 1]

/-- Settles O21: the asserted state is the one after no polls, and the `k` polls go on from there. -/
theorem countdownEndsAfterTheLimit : Obligations.CountdownEndsAfterTheLimit := by
  intro c b k hp hn
  calc b.polls c k
    _ = (b.afterPolls c 0).polls c k := by rw [Bmsc.afterPolls_zero c hp hn]
    _ = ((List.range k).map fun i => decide (0 + i ≤ c.bm.irqPollLimit), b.afterPolls c (0 + k)) :=
        Bmsc.polls_afterPolls c b 0 k
    _ = _ := by simp only [Nat.zero_add, Bmsc.afterPolls]

end Sys2Proof.Machine
end
